-- ==== Sys2Proof/Config.lean ====
section
/-! DEFINITION. What one build of the CORE fixes, one definition for each choice (00_scope.md R18): the
constants of R12, the widths of the word and register layouts (30_encoding.md R80, 10_state.md R23), the
size limits of 40_system.md R114, and the one function the spec leaves open, ATAN2Q (44_schmidl_cox.md
R229). Sys2Proof/Word.lean makes the word types of the widths; log 16 says where every choice that is no
number stands. -/

namespace Sys2Proof.Config

/-! ### Samples (R12, R16) -/

/-- SAMPLE_W: bits of one sample component, two's complement (R12). -/
@[simp] abbrev sampleW : Nat := 24

/-- SAMPLE_F: fractional bits of a sample component (R12). -/
@[simp] abbrev sampleF : Nat := 22

/-! ### Words and registers (R12, R23, R80) -/

/-- WORD_W: bits of a transaction word and of an output word (R12). -/
@[simp] abbrev wordW : Nat := 96

/-- Bits of OPC, and of SRC in an output word (R80, R88). -/
@[simp] abbrev opcW : Nat := 8

/-- Bits of TAGLEN, and of the packet lengths counted from it (R29, R34, R80). -/
@[simp] abbrev tagLenW : Nat := 32

/-- Bits of a register, and of VALUE, which is one register's value (R23, R82). -/
@[simp] abbrev regW : Nat := 32

/-- Bits of DATA (R80). -/
@[simp] abbrev dataW : Nat := 48

/-- Bits of a register address: the unit number above the index (R23). -/
@[simp] abbrev addrW : Nat := 8

/-- Bits of the index in a register address (R23). -/
@[simp] abbrev indexW : Nat := 4

/-- Bits of the function number, below the unit number in OPC (R84). -/
@[simp] abbrev fnW : Nat := 4

/-- Bits of UNIT (R83). -/
@[simp] abbrev unitW : Nat := 4

/-- Bits of CFO_Q in a metadata item (R223). -/
@[simp] abbrev cfoW : Nat := 32

/-- Bits of a register pair (R26): the width R207 finds enough for P and R. -/
@[simp] abbrev pairW : Nat := 64

/-- Lowest bit of DATA: the bottom of the word (R80). -/
@[simp] abbrev dataLo : Nat := 0

/-- Lowest bit of TAGLEN: it stands above DATA (R80). -/
@[simp] abbrev tagLenLo : Nat := dataLo + dataW

/-- Lowest bit of ZERO: it stands above TAGLEN (R80). -/
@[simp] abbrev zeroLo : Nat := tagLenLo + tagLenW

/-- Lowest bit of OPC: it is the top of the word (R80). -/
@[simp] abbrev opcLo : Nat := wordW - opcW

/-- The bit TAG: it stands below OPC (R80). -/
@[simp] abbrev tagPos : Nat := opcLo - 1

/-- Bits of ZERO: what is left between TAGLEN and TAG (R80). -/
@[simp] abbrev zeroW : Nat := tagPos - zeroLo

/-! ### Places in DATA (R81 to R83, R87, R223) -/

/-- Lowest bit of ITEM, format D (R81). -/
@[simp] abbrev itemLo : Nat := 0

/-- Lowest bit of the real component of a sample (R87). -/
@[simp] abbrev reLo : Nat := 0

/-- Lowest bit of the imaginary component of a sample (R87). -/
@[simp] abbrev imLo : Nat := reLo + sampleW

/-- Lowest bit of ADDR, format C and output stream 0x02: the top of DATA (R82, R88). -/
@[simp] abbrev addrLo : Nat := dataW - addrW

/-- Lowest bit of VALUE, format C and output stream 0x02 (R82, R88). -/
@[simp] abbrev valueLo : Nat := 0

/-- Lowest bit of UNIT, format S (R83). -/
@[simp] abbrev unitLo : Nat := 0

/-- Lowest bit of CFO_Q in a metadata item (R223). -/
@[simp] abbrev cfoLo : Nat := 0

/-! ### Places in the registers (R22, R24 to R26) -/

/-- SYS_STATUS.ILLEGAL (R22). -/
@[simp] abbrev illegalPos : Nat := 0

/-- SYS_STATUS.NOTRUN (R22). -/
@[simp] abbrev notrunPos : Nat := 1

/-- SYS_STATUS.CFGLOCK (R22). -/
@[simp] abbrev cfglockPos : Nat := 2

/-- Bits of MODE, and of each unit's field of SYS_MODES (R24, R26). -/
@[simp] abbrev modeW : Nat := 2

/-- Lowest bit of MODE in a unit's status register (R26). -/
@[simp] abbrev modeLo : Nat := 0

/-- Bits of CFGERR (R25). -/
@[simp] abbrev errW : Nat := 4

/-- Lowest bit of CFGERR in a unit's status register (R26). -/
@[simp] abbrev errLo : Nat := 4

/-- Bits of FSM in SCG_STATUS (R26). -/
@[simp] abbrev fsmW : Nat := 2

/-- Lowest bit of FSM in SCG_STATUS (R26). -/
@[simp] abbrev fsmLo : Nat := 8

/-- Lowest bit of the half of a register pair at the lower address (R26). -/
@[simp] abbrev pairLoLo : Nat := 0

/-- Lowest bit of the half of a register pair at the higher address (R26). -/
@[simp] abbrev pairHiLo : Nat := regW

/-! ### Unit and function numbers (R23, R84) -/

/-- SYS. -/
@[simp] abbrev unitSys : Nat := 0

/-- HAM. -/
@[simp] abbrev unitHam : Nat := 1

/-- ILV. -/
@[simp] abbrev unitIlv : Nat := 2

/-- QAM. -/
@[simp] abbrev unitQam : Nat := 3

/-- SCG. -/
@[simp] abbrev unitScg : Nat := 4

/-- RPK0; RPKk is k above it. -/
@[simp] abbrev unitRpk : Nat := 5

/-- The forward data operation of a unit. -/
@[simp] abbrev fnFwd : Nat := 0

/-- The inverse data operation of a unit. -/
@[simp] abbrev fnInv : Nat := 1

/-- The forward flush of a unit. -/
@[simp] abbrev fnFlushFwd : Nat := 8

/-- The inverse flush of a unit. -/
@[simp] abbrev fnFlushInv : Nat := 9

/-! ### Constants (R12) -/

/-- NUM_RPK: repacker instances (R12). The opcode table has rows for these four (R85), so another number
also needs another table. -/
@[simp] abbrev numRpk : Nat := 4

/-- QAM_AMP: the constellation's component amplitude, round(2^22 / sqrt 2) (R12, R181). -/
@[simp] abbrev qamAmp : Int := 2965821

/-- TH_F: fractional bits of a threshold register (R12, R205). -/
@[simp] abbrev thF : Nat := 15

/-- CFO_F: 2^30 stands for a half turn (R12, R229). -/
@[simp] abbrev cfoF : Nat := 30

/-- ATAN_ERR: the largest allowed error of ATAN2Q, in its own units (R12, R229). -/
@[simp] abbrev atanErr : Nat := 16384

/-! ### Size limits (R12, R114) -/

/-- ILV_N_MAX: the largest interleaver block (R12, R114). -/
@[simp] abbrev ilvNMax : Nat := 4096

/-- The widest interleaver item, in bits (R11, R114). -/
@[simp] abbrev ilvWMax : Nat := 8

/-- FFT_MAX: the largest FFT_LEN (R12, R114). -/
@[simp] abbrev fftMax : Nat := 4096

/-- The largest value of T_LOW and T_HIGH (R114). -/
@[simp] abbrev thMax : Nat := 65535

/-- The largest SC_NSYM (R114). -/
@[simp] abbrev nsymMax : Nat := 65535

/-- The largest G_IN and G_OUT (R114). -/
@[simp] abbrev groupMax : Nat := 8

/-! ### ATAN2Q (R229) -/

/-- The exact values of ATAN2Q at the origin and on the axes (R229 item 2); `none` off the axes. -/
def atan2Axis (y x : Int) : Option Int :=
  if y = 0 then some (if x < 0 then 2 ^ cfoF else 0)
  else if x = 0 then some (if 0 < y then 2 ^ (cfoF - 1) else -2 ^ (cfoF - 1))
  else none

/-- The contract of ATAN2Q, 44_schmidl_cox.md R229: its range, its exact values at the origin and on the
axes, and its error off the axes. `Complex.arg (x + y i)` is the real four-quadrant arctangent
atan2(y, x) with values in (-π, π]. DESIGN CHOICE (log 4): the contract is asked of every pair of
integers, not only of pairs that fit 64 bits. -/
structure Atan2QContract (f : Int → Int → Int) : Prop where
  range : ∀ y x, -2 ^ cfoF ≤ f y x ∧ f y x ≤ 2 ^ cfoF
  exact : ∀ y x v, atan2Axis y x = some v → f y x = v
  offAxes : ∀ y x : Int, atan2Axis y x = none →
    |(f y x : ℝ) - 2 ^ cfoF * Complex.arg ⟨(x : ℝ), (y : ℝ)⟩ / Real.pi| ≤ atanErr

/-- A function that meets the contract of R229. -/
abbrev Atan2Q := { f : Int → Int → Int // Atan2QContract f }

/-- THE FREE VALUE of this model (log 4): some ATAN2Q that meets R229, and nothing else is known of it.
It has no body. The argument only says that such a function exists (Sys2Proof/Config/Angle.lean gives
the proof). -/
opaque freeAtan2Q [exists_one : Inhabited Atan2Q] : Atan2Q

end Sys2Proof.Config
end

