-- ==== Sys2Proof/Config/Angle.lean ====
section
/-! DEFINITION. A function that meets the contract of ATAN2Q exists (44_schmidl_cox.md R229), with its
proof; and the CORE's ATAN2Q, the free function of Config, of which only the contract is known. -/

namespace Sys2Proof.Config

open Real

/-- arctan(p / q) · 2^30 / π for p / q at most 1/2, by six terms of the series and 355/113 for π. -/
def series (p q : Nat) : Int :=
  let P : Int := p
  let Q : Int := q
  let num : Int := 3465 * P * Q ^ 10 - 1155 * P ^ 3 * Q ^ 8 + 693 * P ^ 5 * Q ^ 6
    - 495 * P ^ 7 * Q ^ 4 + 385 * P ^ 9 * Q ^ 2 - 315 * P ^ 11
  (2 ^ 30 * 113 * num) / (355 * (3465 * Q ^ 11))

/-- The six terms as a real function. -/
noncomputable def seriesReal (u : ℝ) : ℝ := u - u^3/3 + u^5/5 - u^7/7 + u^9/9 - u^11/11

theorem seriesReal_le_arctan {u : ℝ} (hu : 0 ≤ u) : seriesReal u ≤ arctan u := by
  have hm : Monotone (fun u : ℝ => arctan u - seriesReal u) := by
    refine monotone_of_hasDerivAt_nonneg (f' := fun u => u^12/(1+u^2)) (fun x => ?_) (fun x => by positivity)
    have h1 := hasDerivAt_arctan x
    have h2 : HasDerivAt seriesReal (1 - 3*x^2/3 + 5*x^4/5 - 7*x^6/7 + 9*x^8/9 - 11*x^10/11) x := by
      unfold seriesReal
      have := fun n : ℕ => hasDerivAt_pow n x
      refine HasDerivAt.congr_deriv ((((((hasDerivAt_id' x).sub ((this 3).div_const 3)).add ((this 5).div_const 5)).sub ((this 7).div_const 7)).add ((this 9).div_const 9)).sub ((this 11).div_const 11)) ?_
      norm_num
    refine (h1.sub h2).congr_deriv ?_
    field_simp
    ring
  have := hm hu
  simp [seriesReal] at this ⊢
  linarith

theorem arctan_le_seriesReal {u : ℝ} (hu : 0 ≤ u) : arctan u ≤ seriesReal u + u^13/13 := by
  have hm : Monotone (fun u : ℝ => seriesReal u + u^13/13 - arctan u) := by
    refine monotone_of_hasDerivAt_nonneg (f' := fun u => u^14/(1+u^2)) (fun x => ?_) (fun x => by positivity)
    have h1 := hasDerivAt_arctan x
    have h2 : HasDerivAt (fun u => seriesReal u + u^13/13) (1 - 3*x^2/3 + 5*x^4/5 - 7*x^6/7 + 9*x^8/9 - 11*x^10/11 + 13*x^12/13) x := by
      unfold seriesReal
      have := fun n : ℕ => hasDerivAt_pow n x
      refine HasDerivAt.congr_deriv (((((((hasDerivAt_id' x).sub ((this 3).div_const 3)).add ((this 5).div_const 5)).sub ((this 7).div_const 7)).add ((this 9).div_const 9)).sub ((this 11).div_const 11)).add ((this 13).div_const 13)) ?_
      norm_num
    refine (h2.sub h1).congr_deriv ?_
    field_simp
    ring
  have := hm hu
  simp [seriesReal] at this ⊢
  linarith

theorem arctan_le_id {u : ℝ} (hu : 0 ≤ u) : arctan u ≤ u := by
  have hm : Monotone (fun u : ℝ => u - arctan u) := by
    refine monotone_of_hasDerivAt_nonneg (f' := fun u => u^2/(1+u^2)) (fun x => ?_) (fun x => by positivity)
    refine ((hasDerivAt_id' x).sub (hasDerivAt_arctan x)).congr_deriv ?_
    field_simp
    ring
  have := hm hu
  simp at this
  linarith

theorem series_err {p q : Nat} (hq : 0 < q) (h : (p:ℝ)/q ≤ 1/2) :
    |(series p q : ℝ) - 2^30 * arctan ((p:ℝ)/q) / π| ≤ 8000 := by
  have hq' : (0:ℝ) < q := by exact_mod_cast hq
  set u : ℝ := (p:ℝ)/q with hu
  have hu0 : 0 ≤ u := by positivity
  have h1 := seriesReal_le_arctan hu0
  have h2 := arctan_le_seriesReal hu0
  have h3 : u^13 ≤ (1/2)^13 := pow_le_pow_left₀ hu0 h 13
  have hq11 : (0:ℝ) < 355 * (3465 * (q:ℝ)^11) := by positivity
  have hT : seriesReal u ≤ 1 := by
    have : arctan u ≤ u := by
      have := arctan_le_id hu0; exact this
    linarith
  have hT0 : 0 ≤ seriesReal u + u^13/13 := le_trans (Real.arctan_nonneg.mpr hu0) h2
  -- floor division
  have hfl : |(series p q : ℝ) - 2^30*113/355 * seriesReal u| ≤ 1 := by
    have key : 2^30*113/355 * seriesReal u = ((2 ^ 30 * 113 * (3465 * (p:ℤ) * q ^ 10 - 1155 * p ^ 3 * q ^ 8 + 693 * p ^ 5 * q ^ 6
    - 495 * p ^ 7 * q ^ 4 + 385 * p ^ 9 * q ^ 2 - 315 * p ^ 11) : ℤ) : ℝ) / ((355 * (3465 * (q:ℤ) ^ 11) : ℤ) : ℝ) := by
      simp only [seriesReal, hu]
      push_cast
      field_simp
      ring
    rw [key]
    simp only [series]
    set A : ℤ := 2 ^ 30 * 113 * (3465 * (p:ℤ) * q ^ 10 - 1155 * p ^ 3 * q ^ 8 + 693 * p ^ 5 * q ^ 6
    - 495 * p ^ 7 * q ^ 4 + 385 * p ^ 9 * q ^ 2 - 315 * p ^ 11)
    set B : ℤ := 355 * (3465 * (q:ℤ) ^ 11) with hB
    have hBpos : 0 < B := by positivity
    have e1 : B * (A / B) + A % B = A := Int.mul_ediv_add_emod A B
    have e2 := Int.emod_nonneg A hBpos.ne'
    have e3 := Int.emod_lt_of_pos A hBpos
    have hBr : (0:ℝ) < B := by exact_mod_cast hBpos
    have e1' : (A:ℝ) / B = (A / B : ℤ) + (A % B : ℤ) / (B:ℝ) := by
      field_simp
      have : ((B * (A / B) + A % B : ℤ) : ℝ) = (A : ℤ) := by rw [e1]
      push_cast at this
      linarith
    rw [e1', abs_sub_comm, add_sub_cancel_left, abs_of_nonneg (by positivity)]
    rw [div_le_one hBr]
    exact_mod_cast e3.le
  have hpi1 := Real.pi_gt_d6
  have hpi2 := Real.pi_lt_d6
  have hpi : 0 < π := Real.pi_pos
  rw [abs_le] at hfl ⊢
  have hat0 := Real.arctan_nonneg.mpr hu0
  have hat1 : arctan u ≤ 1 := by linarith [arctan_le_id hu0]
  set a := arctan u
  have hb : |2^30*113/355 * a - 2^30 * a / π| ≤ 300 := by
    have : 2^30*113/355 * a - 2^30 * a / π = 2^30 * a * (113*π - 355) / (355*π) := by field_simp
    rw [this, abs_div, abs_of_pos (show (0:ℝ) < 355*π by positivity), div_le_iff₀ (by positivity), abs_mul,
      abs_of_nonneg (by positivity)]
    have h5 : |113*π - 355| ≤ 0.0002 := by rw [abs_le]; constructor <;> linarith
    nlinarith [abs_nonneg (113*π - 355)]
  rw [abs_le] at hb
  constructor <;> nlinarith

/-- The same for p at most q: the second half of the octant is reflected. -/
def octant (p q : Nat) : Int :=
  if p * p + 2 * p * q ≤ q * q then series p q else 2 ^ 28 - series (q - p) (q + p)

/-- The same for all positive p, q, clamped to a quarter turn. -/
def quadrant (p q : Nat) : Int :=
  max 0 (min (2 ^ 29) (if p ≤ q then octant p q else 2 ^ 29 - octant q p))

theorem octant_err {p q : Nat} (hq : 0 < q) (hpq : p ≤ q) :
    |(octant p q : ℝ) - 2^30 * arctan ((p:ℝ)/q) / π| ≤ 8000 := by
  have hq' : (0:ℝ) < q := by exact_mod_cast hq
  have hpq' : (p:ℝ) ≤ q := by exact_mod_cast hpq
  have hp' : (0:ℝ) ≤ p := by positivity
  unfold octant
  split
  · rename_i h
    apply series_err hq
    have h' : (p:ℝ) * p + 2 * p * q ≤ q * q := by exact_mod_cast h
    rw [div_le_iff₀ hq']
    nlinarith
  · rename_i h
    have h' : (q:ℝ) * q < p * p + 2 * p * q := by
      have : q * q < p * p + 2 * p * q := by omega
      exact_mod_cast this
    have hs := series_err (p := q - p) (q := q + p) (by omega) (by
      push_cast [Nat.cast_sub hpq]
      rw [div_le_iff₀ (by positivity)]
      nlinarith)
    push_cast [Nat.cast_sub hpq] at hs ⊢
    have hadd : arctan (((q:ℝ) - p)/(q + p)) = π/4 - arctan ((p:ℝ)/q) := by
      have h1 : ((p:ℝ)/q) * (((q:ℝ) - p)/(q + p)) < 1 := by
        rw [div_mul_div_comm, div_lt_one (by positivity)]
        nlinarith
      have h2 := arctan_add h1
      have h3 : ((p:ℝ)/q + ((q:ℝ) - p)/(q + p)) / (1 - ((p:ℝ)/q) * (((q:ℝ) - p)/(q + p))) = 1 := by
        have hne : (1 - ((p:ℝ)/q) * (((q:ℝ) - p)/(q + p))) ≠ 0 := by linarith
        rw [div_eq_one_iff_eq hne]
        have : (q:ℝ) + p ≠ 0 := by positivity
        field_simp
        ring
      rw [h3, arctan_one] at h2
      linarith
    rw [hadd] at hs
    have hpi : π ≠ 0 := Real.pi_ne_zero
    have e : 2^30 * (π/4 - arctan ((p:ℝ)/q)) / π = 2^28 - 2^30 * arctan ((p:ℝ)/q) / π := by
      field_simp; ring
    rw [e] at hs
    rw [abs_sub_comm] at hs
    convert hs using 2
    ring

theorem quadrant_err {p q : Nat} (hp : 0 < p) (hq : 0 < q) :
    |(quadrant p q : ℝ) - 2^30 * arctan ((p:ℝ)/q) / π| ≤ 8000 := by
  have hq' : (0:ℝ) < q := by exact_mod_cast hq
  have hp' : (0:ℝ) < p := by exact_mod_cast hp
  have hpi : (0:ℝ) < π := Real.pi_pos
  set t : ℝ := 2^30 * arctan ((p:ℝ)/q) / π with ht
  have ht0 : 0 ≤ t := by
    have := Real.arctan_nonneg.mpr (show (0:ℝ) ≤ (p:ℝ)/q by positivity)
    positivity
  have ht1 : t ≤ 2^29 := by
    have := Real.arctan_lt_pi_div_two ((p:ℝ)/q)
    rw [ht, div_le_iff₀ hpi]
    nlinarith
  have main : |((if p ≤ q then octant p q else 2 ^ 29 - octant q p : ℤ) : ℝ) - t| ≤ 8000 := by
    split
    · rename_i h; exact octant_err hq h
    · rename_i h
      have ho := octant_err hp (show q ≤ p by omega)
      have e : arctan ((q:ℝ)/p) = π/2 - arctan ((p:ℝ)/q) := by
        have := Real.arctan_inv_of_pos (show (0:ℝ) < (p:ℝ)/q by positivity)
        rwa [inv_div] at this
      rw [e] at ho
      have e2 : 2^30 * (π/2 - arctan ((p:ℝ)/q)) / π = 2^29 - t := by
        rw [ht]; field_simp
      rw [e2, abs_sub_comm] at ho
      push_cast
      convert ho using 2
      ring
  unfold quadrant
  generalize (if p ≤ q then octant p q else 2 ^ 29 - octant q p : ℤ) = v at main
  have ec : ((max 0 (min (2 ^ 29) v) : ℤ) : ℝ) = max 0 (min (2 ^ 29) (v : ℝ)) := by push_cast; norm_num
  rw [ec]
  rw [abs_le] at main ⊢
  constructor
  · have : t - 8000 ≤ min (2^29) (v:ℝ) := le_min (by linarith) (by linarith)
    linarith [le_max_right (0:ℝ) (min (2^29) (v:ℝ))]
  · have : max (0:ℝ) (min (2^29) (v:ℝ)) ≤ t + 8000 :=
      max_le (by linarith) ((min_le_right _ _).trans (by linarith))
    linarith

theorem quadrant_range (p q : Nat) : 0 ≤ quadrant p q ∧ quadrant p q ≤ 2^29 := by
  unfold quadrant; constructor
  · exact le_max_left _ _
  · exact max_le (by norm_num) (min_le_left _ _)

/-- A function that meets the contract of R229; the model's ATAN2Q is NOT this one. -/
def angleWitness (y x : Int) : Int :=
  (atan2Axis y x).getD
    (let a := quadrant y.natAbs x.natAbs
     if 0 < x then (if 0 < y then a else -a) else (if 0 < y then 2 ^ 30 - a else a - 2 ^ 30))

theorem atan2Axis_eq_none_iff (y x : Int) : atan2Axis y x = none ↔ y ≠ 0 ∧ x ≠ 0 := by
  unfold atan2Axis
  by_cases hy : y = 0
  · simp [hy]
  · by_cases hx : x = 0 <;> simp [hx, hy]

theorem arg_of_pos {x y : ℝ} (hx : 0 < x) : Complex.arg ⟨x, y⟩ = arctan (y / x) := by
  have h := Complex.tan_arg ⟨x, y⟩
  have h2 : |Complex.arg ⟨x, y⟩| < π / 2 := Complex.abs_arg_lt_pi_div_two_iff.mpr (Or.inl hx)
  rw [abs_lt] at h2
  rw [← Real.arctan_tan h2.1 h2.2, h]

theorem angleWitness_contract : Atan2QContract angleWitness where
  range y x := by
    have h := quadrant_range y.natAbs x.natAbs
    unfold angleWitness atan2Axis
    simp only
    generalize quadrant y.natAbs x.natAbs = a at h
    split_ifs <;> simp only [Option.getD_some, Option.getD_none] <;> constructor <;> norm_num <;> omega
  exact y x v h := by unfold angleWitness; rw [h]; rfl
  offAxes y x h := by
    obtain ⟨hy, hx⟩ := (atan2Axis_eq_none_iff y x).mp h
    have hq := quadrant_err (p := y.natAbs) (q := x.natAbs) (by omega) (by omega)
    have hpi : (0:ℝ) < π := Real.pi_pos
    have cy : ((y.natAbs : ℕ) : ℝ) = |(y:ℝ)| := by rw [Nat.cast_natAbs, Int.cast_abs]
    have cx : ((x.natAbs : ℕ) : ℝ) = |(x:ℝ)| := by rw [Nat.cast_natAbs, Int.cast_abs]
    rw [cy, cx] at hq
    unfold angleWitness
    rw [h]
    simp only [Option.getD_none, cfoF, atanErr]
    generalize quadrant y.natAbs x.natAbs = a at hq
    refine le_trans ?_ (show (8000:ℝ) ≤ ((16384 : ℕ) : ℝ) by norm_num)
    rcases lt_or_gt_of_ne hx with hx | hx <;> rcases lt_or_gt_of_ne hy with hy | hy
    · -- x < 0, y < 0
      have hxr : (x:ℝ) < 0 := by exact_mod_cast hx
      have hyr : (y:ℝ) < 0 := by exact_mod_cast hy
      rw [if_neg (by omega), if_neg (by omega)]
      have e : Complex.arg ⟨(x:ℝ), (y:ℝ)⟩ = arctan ((-y:ℝ)/(-x)) - π := by
        have := Complex.arg_neg_eq_arg_sub_pi_of_im_pos (x := ⟨-(x:ℝ), -(y:ℝ)⟩) (by simpa using hyr)
        have h3 : -(⟨-(x:ℝ), -(y:ℝ)⟩ : ℂ) = ⟨(x:ℝ), (y:ℝ)⟩ := by apply Complex.ext <;> simp
        rw [h3] at this
        rw [this, arg_of_pos (by linarith)]
      rw [abs_of_neg hyr, abs_of_neg hxr] at hq
      rw [e]
      refine (congrArg abs ?_).trans_le hq
      push_cast; field_simp; ring
    · have hxr : (x:ℝ) < 0 := by exact_mod_cast hx
      have hyr : (0:ℝ) < (y:ℝ) := by exact_mod_cast hy
      rw [if_neg (by omega), if_pos hy]
      have e : Complex.arg ⟨(x:ℝ), (y:ℝ)⟩ = π - arctan ((y:ℝ)/(-x)) := by
        have := Complex.arg_neg_eq_arg_add_pi_of_im_neg (x := ⟨-(x:ℝ), -(y:ℝ)⟩) (by simpa using hyr)
        have h3 : -(⟨-(x:ℝ), -(y:ℝ)⟩ : ℂ) = ⟨(x:ℝ), (y:ℝ)⟩ := by apply Complex.ext <;> simp
        rw [h3] at this
        rw [this, arg_of_pos (by linarith), neg_div, arctan_neg]; ring
      rw [abs_of_pos hyr, abs_of_neg hxr, abs_sub_comm] at hq
      rw [e]
      refine (congrArg abs ?_).trans_le hq
      push_cast; field_simp; ring
    · have hxr : (0:ℝ) < (x:ℝ) := by exact_mod_cast hx
      have hyr : (y:ℝ) < 0 := by exact_mod_cast hy
      rw [if_pos hx, if_neg (by omega), arg_of_pos hxr]
      rw [abs_of_neg hyr, abs_of_pos hxr, abs_sub_comm, neg_div, arctan_neg] at hq
      refine (congrArg abs ?_).trans_le hq
      push_cast; ring
    · have hxr : (0:ℝ) < (x:ℝ) := by exact_mod_cast hx
      have hyr : (0:ℝ) < (y:ℝ) := by exact_mod_cast hy
      rw [if_pos hx, if_pos hy, arg_of_pos hxr]
      rw [abs_of_pos hyr, abs_of_pos hxr] at hq
      exact hq

/-- The CORE's ATAN2Q off the axes: free but for the contract of R229 (log 4). -/
def atan2QFn : Atan2Q := @freeAtan2Q ⟨⟨angleWitness, angleWitness_contract⟩⟩

/-- What is known of the free function: the contract of R229, whole. -/
theorem atan2QFn_contract : Atan2QContract atan2QFn.1 := atan2QFn.2

end Sys2Proof.Config
end

