-- ==== Sys2Proof/Word.lean ====
section
/-! DEFINITION. The word types of the HnezOFDM CORE and their plainest views. Each width is the constant of
Config (`delta%` writes that constant's numeral into the type). -/

namespace Sys2Proof

/-- A transaction word or an output word: 96 bits (spec 30_encoding.md R80, R88; WORD_W of R12). -/
abbrev Word := BitVec (delta% Config.wordW)

/-- OPC or SRC: 8 bits (R80, R88). -/
abbrev Opcode := BitVec (delta% Config.opcW)

/-- The TAGLEN field, a packet length: 32 bits (R29, R34, R80). -/
abbrev TagLen := BitVec (delta% Config.tagLenW)

/-- A configuration or status register, and its value: 32 bits (R23, R82). -/
abbrev Word32 := BitVec (delta% Config.regW)

/-- The DATA field of a word: 48 bits (R80). -/
abbrev Data := BitVec (delta% Config.dataW)

/-- A register address: 8 bits (R23). -/
abbrev Addr := BitVec (delta% Config.addrW)

/-- A pair of registers as one value: 64 bits (R26). -/
abbrev Pair := BitVec (delta% Config.pairW)

/-- A unit number, as UNIT holds it: 4 bits (R23, R83). -/
abbrev UnitNum := BitVec (delta% Config.unitW)

/-- One component of a complex sample: 24 bits, two's complement (SAMPLE_W of R12, R16). -/
abbrev Comp := BitVec (delta% Config.sampleW)

/-- An item of the interleaver, in a field of the widest ILV_W allows: 8 bits (R86, R114). -/
abbrev IlvItem := BitVec (delta% Config.ilvWMax)

/-- A bit group of a repacker, in a field of the widest G_IN allows: 8 bits (R86, R114). -/
abbrev Group := BitVec (delta% Config.groupMax)

/-- A packet-length tag or a position tag beside an item: `none` is TAG = 0 (with TAGLEN = 0),
`some l` is TAG = 1 with TAGLEN = l (R14, R89). -/
abbrev Tag := Option TagLen

/-- A complex sample or symbol: the pair (re, im), each standing for its signed value divided by
2^22 (R16). -/
structure Sample where
  re : Comp
  im : Comp
deriving DecidableEq, Repr

end Sys2Proof
end

