-- ==== Sys2Proof/Syntax.lean ====
section
/-! DEFINITION. The 22 operations of the CORE with their operands (30_encoding.md R85, R86), and their
names as the rows of the opcode table. -/

namespace Sys2Proof

/-- One operation with its operands, as decoding gives it (R90: nothing is scaled or extended). Item
widths are the static widths of R86; a sample is its two components (R87). -/
inductive Instr where
  /-- CFG_WR addr, value (R110). -/
  | cfgWr (addr : Addr) (value : Word32)
  /-- CFG_RD addr (R111). -/
  | cfgRd (addr : Addr)
  /-- COMMIT unit (R112). -/
  | commit (target : UnitNum)
  /-- RESET (R119). -/
  | reset
  /-- HAM_ENC d [, tag] (R133). -/
  | hamEnc (d : BitVec 4) (tag : Tag)
  /-- HAM_DEC c [, tag] (R134). -/
  | hamDec (c : BitVec 7) (tag : Tag)
  /-- ILV_FWD x [, tag] (R155). -/
  | ilvFwd (x : IlvItem) (tag : Tag)
  /-- ILV_INV x [, tag] (R156). -/
  | ilvInv (x : IlvItem) (tag : Tag)
  /-- ILV_FLUSH_FWD (R157). -/
  | ilvFlushFwd
  /-- ILV_FLUSH_INV (R158). -/
  | ilvFlushInv
  /-- QAM_MAP v [, tag] (R182). -/
  | qamMap (v : BitVec 2) (tag : Tag)
  /-- QAM_DEMAP (re, im) [, tag] (R183). -/
  | qamDemap (re im : Comp) (tag : Tag)
  /-- SCG_PUSH (re, im) (R215). -/
  | scgPush (re im : Comp)
  /-- SCG_FLUSH (R232). -/
  | scgFlush
  /-- RPK0_PUSH g [, tag] (R253). -/
  | rpk0Push (g : Group) (tag : Tag)
  /-- RPK0_FLUSH (R254). -/
  | rpk0Flush
  /-- RPK1_PUSH g [, tag] (R253). -/
  | rpk1Push (g : Group) (tag : Tag)
  /-- RPK1_FLUSH (R254). -/
  | rpk1Flush
  /-- RPK2_PUSH g [, tag] (R253). -/
  | rpk2Push (g : Group) (tag : Tag)
  /-- RPK2_FLUSH (R254). -/
  | rpk2Flush
  /-- RPK3_PUSH g [, tag] (R253). -/
  | rpk3Push (g : Group) (tag : Tag)
  /-- RPK3_FLUSH (R254). -/
  | rpk3Flush
deriving DecidableEq, Repr

/-- The rows of the table of R85. -/
inductive Op where
  | cfgWr | cfgRd | commit | reset
  | hamEnc | hamDec
  | ilvFwd | ilvInv | ilvFlushFwd | ilvFlushInv
  | qamMap | qamDemap
  | scgPush | scgFlush
  | rpk0Push | rpk0Flush | rpk1Push | rpk1Flush | rpk2Push | rpk2Flush | rpk3Push | rpk3Flush
deriving DecidableEq, Repr

/-- All rows, in the table's order. -/
def Op.all : List Op :=
  [.cfgWr, .cfgRd, .commit, .reset, .hamEnc, .hamDec, .ilvFwd, .ilvInv, .ilvFlushFwd, .ilvFlushInv,
   .qamMap, .qamDemap, .scgPush, .scgFlush,
   .rpk0Push, .rpk0Flush, .rpk1Push, .rpk1Flush, .rpk2Push, .rpk2Flush, .rpk3Push, .rpk3Flush]

/-- The row an operation belongs to. -/
def Instr.op : Instr → Op
  | .cfgWr _ _ => .cfgWr
  | .cfgRd _ => .cfgRd
  | .commit _ => .commit
  | .reset => .reset
  | .hamEnc _ _ => .hamEnc
  | .hamDec _ _ => .hamDec
  | .ilvFwd _ _ => .ilvFwd
  | .ilvInv _ _ => .ilvInv
  | .ilvFlushFwd => .ilvFlushFwd
  | .ilvFlushInv => .ilvFlushInv
  | .qamMap _ _ => .qamMap
  | .qamDemap _ _ _ => .qamDemap
  | .scgPush _ _ => .scgPush
  | .scgFlush => .scgFlush
  | .rpk0Push _ _ => .rpk0Push
  | .rpk0Flush => .rpk0Flush
  | .rpk1Push _ _ => .rpk1Push
  | .rpk1Flush => .rpk1Flush
  | .rpk2Push _ _ => .rpk2Push
  | .rpk2Flush => .rpk2Flush
  | .rpk3Push _ _ => .rpk3Push
  | .rpk3Flush => .rpk3Flush

/-- The tag an operation carries: `none` where it carries none or takes none (R85). -/
def Instr.tag : Instr → Tag
  | .hamEnc _ t => t
  | .hamDec _ t => t
  | .ilvFwd _ t => t
  | .ilvInv _ t => t
  | .qamMap _ t => t
  | .qamDemap _ _ t => t
  | .rpk0Push _ t => t
  | .rpk1Push _ t => t
  | .rpk2Push _ t => t
  | .rpk3Push _ t => t
  | .cfgWr _ _ => none
  | .cfgRd _ => none
  | .commit _ => none
  | .reset => none
  | .ilvFlushFwd => none
  | .ilvFlushInv => none
  | .scgPush _ _ => none
  | .scgFlush => none
  | .rpk0Flush => none
  | .rpk1Flush => none
  | .rpk2Flush => none
  | .rpk3Flush => none

end Sys2Proof
end

