-- ==== Sys2Proof/WellFormed.lean ====
section
/-! DEFINITION. Which operations a transaction word can stand for (30_encoding.md R95). The types of
Syntax hold every operand in its field; one check is left, the tag of step 3. -/

namespace Sys2Proof

/-- R95 step 3: "TAG = 1 implies TAGLEN >= 1". -/
abbrev Tag.WellFormed (t : Tag) : Prop := t ≠ some 0

/-- A well-formed operation: its tag, if it has one, has a length of at least 1. -/
abbrev Instr.WellFormed (i : Instr) : Prop := Tag.WellFormed i.tag

end Sys2Proof
end

