-- ==== Sys2Proof/Decode.lean ====
section
/-! DEFINITION. Decoding a transaction word (30_encoding.md R80 to R99), total on all 2^96 words, and
after it the encoder. Both take every field's place from Config. -/

namespace Sys2Proof

/-- Why a word is invalid: the step of R95 that fails first. -/
inductive DecodeError where
  /-- Step 1: OPC is not one of the 22 values of R85. -/
  | badOpcode
  /-- Step 2: bits [86:80] are not zero. -/
  | reservedBits
  /-- Step 3: the tag fields are malformed, or present where no tag is taken. -/
  | badTag
  /-- Step 4: DATA does not obey the operation's format or static width. -/
  | badData
deriving DecidableEq, Repr

/-! ### The fields of a word (R80) -/

/-- `x` in an otherwise zero value, its lowest bit at `lo`. -/
def place {w n : Nat} (lo : Nat) (x : BitVec w) : BitVec n := x.setWidth n <<< lo

/-- OPC, bits [95:88]. -/
def opcOf (w : Word) : Opcode := w.extractLsb' Config.opcLo _

/-- TAG, bit [87]. -/
def tagBitOf (w : Word) : Bool := w.getLsbD Config.tagPos

/-- ZERO, bits [86:80]. -/
def zeroOf (w : Word) : BitVec Config.zeroW := w.extractLsb' Config.zeroLo _

/-- TAGLEN, bits [79:48]. -/
def tagLenOf (w : Word) : TagLen := w.extractLsb' Config.tagLenLo _

/-- DATA, bits [47:0]. -/
def dataOf (w : Word) : Data := w.extractLsb' Config.dataLo _

/-- A word from its fields, ZERO being zero (R80; R88 uses the same packing for output items). -/
def packWord (opc : Opcode) (tagBit : Bool) (tagLen : TagLen) (data : Data) : Word :=
  place Config.opcLo opc ||| place Config.tagPos (BitVec.ofBool tagBit)
    ||| place Config.tagLenLo tagLen ||| place Config.dataLo data

/-- TAGLEN beside a tag: its length, 0 where there is none (R14, R95 step 3). -/
def Tag.len (t : Tag) : TagLen := t.getD 0

/-- A word from its fields, the two tag fields given as a tag. -/
def packTagged (opc : Opcode) (tag : Tag) (data : Data) : Word := packWord opc tag.isSome tag.len data

/-! ### The fields of DATA (R81 to R83, R87, R223) -/

/-- ITEM, format D: `w` bits (R81, R86). -/
def itemOf {w : Nat} (d : Data) : BitVec w := d.extractLsb' Config.itemLo w

/-- An item as DATA, zeros above (zext_48 of R13; R86). -/
def itemData {w : Nat} (x : BitVec w) : Data := place Config.itemLo x

/-- The real component of a sample (R87). -/
def reOf (d : Data) : Comp := d.extractLsb' Config.reLo _

/-- The imaginary component of a sample (R87). -/
def imOf (d : Data) : Comp := d.extractLsb' Config.imLo _

/-- A complex sample as DATA (R87). -/
def packSample (re im : Comp) : Data := place Config.reLo re ||| place Config.imLo im

/-- ADDR, format C (R82). -/
def addrOf (d : Data) : Addr := d.extractLsb' Config.addrLo _

/-- VALUE, format C (R82). -/
def valueOf (d : Data) : Word32 := d.extractLsb' Config.valueLo _

/-- A register's address with a value, format C and output stream 0x02 (R82, R88). -/
def regData (addr : Addr) (value : Word32) : Data :=
  place Config.addrLo addr ||| place Config.valueLo value

/-- CFO_Q as DATA of a metadata item: its two's complement pattern, zeros elsewhere (R88, R223). -/
def cfoData (cfo : Int) : Data := place Config.cfoLo (BitVec.ofInt Config.cfoW cfo)

/-- UNIT, format S (R83). -/
def unitOf (d : Data) : UnitNum := d.extractLsb' Config.unitLo _

/-- A unit number as DATA, format S (R83). -/
def unitData (u : UnitNum) : Data := place Config.unitLo u

/-! ### The table of rows -/

/-- An opcode: the unit number above the function number (R84). -/
def opcode (unit fn : Nat) : Opcode := BitVec.ofNat _ (unit * 2 ^ Config.fnW + fn)

/-- OPC of each row (R84, R85). -/
def Op.code : Op → Opcode
  | .cfgWr => opcode Config.unitSys 1
  | .cfgRd => opcode Config.unitSys 2
  | .commit => opcode Config.unitSys 3
  | .reset => opcode Config.unitSys 4
  | .hamEnc => opcode Config.unitHam Config.fnFwd
  | .hamDec => opcode Config.unitHam Config.fnInv
  | .ilvFwd => opcode Config.unitIlv Config.fnFwd
  | .ilvInv => opcode Config.unitIlv Config.fnInv
  | .ilvFlushFwd => opcode Config.unitIlv Config.fnFlushFwd
  | .ilvFlushInv => opcode Config.unitIlv Config.fnFlushInv
  | .qamMap => opcode Config.unitQam Config.fnFwd
  | .qamDemap => opcode Config.unitQam Config.fnInv
  | .scgPush => opcode Config.unitScg Config.fnFwd
  | .scgFlush => opcode Config.unitScg Config.fnFlushFwd
  | .rpk0Push => opcode (Config.unitRpk + 0) Config.fnFwd
  | .rpk0Flush => opcode (Config.unitRpk + 0) Config.fnFlushFwd
  | .rpk1Push => opcode (Config.unitRpk + 1) Config.fnFwd
  | .rpk1Flush => opcode (Config.unitRpk + 1) Config.fnFlushFwd
  | .rpk2Push => opcode (Config.unitRpk + 2) Config.fnFwd
  | .rpk2Flush => opcode (Config.unitRpk + 2) Config.fnFlushFwd
  | .rpk3Push => opcode (Config.unitRpk + 3) Config.fnFwd
  | .rpk3Flush => opcode (Config.unitRpk + 3) Config.fnFlushFwd

/-- The row an OPC value names; `none` for the 234 reserved values (R98). -/
def Op.ofCode (c : Opcode) : Option Op := Op.all.find? (fun o => o.code == c)

/-- Operand assembly: the operation of a row with its tag and its DATA (R82, R83, R86, R87, R90). Each
operand is as wide as its type in Syntax. -/
def Op.build (tag : Tag) (data : Data) : Op → Instr
  | .cfgWr => .cfgWr (addrOf data) (valueOf data)
  | .cfgRd => .cfgRd (addrOf data)
  | .commit => .commit (unitOf data)
  | .reset => .reset
  | .hamEnc => .hamEnc (itemOf data) tag
  | .hamDec => .hamDec (itemOf data) tag
  | .ilvFwd => .ilvFwd (itemOf data) tag
  | .ilvInv => .ilvInv (itemOf data) tag
  | .ilvFlushFwd => .ilvFlushFwd
  | .ilvFlushInv => .ilvFlushInv
  | .qamMap => .qamMap (itemOf data) tag
  | .qamDemap => .qamDemap (reOf data) (imOf data) tag
  | .scgPush => .scgPush (reOf data) (imOf data)
  | .scgFlush => .scgFlush
  | .rpk0Push => .rpk0Push (itemOf data) tag
  | .rpk0Flush => .rpk0Flush
  | .rpk1Push => .rpk1Push (itemOf data) tag
  | .rpk1Flush => .rpk1Flush
  | .rpk2Push => .rpk2Push (itemOf data) tag
  | .rpk2Flush => .rpk2Flush
  | .rpk3Push => .rpk3Push (itemOf data) tag
  | .rpk3Flush => .rpk3Flush

/-- DATA of an operation (R81 to R83, R87). -/
def Instr.data : Instr → Data
  | .cfgWr addr value => regData addr value
  | .cfgRd addr => regData addr 0
  | .commit u => unitData u
  | .reset => 0
  | .hamEnc d _ => itemData d
  | .hamDec c _ => itemData c
  | .ilvFwd x _ => itemData x
  | .ilvInv x _ => itemData x
  | .ilvFlushFwd => 0
  | .ilvFlushInv => 0
  | .qamMap v _ => itemData v
  | .qamDemap re im _ => packSample re im
  | .scgPush re im => packSample re im
  | .scgFlush => 0
  | .rpk0Push g _ => itemData g
  | .rpk0Flush => 0
  | .rpk1Push g _ => itemData g
  | .rpk1Flush => 0
  | .rpk2Push g _ => itemData g
  | .rpk2Flush => 0
  | .rpk3Push g _ => itemData g
  | .rpk3Flush => 0

/-- Column "Takes TAG" of R85: the row's operation carries a tag it is given. -/
def Op.takesTag (o : Op) : Bool := (o.build (some 0) 0).tag.isSome

/-- The DATA bits a row may use: those the row's operation keeps of all-ones DATA. The others must be zero
(R95 step 4; R82, R83, widths of R86). -/
def Op.dataMask (o : Op) : Data := (o.build none (BitVec.allOnes _)).data

/-! ### Decoding -/

/-- R95 step 3. Where a tag is taken: TAG = 0 implies TAGLEN = 0, TAG = 1 implies TAGLEN at least 1.
Where none is taken: TAG = 0 and TAGLEN = 0. -/
def tagFieldsOk (takesTag tagBit : Bool) (tagLen : TagLen) : Bool :=
  if tagBit then takesTag && decide (Tag.WellFormed (some tagLen)) else tagLen == Tag.len none

/-- The tag the two tag fields stand for (R14). -/
def tagOf (w : Word) : Tag := if tagBitOf w then some (tagLenOf w) else none

/-- R95: the steps in order, the first that fails making the word invalid. -/
def decode (w : Word) : Except DecodeError Instr :=
  match Op.ofCode (opcOf w) with
  | none => .error .badOpcode
  | some op =>
    if zeroOf w ≠ 0 then .error .reservedBits
    else if tagFieldsOk op.takesTag (tagBitOf w) (tagLenOf w) = false then .error .badTag
    else if dataOf w &&& ~~~op.dataMask ≠ 0 then .error .badData
    else .ok (op.build (tagOf w) (dataOf w))

/-- The word the host's opcode table writes as the number `w` of `nbits` bits: bit 0 is the least
significant bit of the one 96-bit word, and the bits above `nbits` are 0 (R63, R80; log 13). -/
def tableWord (nbits w : Nat) : Word := BitVec.ofNat _ (w % 2 ^ nbits)

/-- The operation the decoder reads from a word of the opcode table. -/
def decodeTableWord (nbits w : Nat) : Option Instr :=
  match decode (tableWord nbits w) with
  | .ok i => some i
  | .error _ => none

/-! ### Encoding -/

/-- The word of a well-formed operation (R80 to R87). -/
def encode (i : Instr) : Word := packTagged i.op.code i.tag i.data

end Sys2Proof
end

