-- ==== Sys2Proof/Machine/State.lean ====
section
/-! DEFINITION. The state of the CORE as plain data (10_state.md), its value after reset
(70_reset_and_hazards.md R301), and the ways a step can stop. -/

namespace Sys2Proof.Machine

/-- A step of this CORE never faults: "None of the four conditions is a fault in the sense of a run that
ends" (R290). The type has no constructor, so no step can answer one (log 14). -/
inductive Fault where
deriving DecidableEq, Repr

/-- Why the model itself has no meaning for an operation. -/
inductive Refusal where
  /-- Answered only by an arm of `exec` that has no meaning yet; safe. No arm of this model answers it. -/
  | notModelled (mnemonic : String)
deriving DecidableEq, Repr

/-! ### Life cycle (R24, R25) -/

/-- MODE of a unit: "the value 3 is never taken" (R24; log 11). -/
inductive Mode where
  | unconfigured | running | failed
deriving DecidableEq, Repr

/-- CFGERR of a unit: codes 0 to 5; 6 to 15 are never recorded (R25, R271; log 11). -/
inductive CfgErr where
  | noError | zeroSize | range | ilvShape | fftOdd | threshOrder
deriving DecidableEq, Repr

/-- The life-cycle state every unit has. -/
structure Life where
  mode : Mode
  err : CfgErr
deriving DecidableEq, Repr

/-- UNCONFIGURED with CFGERR 0 (R301). -/
def Life.reset : Life := { mode := .unconfigured, err := .noError }

/-- The repacker instances, numbered from 0 (NUM_RPK of R12, R23). -/
abbrev RpkId := Fin (delta% Config.numRpk)

/-- RPK0. -/
abbrev RpkId.k0 : RpkId := ⟨0, by decide⟩

/-- RPK1. -/
abbrev RpkId.k1 : RpkId := ⟨1, by decide⟩

/-- RPK2. -/
abbrev RpkId.k2 : RpkId := ⟨2, by decide⟩

/-- RPK3. -/
abbrev RpkId.k3 : RpkId := ⟨3, by decide⟩

/-- The units 1 to 8 (R23). -/
inductive UnitId where
  | ham | ilv | qam | scg | rpk (k : RpkId)
deriving DecidableEq, Repr

/-- The two directions of ILV (R10, R29). -/
inductive Dir where
  | fwd | inv
deriving DecidableEq, Repr

/-- What an unacceptable transaction raises (R275). -/
inductive Condition where
  | illegal
  | notrun
  | cfglock
  | cfgerr (u : UnitId) (code : CfgErr)
deriving DecidableEq, Repr

/-- The 36 mapped registers (R26). -/
inductive Reg where
  | sysStatus | sysModes
  | hamStatus
  | ilvStatus | ilvN | ilvCols | ilvW
  | qamStatus
  | scgStatus | fftLen | cpLen | tLow | tHigh | scNsym | scMaxRun
  | scFrames | scStart | scCfo | scPReLo | scPReHi | scPImLo | scPImHi | scRLo | scRHi
  | rpkStatus (k : RpkId) | rpkGIn (k : RpkId) | rpkGOut (k : RpkId)
deriving DecidableEq, Repr

/-! ### Output items (R88) -/

/-- The output streams (R88). -/
inductive Stream where
  | regData | codewords | nibbles | interleaved | deinterleaved | symbols | groups
  | gated | metadata | repacked (k : RpkId)
deriving DecidableEq, Repr

/-- One output item: the stream SRC names, its tag, its DATA. -/
structure OutItem where
  src : Stream
  tag : Tag
  data : Data
deriving DecidableEq, Repr

/-! ### The units' own state -/

/-- SYS_STATUS's sticky bits (R22). -/
structure Flags where
  illegal : Bool
  notrun : Bool
  cfglock : Bool
deriving DecidableEq, Repr

/-- One context of ILV (R29): items of the block being filled in arrival order, items of the current
packet not yet taken, a tag not yet put on an output item. -/
structure IlvCtx where
  buf : List IlvItem
  rem : TagLen
  pend : Tag
deriving DecidableEq, Repr

/-- Empty, 0, none (R301). -/
def IlvCtx.reset : IlvCtx := { buf := [], rem := 0, pend := none }

/-- ILV: life cycle, registers ILV_N, ILV_COLS, ILV_W, and one context per direction (R26, R29). -/
structure Ilv where
  life : Life
  n : Word32
  cols : Word32
  w : Word32
  fwd : IlvCtx
  inv : IlvCtx
deriving DecidableEq, Repr

/-- A pair of unbounded integers: P of R203 (log 5). -/
structure Corr where
  re : Int
  im : Int
deriving DecidableEq, Repr

/-- The detector's three states (R31). -/
inductive Fsm where
  | searching | candidate | emitting
deriving DecidableEq, Repr

/-- SCG's writable registers (R26). -/
structure ScgCfg where
  fftLen : Word32
  cpLen : Word32
  tLow : Word32
  tHigh : Word32
  nsym : Word32
  maxRun : Word32
deriving DecidableEq, Repr

/-- SCG's result registers (R26, R32). -/
structure ScgRes where
  frames : Word32
  start : Word32
  cfo : Word32
  pRe : Pair
  pIm : Pair
  r : Pair
deriving DecidableEq, Repr

/-- SCG's run state (R31; log 5, log 6, log 15). -/
structure ScgRun where
  pos : Nat
  hist : List Sample
  fsm : Fsm
  n : Nat
  nFirst : Nat
  nBest : Nat
  bP : Corr
  bR : Nat
  start : Nat
  e : Nat
deriving DecidableEq, Repr

/-- Every result register reads 0 (R32). -/
def ScgRes.reset : ScgRes := { frames := 0, start := 0, cfo := 0, pRe := 0, pIm := 0, r := 0 }

/-- The run state's reset values (R31, R301). -/
def ScgRun.reset : ScgRun :=
  { pos := 0, hist := [], fsm := .searching, n := 0, nFirst := 0, nBest := 0,
    bP := { re := 0, im := 0 }, bR := 0, start := 0, e := 0 }

/-- SCG: life cycle, registers, results, run state. -/
structure Scg where
  life : Life
  cfg : ScgCfg
  res : ScgRes
  run : ScgRun
deriving DecidableEq, Repr

/-- One repacker: life cycle, registers, and R34's buffer (oldest bit first), packet count and tag. -/
structure Rpk where
  life : Life
  gIn : Word32
  gOut : Word32
  acc : List Bool
  rem : TagLen
  pend : Tag
deriving DecidableEq, Repr

/-- A repacker after reset (R301). -/
def Rpk.reset : Rpk := { life := .reset, gIn := 0, gOut := 0, acc := [], rem := 0, pend := none }

/-! ### The machine -/

/-- What the host can do to the CORE between two transactions (R66, R300; log 1, log 3). -/
inductive Stimulus where
  /-- Present one transaction word. -/
  | word (w : Word)
  /-- Assert the reset input. -/
  | hwReset
deriving DecidableEq, Repr

/-- The whole state (10_state.md). `input` is the model's own field: the stimuli not yet looked at, next
first (log 1). `out` is every item emitted, in order (R35, R66; log 2). -/
structure State where
  flags : Flags
  ham : Life
  ilv : Ilv
  qam : Life
  scg : Scg
  rpks : Vector Rpk (delta% Config.numRpk)
  input : List Stimulus
  out : List OutItem
deriving DecidableEq, Repr

/-- The machine right after reset (R301), with nothing presented and nothing emitted. -/
def State.reset : State :=
  { flags := { illegal := false, notrun := false, cfglock := false }
    ham := .reset
    ilv := { life := .reset, n := 0, cols := 0, w := 0, fwd := .reset, inv := .reset }
    qam := .reset
    scg := { life := .reset
             cfg := { fftLen := 0, cpLen := 0, tLow := 0, tHigh := 0, nsym := 0, maxRun := 0 }
             res := .reset
             run := .reset }
    rpks := .replicate _ .reset
    input := []
    out := [] }

end Sys2Proof.Machine
end

