-- ==== Sys2Proof/Machine/Operands.lean ====
section
/-! DEFINITION. Every operand form: register addresses, unit numbers, item widths, samples, streams
(10_state.md R23, R26; 30_encoding.md R86 to R88, R97). -/

namespace Sys2Proof.Machine

/-! ### Units and instances -/

/-- The repackers, in order. -/
def RpkId.all : List RpkId := List.finRange _

/-- The units, in the order of their numbers. -/
def UnitId.all : List UnitId := [.ham, .ilv, .qam, .scg] ++ RpkId.all.map .rpk

/-- Unit numbers (R23). -/
def UnitId.number : UnitId → UnitNum
  | .ham => BitVec.ofNat _ Config.unitHam
  | .ilv => BitVec.ofNat _ Config.unitIlv
  | .qam => BitVec.ofNat _ Config.unitQam
  | .scg => BitVec.ofNat _ Config.unitScg
  | .rpk k => BitVec.ofNat _ (Config.unitRpk + k)

/-- The unit a UNIT operand names; `none` for 0 and 9 to 15 (R112). -/
def UnitId.ofNumber (u : UnitNum) : Option UnitId := UnitId.all.find? (fun v => v.number == u)

/-! ### Register addresses (R26) -/

/-- The 36 registers, in address order. -/
def Reg.all : List Reg :=
  [.sysStatus, .sysModes, .hamStatus, .ilvStatus, .ilvN, .ilvCols, .ilvW, .qamStatus,
   .scgStatus, .fftLen, .cpLen, .tLow, .tHigh, .scNsym, .scMaxRun, .scFrames, .scStart, .scCfo,
   .scPReLo, .scPReHi, .scPImLo, .scPImHi, .scRLo, .scRHi]
  ++ RpkId.all.flatMap (fun k => [.rpkStatus k, .rpkGIn k, .rpkGOut k])

/-- A register address: the unit number above the index (R23). -/
def regAddr (unit index : Nat) : Addr :=
  BitVec.ofNat _ (unit * 2 ^ Config.indexW + index)

/-- The address of a register (R26). -/
def Reg.addr : Reg → Addr
  | .sysStatus => regAddr Config.unitSys 0
  | .sysModes => regAddr Config.unitSys 1
  | .hamStatus => regAddr Config.unitHam 0
  | .ilvStatus => regAddr Config.unitIlv 0
  | .ilvN => regAddr Config.unitIlv 1
  | .ilvCols => regAddr Config.unitIlv 2
  | .ilvW => regAddr Config.unitIlv 3
  | .qamStatus => regAddr Config.unitQam 0
  | .scgStatus => regAddr Config.unitScg 0
  | .fftLen => regAddr Config.unitScg 1
  | .cpLen => regAddr Config.unitScg 2
  | .tLow => regAddr Config.unitScg 3
  | .tHigh => regAddr Config.unitScg 4
  | .scNsym => regAddr Config.unitScg 5
  | .scMaxRun => regAddr Config.unitScg 6
  | .scFrames => regAddr Config.unitScg 7
  | .scStart => regAddr Config.unitScg 8
  | .scCfo => regAddr Config.unitScg 9
  | .scPReLo => regAddr Config.unitScg 10
  | .scPReHi => regAddr Config.unitScg 11
  | .scPImLo => regAddr Config.unitScg 12
  | .scPImHi => regAddr Config.unitScg 13
  | .scRLo => regAddr Config.unitScg 14
  | .scRHi => regAddr Config.unitScg 15
  | .rpkStatus k => regAddr (Config.unitRpk + k) 0
  | .rpkGIn k => regAddr (Config.unitRpk + k) 1
  | .rpkGOut k => regAddr (Config.unitRpk + k) 2

/-- The register at an address; `none` where the address is unmapped (R23, R61). -/
def Reg.ofAddr (a : Addr) : Option Reg := Reg.all.find? (fun r => r.addr == a)

/-! ### Items -/

/-- R97: some bit of ITEM above bit W-1 is set, where W is the configured width. -/
def tooWide {m : Nat} (x : BitVec m) (w : Word32) : Bool := x >>> w.toNat != 0

/-- `pack` of R224: the packing of R87. -/
def sampleData (r : Sample) : Data := packSample r.re r.im

/-! ### Output streams (R88) -/

/-- SRC of a stream: the opcode of the operation that produces it, function 15 for the metadata. -/
def Stream.code : Stream → Opcode
  | .regData => Op.cfgRd.code
  | .codewords => Op.hamEnc.code
  | .nibbles => Op.hamDec.code
  | .interleaved => Op.ilvFwd.code
  | .deinterleaved => Op.ilvInv.code
  | .symbols => Op.qamMap.code
  | .groups => Op.qamDemap.code
  | .gated => Op.scgPush.code
  | .metadata => opcode Config.unitScg 15
  | .repacked k => opcode (Config.unitRpk + k) Config.fnFwd

/-- An output item as the 96-bit word the host reads (R88). -/
def OutItem.word (o : OutItem) : Word := packTagged o.src.code o.tag o.data

/-- The output stream of an ILV direction (R155, R156). -/
def Dir.stream : Dir → Stream
  | .fwd => .interleaved
  | .inv => .deinterleaved

/-- `ilv_emit` of R154, and the emission of R253: the items leave in order, a pending tag on the first. -/
def tagFirst (src : Stream) (pend : Tag) : List Data → List OutItem
  | [] => []
  | v :: vs => { src := src, tag := pend, data := v } :: tagFirst src none vs

/-- The pending tag that is left after `items` have gone out: none once an item carried it (R154). -/
def pendAfter (pend : Tag) (items : List Data) : Tag := if items.isEmpty then pend else none

end Sys2Proof.Machine
end

