-- ==== Sys2Proof/Machine/Ops.lean ====
section
/-! DEFINITION. The named operations over State that the meanings share: a unit's life cycle, ILV
contexts, repackers, emission, raising a condition, the common frame, reset, and what the CORE looks at
next. -/

namespace Sys2Proof.Machine

/-! ### Parts of the state -/

/-- A repacker instance. -/
def State.rpk (s : State) (k : RpkId) : Rpk := s.rpks[k]

/-- Replace a repacker instance. -/
def State.setRpk (s : State) (k : RpkId) (r : Rpk) : State := { s with rpks := s.rpks.set k r }

/-- MODE and CFGERR of a unit (R24, R25). -/
def State.life (s : State) : UnitId → Life
  | .ham => s.ham
  | .ilv => s.ilv.life
  | .qam => s.qam
  | .scg => s.scg.life
  | .rpk k => (s.rpk k).life

/-- Replace MODE and CFGERR of a unit. -/
def State.setLife (s : State) (u : UnitId) (l : Life) : State :=
  match u with
  | .ham => { s with ham := l }
  | .ilv => { s with ilv := { s.ilv with life := l } }
  | .qam => { s with qam := l }
  | .scg => { s with scg := { s.scg with life := l } }
  | .rpk k => s.setRpk k { s.rpk k with life := l }

/-- The context of an ILV direction (R29). -/
def Ilv.ctx (v : Ilv) : Dir → IlvCtx
  | .fwd => v.fwd
  | .inv => v.inv

/-- Replace the context of an ILV direction. -/
def Ilv.setCtx (v : Ilv) (d : Dir) (c : IlvCtx) : Ilv :=
  match d with
  | .fwd => { v with fwd := c }
  | .inv => { v with inv := c }

/-! ### Emission -/

/-- `emit` of R88, for a sequence of items: they are appended to the output in order (R35, R66). -/
def State.emit (s : State) (items : List OutItem) : State := { s with out := s.out ++ items }

/-- The items of one output stream, in order: what the host reads there (R35, R67). -/
def State.stream (s : State) (src : Stream) : List OutItem := s.out.filter (fun o => o.src == src)

/-! ### Raising a condition -/

/-- `raise` (00_scope.md R15, 60_exceptions.md R271 to R275, R281): the sticky bit is set, or the unit
becomes FAILED with the code recorded; nothing else changes, nothing is emitted, control goes nowhere.
There is no return from it (R282). -/
def raise (c : Condition) (s : State) : State :=
  match c with
  | .illegal => { s with flags := { s.flags with illegal := true } }
  | .notrun => { s with flags := { s.flags with notrun := true } }
  | .cfglock => { s with flags := { s.flags with cfglock := true } }
  | .cfgerr u code => s.setLife u { mode := .failed, err := code }

/-- The common frame of every data and flush operation (R120): the mode check, then the configured
width (R97), then the body. -/
def framed (u : UnitId) (wide : Bool) (body : State → State) (s : State) : State :=
  if (s.life u).mode = .running then
    if wide then raise .illegal s else body s
  else raise .notrun s

/-! ### Reset -/

/-- Both reset events (R300, R119): every piece of state takes the value of R301. Items already emitted
stay emitted (R35); what the host has yet to present is not the CORE's state (log 3). -/
def resetCore (s : State) : State := { State.reset with input := s.input, out := s.out }

/-! ### What the CORE looks at next -/

/-- The next stimulus, and the state with it taken (R66: one at a time, in the order presented); `none`
where the host presents nothing. -/
def fetch (s : State) : Option (Stimulus × State) :=
  match s.input with
  | [] => none
  | x :: rest => some (x, { s with input := rest })

end Sys2Proof.Machine
end

