-- ==== Sys2Proof/Machine/Gate.lean ====
section
/-! DEFINITION. SCG, the Schmidl-Cox gate, 44_schmidl_cox.md: SCG_PUSH (R215 to R227) and SCG_FLUSH
(R232). All arithmetic is exact (R207); the one open function is ATAN2Q (R229). -/

namespace Sys2Proof.Machine

/-! ### The metric (R203 to R206) -/

/-- r[j], the sample of index j (R202). An index not taken yet reads (0, 0); the gate asks for none in a
state its invariant admits (log 6). -/
def sampleAt (hist : List Sample) (j : Nat) : Sample := hist.getD j { re := 0, im := 0 }

/-- conj(a) · b in unbounded integers (R16). -/
def conjMul (a b : Sample) : Corr :=
  { re := a.re.toInt * b.re.toInt + a.im.toInt * b.im.toInt
    im := a.re.toInt * b.im.toInt - a.im.toInt * b.re.toInt }

/-- |b|² (R16). -/
def sampleEnergy (b : Sample) : Nat := b.re.toInt.natAbs ^ 2 + b.im.toInt.natAbs ^ 2

/-- P[n] with half length L: the sum over k = 0 .. L-1 of conj(r[n+k]) · r[n+k+L] (R203). -/
def metricP (hist : List Sample) (L n : Nat) : Corr :=
  { re := ((List.range L).map
      (fun k => (conjMul (sampleAt hist (n + k)) (sampleAt hist (n + k + L))).re)).sum
    im := ((List.range L).map
      (fun k => (conjMul (sampleAt hist (n + k)) (sampleAt hist (n + k + L))).im)).sum }

/-- R[n]: the energy of the second half window (R203). -/
def metricR (hist : List Sample) (L n : Nat) : Nat :=
  ((List.range L).map (fun k => sampleEnergy (sampleAt hist (n + k + L)))).sum

/-- |P|² as a natural number. -/
def Corr.normSq (p : Corr) : Nat := p.re.natAbs ^ 2 + p.im.natAbs ^ 2

/-- M > T / 32768, by cross-multiplication (R205). -/
def exceeds (p : Corr) (r : Nat) (t : Word32) : Bool :=
  decide (t.toNat * r * r < p.normSq * 2 ^ Config.thF)

/-- M_a > M_b, by cross-multiplication (R206). -/
def better (pa : Corr) (ra : Nat) (pb : Corr) (rb : Nat) : Bool :=
  decide (pb.normSq * ra * ra < pa.normSq * rb * rb)

/-! ### The angle (R229) -/

/-- ATAN2Q(y, x): exact at the origin and on the axes; off the axes a free function of which only the
contract of R229 is known (log 4). -/
def atan2Q (y x : Int) : Int :=
  (Config.atan2Axis y x).getD (Config.atan2QFn.1 y x)

/-! ### Geometry (R201) -/

/-- L, the half length. -/
def ScgCfg.half (g : ScgCfg) : Nat := g.fftLen.toNat / 2

/-- A data symbol with its cyclic prefix: CP_LEN + FFT_LEN. -/
def ScgCfg.symLen (g : ScgCfg) : Nat := g.cpLen.toNat + g.fftLen.toNat

/-- FRAME_LEN = FFT_LEN + SC_NSYM · (CP_LEN + FFT_LEN). -/
def ScgCfg.frameLen (g : ScgCfg) : Nat :=
  g.fftLen.toNat + g.nsym.toNat * g.symLen

/-- P[n] of the gate. -/
def Scg.P (g : Scg) (n : Nat) : Corr := metricP g.run.hist g.cfg.half n

/-- R[n] of the gate. -/
def Scg.R (g : Scg) (n : Nat) : Nat := metricR g.run.hist g.cfg.half n

/-! ### The steps of the three states -/

/-- SEARCHING (R217). -/
def Scg.searchStep (g : Scg) (p : Corr) (r : Nat) : Scg :=
  if exceeds p r g.cfg.tLow then
    { g with run := { g.run with fsm := .candidate, nFirst := g.run.n, nBest := g.run.n, bP := p, bR := r
                                 n := g.run.n + 1 } }
  else { g with run := { g.run with n := g.run.n + 1 } }

/-- Detection: the frame starts at n_best; the result registers and one metadata item (R221 to R223). -/
def Scg.detect (g : Scg) : Scg × List OutItem :=
  let b := g.run.nBest
  let cfo := atan2Q g.run.bP.im g.run.bP.re
  ({ g with
      run := { g.run with fsm := .emitting, start := b, e := b }
      res := { frames := g.res.frames + 1
               start := BitVec.ofNat _ b
               cfo := BitVec.ofInt _ cfo
               pRe := BitVec.ofInt _ g.run.bP.re
               pIm := BitVec.ofInt _ g.run.bP.im
               r := BitVec.ofNat _ g.run.bR } },
   [{ src := .metadata, tag := some (BitVec.ofNat _ b), data := cfoData cfo }])

/-- The run ends: confirmed if its best metric exceeds t_high, else index n is searched again (R219). -/
def Scg.runEnd (g : Scg) : Scg × List OutItem :=
  if exceeds g.run.bP g.run.bR g.cfg.tHigh then g.detect
  else ({ g with run := { g.run with fsm := .searching } }, [])

/-- CANDIDATE: the run goes on while t_low is exceeded and it holds fewer than SC_MAX_RUN indices
(R218). -/
def Scg.candidateStep (g : Scg) (p : Corr) (r : Nat) : Scg × List OutItem :=
  if exceeds p r g.cfg.tLow ∧ g.run.n - g.run.nFirst < g.cfg.maxRun.toNat then
    if better p r g.run.bP g.run.bR then
      ({ g with run := { g.run with nBest := g.run.n, bP := p, bR := r, n := g.run.n + 1 } }, [])
    else ({ g with run := { g.run with n := g.run.n + 1 } }, [])
  else g.runEnd

/-- What R224 does with the frame's sample at offset `off`: `none` drops it (cyclic prefix), `some first`
passes it on, `first` marking the first sample of a block. -/
def ScgCfg.gateAt (g : ScgCfg) (off : Nat) : Option Bool :=
  let f := g.fftLen.toNat
  let cp := g.cpLen.toNat
  if off < f then some (decide (off = 0))
  else
    let q := (off - f) % g.symLen
    if cp ≤ q then some (decide (q = cp)) else none

/-- EMITTING (R224, R225, R227): the sample of index e is passed on unchanged (R231) or dropped; after
the frame's last one the gate searches again from there. -/
def Scg.emitStep (g : Scg) : Scg × List OutItem :=
  let e := g.run.e
  let items := match g.cfg.gateAt (e - g.run.start) with
    | none => []
    | some first =>
      [{ src := Stream.gated
         tag := if first then some (BitVec.ofNat _ e) else none
         data := sampleData (sampleAt g.run.hist e) }]
  let run := { g.run with e := e + 1 }
  if e + 1 = g.run.start + g.cfg.frameLen then
    ({ g with run := { run with fsm := .searching, n := e + 1 } }, items)
  else ({ g with run := run }, items)

/-! ### The loop (R216) -/

/-- One pass of R216's loop: the step of the current state, or `none` where it says stop. -/
def Scg.pass (g : Scg) : Option (Scg × List OutItem) :=
  match g.run.fsm with
  | .emitting => if g.run.pos ≤ g.run.e then none else some g.emitStep
  | .searching =>
    if g.run.pos < g.run.n + g.cfg.fftLen.toNat then none
    else some (g.searchStep (g.P g.run.n) (g.R g.run.n), [])
  | .candidate =>
    if g.run.pos < g.run.n + g.cfg.fftLen.toNat then none
    else some (g.candidateStep (g.P g.run.n) (g.R g.run.n))

/-- `advance()` of R216, at most `fuel` passes. -/
def Scg.advance : Nat → Scg → Scg × List OutItem
  | 0, g => (g, [])
  | fuel + 1, g =>
    match g.pass with
    | none => (g, [])
    | some r =>
      let t := Scg.advance fuel r.1
      (t.1, r.2 ++ t.2)

/-- Passes allowed to one `advance()`: never fewer than the loop takes (R216's own argument; log 7). -/
def advanceFuel (g : Scg) : Nat := 3 * g.run.pos + 3

/-- The body of SCG_PUSH (R215). -/
def Scg.push (r : Sample) (g : Scg) : Scg × List OutItem :=
  let g' := { g with run := { g.run with hist := g.run.hist ++ [r], pos := g.run.pos + 1 } }
  g'.advance (advanceFuel g')

/-- The body of SCG_FLUSH: ready for a new stream; the result registers are kept (R232). -/
def Scg.flush (g : Scg) : Scg :=
  { g with run := { g.run with
    pos := ScgRun.reset.pos, hist := ScgRun.reset.hist, fsm := ScgRun.reset.fsm, n := ScgRun.reset.n } }

/-! ### The meanings -/

/-- SCG_PUSH (R215) in the common frame. -/
def execScgPush (re im : Comp) (s : State) : Host.Outcome State Fault Refusal :=
  .next (framed .scg false
    (fun s =>
      let r := s.scg.push { re := re, im := im }
      { s with scg := r.1 }.emit r.2) s)

/-- SCG_FLUSH (R232) in the common frame. -/
def execScgFlush (s : State) : Host.Outcome State Fault Refusal :=
  .next (framed .scg false (fun s => { s with scg := s.scg.flush }) s)

end Sys2Proof.Machine
end

