-- ==== Sys2Proof/Machine/Hamming.lean ====
section
/-! DEFINITION. HAM, 41_hamming.md: HAM_ENC (R133) and HAM_DEC (R134). -/

namespace Sys2Proof.Machine

/-- The column of the parity-check matrix H for bit i of a septet, which is position i + 1: the binary
expansion of the position (R131, R132). It alone fixes the syndrome. -/
def hamColumn (i : Nat) : BitVec 3 := BitVec.ofNat _ (i + 1)

/-- The data bits of a septet, positions 1 to 4 (R131). -/
def hamData (c : BitVec 7) : BitVec 4 := c.extractLsb' 0 _

/-- The syndrome {s2, s1, s0} of a septet: the exclusive or of the columns of its set bits (R132, R134). -/
def hamSyndrome (c : BitVec 7) : BitVec 3 :=
  ((List.range 7).map (fun i => if c.getLsbD i then hamColumn i else 0)).foldl (· ^^^ ·) 0

/-- The codeword of a nibble: the septet with these data bits whose syndrome is 0 (R131 to R133).
`hamEncode_eq` of Laws/Ops.lean is R133's own equation. -/
def hamEncode (d : BitVec 4) : BitVec 7 :=
  (((List.range 128).map (BitVec.ofNat 7)).find? (fun c => hamData c == d && hamSyndrome c == 0)).getD 0

/-- The septet with the bit whose column is the syndrome flipped; as received where there is none
(R134). -/
def hamCorrect (c : BitVec 7) : BitVec 7 :=
  match (List.range 7).find? (fun i => hamColumn i == hamSyndrome c) with
  | none => c
  | some i => c ^^^ (1 <<< i)

/-- The nibble of a received septet (R134). -/
def hamDecode (c : BitVec 7) : BitVec 4 := hamData (hamCorrect c)

/-- HAM_ENC (R133): one septet on stream 0x10, the tag unchanged (R136). -/
def execHamEnc (d : BitVec 4) (tag : Tag) (s : State) : Host.Outcome State Fault Refusal :=
  .next (framed .ham false
    (fun s => s.emit [{ src := .codewords, tag := tag, data := itemData (hamEncode d) }]) s)

/-- HAM_DEC (R134): one nibble on stream 0x11, the tag unchanged (R136), no sign of a correction (R276). -/
def execHamDec (c : BitVec 7) (tag : Tag) (s : State) : Host.Outcome State Fault Refusal :=
  .next (framed .ham false
    (fun s => s.emit [{ src := .nibbles, tag := tag, data := itemData (hamDecode c) }]) s)

end Sys2Proof.Machine
end

