-- ==== Sys2Proof/Machine/Interleaver.lean ====
section
/-! DEFINITION. ILV, 42_interleaver.md: ILV_FWD (R155), ILV_INV (R156), ILV_FLUSH_FWD (R157),
ILV_FLUSH_INV (R158). -/

namespace Sys2Proof.Machine

/-! ### The permutation (R151) -/

/-- π(i) = (i mod C) · R + (i div C), with R = N / C. -/
def ilvPi (n c i : Nat) : Nat := (i % c) * (n / c) + i / c

/-- A full block permuted, both ways by the one π of R151. Forward: out[π(i)] ← in[i] for every i (R155).
Inverse: out[i] = in[π(i)] (R156). An index outside the block reads 0 and writes nothing; there is none
where the registers pass COMMIT's checks (log 9). -/
def ilvPermute (d : Dir) (n c : Nat) (block : List IlvItem) : List IlvItem :=
  match d with
  | .fwd => (List.range n).foldl (fun out i => out.set (ilvPi n c i) (block.getD i 0))
      (List.replicate n 0)
  | .inv => (List.range n).map (fun i => block.getD (ilvPi n c i) 0)

/-- What is not a full block passes through: a packet's tail, a block a tag cuts off, a flushed block
(R153, R155, R157). All three leave as this says. -/
def ilvPartial (items : List IlvItem) : List IlvItem := items

/-! ### One item (R155) -/

/-- `ilv_emit` of R154 on a context: the output items, and the context with its pending tag used up. -/
def IlvCtx.release (src : Stream) (items : List IlvItem) (x : IlvCtx) : IlvCtx × List OutItem :=
  ({ x with pend := pendAfter x.pend (items.map itemData) }, tagFirst src x.pend (items.map itemData))

/-- A tag cuts off what is buffered, which passes through, and opens a packet (R153, R155). -/
def IlvCtx.openPacket (src : Stream) (tag : Tag) (x : IlvCtx) : IlvCtx × List OutItem :=
  match tag with
  | none => (x, [])
  | some l => ({ buf := [], rem := l, pend := some l }, (x.release src (ilvPartial x.buf)).2)

/-- The item joins the block, or passes straight through as a tail item; a full block leaves permuted
(R155, R156). -/
def IlvCtx.take (d : Dir) (n c : Nat) (v : IlvItem) (x : IlvCtx) : IlvCtx × List OutItem :=
  if x.buf.isEmpty ∧ 0 < x.rem.toNat ∧ x.rem.toNat < n then x.release d.stream (ilvPartial [v])
  else if (x.buf ++ [v]).length = n then
    { x with buf := [] }.release d.stream (ilvPermute d n c (x.buf ++ [v]))
  else ({ x with buf := x.buf ++ [v] }, [])

/-- One item of the packet has been taken (R155). -/
def IlvCtx.count (x : IlvCtx) : IlvCtx := if x.rem = 0 then x else { x with rem := x.rem - 1 }

/-- The body of ILV_FWD and ILV_INV on a context (R155, R156). -/
def IlvCtx.push (d : Dir) (n c : Nat) (v : IlvItem) (tag : Tag) (x : IlvCtx) :
    IlvCtx × List OutItem :=
  let a := x.openPacket d.stream tag
  let b := a.1.take d n c v
  (b.1.count, a.2 ++ b.2)

/-- The body of both flushes on a context: what is buffered passes through, the context returns to its
reset state (R157). -/
def IlvCtx.flush (d : Dir) (x : IlvCtx) : IlvCtx × List OutItem :=
  (IlvCtx.reset, (x.release d.stream (ilvPartial x.buf)).2)

/-! ### The meanings -/

/-- Put a direction's new context and its output items into the state. -/
def State.putIlv (s : State) (d : Dir) (r : IlvCtx × List OutItem) : State :=
  { s with ilv := s.ilv.setCtx d r.1 }.emit r.2

/-- The shared frame of ILV_FWD and ILV_INV: RUNNING, then the width ILV_W (R97, R120), then the body. -/
def ilvData (d : Dir) (v : IlvItem) (tag : Tag) (s : State) : State :=
  framed .ilv (tooWide v s.ilv.w)
    (fun s => s.putIlv d ((s.ilv.ctx d).push d s.ilv.n.toNat s.ilv.cols.toNat v tag)) s

/-- The shared frame of the two flushes. -/
def ilvFlush (d : Dir) (s : State) : State :=
  framed .ilv false (fun s => s.putIlv d ((s.ilv.ctx d).flush d)) s

/-- ILV_FWD (R155). -/
def execIlvFwd (x : IlvItem) (tag : Tag) (s : State) : Host.Outcome State Fault Refusal :=
  .next (ilvData .fwd x tag s)

/-- ILV_INV (R156). -/
def execIlvInv (x : IlvItem) (tag : Tag) (s : State) : Host.Outcome State Fault Refusal :=
  .next (ilvData .inv x tag s)

/-- ILV_FLUSH_FWD (R157). -/
def execIlvFlushFwd (s : State) : Host.Outcome State Fault Refusal := .next (ilvFlush .fwd s)

/-- ILV_FLUSH_INV (R158). -/
def execIlvFlushInv (s : State) : Host.Outcome State Fault Refusal := .next (ilvFlush .inv s)

end Sys2Proof.Machine
end

