-- ==== Sys2Proof/Machine/Qam.lean ====
section
/-! DEFINITION. QAM, 43_qam.md: QAM_MAP (R182) and QAM_DEMAP (R183). -/

namespace Sys2Proof.Machine

/-- A component of the constellation: -QAM_AMP where the sign bit is set, else +QAM_AMP (R182). -/
def qamComp (neg : Bool) : Comp := BitVec.ofInt _ (if neg then -Config.qamAmp else Config.qamAmp)

/-- The sign bits (of re, of im) of a group: v[1] is the sign of re, v[0] that of im. The order of the
table of R181, both ways. -/
def qamSigns (v : BitVec 2) : Bool × Bool := (v.getLsbD 1, v.getLsbD 0)

/-- The symbol of a 2-bit group (R181, R182). -/
def qamSymbol (v : BitVec 2) : Sample := { re := qamComp (qamSigns v).1, im := qamComp (qamSigns v).2 }

/-- The sign decision for a component: zero counts as non-negative (R183). -/
def qamNegative (x : Comp) : Bool := decide (x.toInt < 0)

/-- The 2-bit group of a sample: the one whose symbol has the signs of the sample (R183). -/
def qamGroup (r : Sample) : BitVec 2 :=
  ([0, 1, 2, 3].find? (fun v => qamSigns v == (qamNegative r.re, qamNegative r.im))).getD 0

/-- QAM_MAP (R182): one symbol on stream 0x30, the tag unchanged (R184). -/
def execQamMap (v : BitVec 2) (tag : Tag) (s : State) : Host.Outcome State Fault Refusal :=
  .next (framed .qam false
    (fun s => s.emit [{ src := .symbols, tag := tag, data := sampleData (qamSymbol v) }]) s)

/-- QAM_DEMAP (R183): one group on stream 0x31, the tag unchanged (R184). -/
def execQamDemap (re im : Comp) (tag : Tag) (s : State) : Host.Outcome State Fault Refusal :=
  .next (framed .qam false
    (fun s => s.emit
      [{ src := .groups, tag := tag, data := itemData (qamGroup { re := re, im := im }) }]) s)

end Sys2Proof.Machine
end

