-- ==== Sys2Proof/Machine/Repack.lean ====
section
/-! DEFINITION. RPK, 45_repack.md: RPKk_PUSH (R253) and RPKk_FLUSH (R254), k = 0 to 3. -/

namespace Sys2Proof.Machine

/-- The bits ITEM[0], ..., ITEM[G_IN-1] of a group, the least significant first (R251, R253). -/
def groupBits (g : Group) (gIn : Nat) : List Bool := (List.range gIn).map (fun i => g.getLsbD i)

/-- The number whose binary digits are `bits`, the first being the least significant (R253). -/
def bitsValue : List Bool → Nat
  | [] => 0
  | b :: bs => b.toNat + 2 * bitsValue bs

/-- A group's bits as DATA: an item as wide as the group (R81, R253). -/
def groupData (bits : List Bool) : Data := itemData (BitVec.ofNat bits.length (bitsValue bits))

/-- The loop of R253: cut `gOut` bits from the front while that many are there. `fuel` bounds the cuts;
the number of bits is enough (log 8). The groups cut, and the bits left. -/
def cutGroups (gOut : Nat) : Nat → List Bool → List (List Bool) × List Bool
  | 0, acc => ([], acc)
  | fuel + 1, acc =>
    if 0 < gOut ∧ gOut ≤ acc.length then
      let r := cutGroups gOut fuel (acc.drop gOut)
      (acc.take gOut :: r.1, r.2)
    else ([], acc)

/-- conv(L) of R252, reduced into TAGLEN (R253). -/
def rpkConv (gIn gOut : Nat) (l : TagLen) : TagLen := BitVec.ofNat _ (l.toNat * gIn / gOut)

/-- The body of RPKk_FLUSH on an instance: the residue is discarded (R254). A packet's start and its end
discard it in this same way (R253). -/
def Rpk.flush (x : Rpk) : Rpk :=
  { x with acc := Rpk.reset.acc, rem := Rpk.reset.rem, pend := Rpk.reset.pend }

/-- A tag discards leftover bits and opens a packet; a converted length of 0 leaves no tag (R253, R255). -/
def Rpk.openPacket (tag : Tag) (x : Rpk) : Rpk :=
  match tag with
  | none => x
  | some l =>
    let c := rpkConv x.gIn.toNat x.gOut.toNat l
    { x.flush with rem := l, pend := if c = 0 then none else some c }

/-- The group's bits are appended and every complete output group leaves (R253). -/
def Rpk.take (src : Stream) (g : Group) (x : Rpk) : Rpk × List OutItem :=
  let bits := x.acc ++ groupBits g x.gIn.toNat
  let r := cutGroups x.gOut.toNat bits.length bits
  let items := r.1.map groupData
  ({ x with acc := r.2, pend := pendAfter x.pend items }, tagFirst src x.pend items)

/-- One group of the packet has been taken; at its end the residual bits are dropped (R253). -/
def Rpk.count (x : Rpk) : Rpk :=
  if x.rem = 0 then x
  else if x.rem = 1 then x.flush
  else { x with rem := x.rem - 1 }

/-- The body of RPKk_PUSH on an instance (R253). -/
def Rpk.push (src : Stream) (g : Group) (tag : Tag) (x : Rpk) : Rpk × List OutItem :=
  let r := (x.openPacket tag).take src g
  (r.1.count, r.2)

/-- RPKk_PUSH in the common frame: RUNNING, then the width G_IN (R97, R120), then the body. -/
def rpkPush (k : RpkId) (g : Group) (tag : Tag) (s : State) : State :=
  framed (.rpk k) (tooWide g (s.rpk k).gIn)
    (fun s =>
      let r := (s.rpk k).push (.repacked k) g tag
      (s.setRpk k r.1).emit r.2) s

/-- RPKk_FLUSH in the common frame. -/
def rpkFlush (k : RpkId) (s : State) : State :=
  framed (.rpk k) false (fun s => s.setRpk k (s.rpk k).flush) s

/-- RPK0_PUSH (R253). -/
def execRpk0Push (g : Group) (tag : Tag) (s : State) : Host.Outcome State Fault Refusal :=
  .next (rpkPush .k0 g tag s)

/-- RPK0_FLUSH (R254). -/
def execRpk0Flush (s : State) : Host.Outcome State Fault Refusal := .next (rpkFlush .k0 s)

/-- RPK1_PUSH (R253). -/
def execRpk1Push (g : Group) (tag : Tag) (s : State) : Host.Outcome State Fault Refusal :=
  .next (rpkPush .k1 g tag s)

/-- RPK1_FLUSH (R254). -/
def execRpk1Flush (s : State) : Host.Outcome State Fault Refusal := .next (rpkFlush .k1 s)

/-- RPK2_PUSH (R253). -/
def execRpk2Push (g : Group) (tag : Tag) (s : State) : Host.Outcome State Fault Refusal :=
  .next (rpkPush .k2 g tag s)

/-- RPK2_FLUSH (R254). -/
def execRpk2Flush (s : State) : Host.Outcome State Fault Refusal := .next (rpkFlush .k2 s)

/-- RPK3_PUSH (R253). -/
def execRpk3Push (g : Group) (tag : Tag) (s : State) : Host.Outcome State Fault Refusal :=
  .next (rpkPush .k3 g tag s)

/-- RPK3_FLUSH (R254). -/
def execRpk3Flush (s : State) : Host.Outcome State Fault Refusal := .next (rpkFlush .k3 s)

end Sys2Proof.Machine
end

