-- ==== Sys2Proof/Machine/Flags.lean ====
section
/-! DEFINITION. The status registers as words, assembled from the state they show (10_state.md R22, R24
to R26; 40_system.md R111). -/

namespace Sys2Proof.Machine

/-- The two bits of MODE (R24). -/
def Mode.code : Mode → BitVec (delta% Config.modeW)
  | .unconfigured => 0
  | .running => 1
  | .failed => 2

/-- The four bits of CFGERR (R25, R271). -/
def CfgErr.code : CfgErr → BitVec (delta% Config.errW)
  | .noError => 0
  | .zeroSize => 1
  | .range => 2
  | .ilvShape => 3
  | .fftOdd => 4
  | .threshOrder => 5

/-- SCG_STATUS[9:8] (R26). -/
def Fsm.code : Fsm → BitVec (delta% Config.fsmW)
  | .searching => 0
  | .candidate => 1
  | .emitting => 2

/-- SYS_STATUS: [0] ILLEGAL, [1] NOTRUN, [2] CFGLOCK, [31:3] read 0 (R22, R26). -/
def Flags.word (f : Flags) : Word32 :=
  place Config.illegalPos (BitVec.ofBool f.illegal) ||| place Config.notrunPos (BitVec.ofBool f.notrun)
    ||| place Config.cfglockPos (BitVec.ofBool f.cfglock)

/-- SYS_MODES: [2u+1:2u] is MODE of unit u; every other bit reads 0 (R26). -/
def State.modesWord (s : State) : Word32 :=
  UnitId.all.foldl (fun w u => w ||| place (Config.modeW * u.number.toNat) (s.life u).mode.code) 0

/-- A unit's status register: [1:0] MODE, [7:4] CFGERR, the rest 0 (R26). -/
def Life.word (l : Life) : Word32 := place Config.modeLo l.mode.code ||| place Config.errLo l.err.code

/-- SCG_STATUS: as the others, with [9:8] FSM (R26). -/
def Scg.statusWord (g : Scg) : Word32 := g.life.word ||| place Config.fsmLo g.run.fsm.code

end Sys2Proof.Machine
end

