-- ==== Sys2Proof/Machine/System.lean ====
section
/-! DEFINITION. The four system operations, 40_system.md: CFG_WR (R110), CFG_RD (R111), COMMIT (R112 to
R118), RESET (R119). -/

namespace Sys2Proof.Machine

/-! ### The register space -/

/-- The half of a register pair at the lower address, xxx_LO (R26). -/
def pairLo (p : Pair) : Word32 := p.extractLsb' Config.pairLoLo _

/-- The half of a register pair at the higher address, xxx_HI (R26). -/
def pairHi (p : Pair) : Word32 := p.extractLsb' Config.pairHiLo _

/-- `CFG[a]`: the value a read of the register returns (R26, R111). -/
def State.readReg (s : State) : Reg → Word32
  | .sysStatus => s.flags.word
  | .sysModes => s.modesWord
  | .hamStatus => s.ham.word
  | .ilvStatus => s.ilv.life.word
  | .ilvN => s.ilv.n
  | .ilvCols => s.ilv.cols
  | .ilvW => s.ilv.w
  | .qamStatus => s.qam.word
  | .scgStatus => s.scg.statusWord
  | .fftLen => s.scg.cfg.fftLen
  | .cpLen => s.scg.cfg.cpLen
  | .tLow => s.scg.cfg.tLow
  | .tHigh => s.scg.cfg.tHigh
  | .scNsym => s.scg.cfg.nsym
  | .scMaxRun => s.scg.cfg.maxRun
  | .scFrames => s.scg.res.frames
  | .scStart => s.scg.res.start
  | .scCfo => s.scg.res.cfo
  | .scPReLo => pairLo s.scg.res.pRe
  | .scPReHi => pairHi s.scg.res.pRe
  | .scPImLo => pairLo s.scg.res.pIm
  | .scPImHi => pairHi s.scg.res.pIm
  | .scRLo => pairLo s.scg.res.r
  | .scRHi => pairHi s.scg.res.r
  | .rpkStatus k => (s.rpk k).life.word
  | .rpkGIn k => (s.rpk k).gIn
  | .rpkGOut k => (s.rpk k).gOut

/-- `CFG[a] <- v` for a register that is writable (column Access of R26): its owning unit, and the state
with all 32 bits of the register replaced (R65). `none` for a read-only one. -/
def State.writeReg (s : State) (v : Word32) : Reg → Option (UnitId × State)
  | .ilvN => some (.ilv, { s with ilv := { s.ilv with n := v } })
  | .ilvCols => some (.ilv, { s with ilv := { s.ilv with cols := v } })
  | .ilvW => some (.ilv, { s with ilv := { s.ilv with w := v } })
  | .fftLen => some (.scg, { s with scg := { s.scg with cfg := { s.scg.cfg with fftLen := v } } })
  | .cpLen => some (.scg, { s with scg := { s.scg with cfg := { s.scg.cfg with cpLen := v } } })
  | .tLow => some (.scg, { s with scg := { s.scg with cfg := { s.scg.cfg with tLow := v } } })
  | .tHigh => some (.scg, { s with scg := { s.scg with cfg := { s.scg.cfg with tHigh := v } } })
  | .scNsym => some (.scg, { s with scg := { s.scg with cfg := { s.scg.cfg with nsym := v } } })
  | .scMaxRun => some (.scg, { s with scg := { s.scg with cfg := { s.scg.cfg with maxRun := v } } })
  | .rpkGIn k => some (.rpk k, s.setRpk k { s.rpk k with gIn := v })
  | .rpkGOut k => some (.rpk k, s.setRpk k { s.rpk k with gOut := v })
  | .sysStatus => none
  | .sysModes => none
  | .hamStatus => none
  | .ilvStatus => none
  | .qamStatus => none
  | .scgStatus => none
  | .scFrames => none
  | .scStart => none
  | .scCfo => none
  | .scPReLo => none
  | .scPReHi => none
  | .scPImLo => none
  | .scPImHi => none
  | .scRLo => none
  | .scRHi => none
  | .rpkStatus _ => none

/-! ### COMMIT's checks (R113, R114) -/

/-- The code of the first check that fails, or 0. -/
def firstFailing : List (Bool × CfgErr) → CfgErr
  | [] => .noError
  | (fails, code) :: rest => if fails then code else firstFailing rest

/-- The order of R113: ZERO_SIZE, RANGE, then the shape checks in the order of R114. -/
def checksOf (zero range : Bool) (shape : List (Bool × CfgErr)) : CfgErr :=
  firstFailing ((zero, .zeroSize) :: (range, .range) :: shape)

/-- The checks of ILV. -/
def Ilv.check (v : Ilv) : CfgErr :=
  let n := v.n.toNat
  let c := v.cols.toNat
  let w := v.w.toNat
  checksOf (n = 0 ∨ c = 0 ∨ w = 0) (Config.ilvNMax < n ∨ n < c ∨ Config.ilvWMax < w)
    [(n % c ≠ 0, .ilvShape)]

/-- The checks of SCG. -/
def ScgCfg.check (g : ScgCfg) : CfgErr :=
  let f := g.fftLen.toNat
  let cp := g.cpLen.toNat
  let lo := g.tLow.toNat
  let hi := g.tHigh.toNat
  let ns := g.nsym.toNat
  let mr := g.maxRun.toNat
  checksOf (f = 0 ∨ cp = 0 ∨ ns = 0 ∨ mr = 0)
    (Config.fftMax < f ∨ f < cp ∨ Config.thMax < lo ∨ Config.thMax < hi ∨ Config.nsymMax < ns ∨ f < mr)
    [(f % 2 = 1, .fftOdd), (hi ≤ lo, .threshOrder)]

/-- The checks of a repacker. -/
def Rpk.check (r : Rpk) : CfgErr :=
  let a := r.gIn.toNat
  let b := r.gOut.toNat
  checksOf (a = 0 ∨ b = 0) (Config.groupMax < a ∨ Config.groupMax < b) []

/-- `check(u)` of R113: the first check of R114 that fails; HAM and QAM have none. -/
def State.check (s : State) : UnitId → CfgErr
  | .ham => .noError
  | .ilv => s.ilv.check
  | .qam => .noError
  | .scg => s.scg.cfg.check
  | .rpk k => (s.rpk k).check

/-! ### The meanings -/

/-- CFG_WR of a mapped register: ILLEGAL where it is read-only, CFGLOCK where its unit is not
UNCONFIGURED, else the write (R110; order of R280). -/
def writeMapped (r : Reg) (value : Word32) (s : State) : State :=
  match s.writeReg value r with
  | none => raise .illegal s
  | some (u, t) => if (s.life u).mode = .unconfigured then t else raise .cfglock s

/-- CFG_WR (R110). -/
def execCfgWr (addr : Addr) (value : Word32) (s : State) : Host.Outcome State Fault Refusal :=
  .next (match Reg.ofAddr addr with
    | none => raise .illegal s
    | some r => writeMapped r value s)

/-- CFG_RD (R111): one item on stream 0x02, allowed in every MODE; no other state changes. -/
def execCfgRd (addr : Addr) (s : State) : Host.Outcome State Fault Refusal :=
  .next (match Reg.ofAddr addr with
    | none => raise .illegal s
    | some r => s.emit [{ src := .regData, tag := none, data := regData addr (s.readReg r) }])

/-- COMMIT of a unit that exists (R112): CFGLOCK where it is not UNCONFIGURED, else RUNNING or, with the
failing check's code, FAILED. -/
def commitUnit (u : UnitId) (s : State) : State :=
  if (s.life u).mode ≠ .unconfigured then raise .cfglock s
  else if s.check u = .noError then s.setLife u { s.life u with mode := .running }
  else raise (.cfgerr u (s.check u)) s

/-- COMMIT (R112): UNIT 0 and 9 to 15 are illegal. -/
def execCommit (target : UnitNum) (s : State) : Host.Outcome State Fault Refusal :=
  .next (match UnitId.ofNumber target with
    | none => raise .illegal s
    | some u => commitUnit u s)

/-- RESET (R119). -/
def execReset (s : State) : Host.Outcome State Fault Refusal := .next (resetCore s)

end Sys2Proof.Machine
end

