-- ==== Sys2Proof/Machine/Dispatch.lean ====
section
/-! DEFINITION. One arm per operation, each one direct call of its meaning. -/

namespace Sys2Proof.Machine

-- The meaning of an operation in a state; the opcode table is 30_encoding.md R85.
def exec (i : Instr) (s : State) : Host.Outcome State Fault Refusal :=
  match i with
  | .cfgWr addr value => Sys2Proof.Machine.execCfgWr addr value s
  | .cfgRd addr => Sys2Proof.Machine.execCfgRd addr s
  | .commit target => Sys2Proof.Machine.execCommit target s
  | .reset => Sys2Proof.Machine.execReset s
  | .hamEnc d tag => Sys2Proof.Machine.execHamEnc d tag s
  | .hamDec c tag => Sys2Proof.Machine.execHamDec c tag s
  | .ilvFwd x tag => Sys2Proof.Machine.execIlvFwd x tag s
  | .ilvInv x tag => Sys2Proof.Machine.execIlvInv x tag s
  | .ilvFlushFwd => Sys2Proof.Machine.execIlvFlushFwd s
  | .ilvFlushInv => Sys2Proof.Machine.execIlvFlushInv s
  | .qamMap v tag => Sys2Proof.Machine.execQamMap v tag s
  | .qamDemap re im tag => Sys2Proof.Machine.execQamDemap re im tag s
  | .scgPush re im => Sys2Proof.Machine.execScgPush re im s
  | .scgFlush => Sys2Proof.Machine.execScgFlush s
  | .rpk0Push g tag => Sys2Proof.Machine.execRpk0Push g tag s
  | .rpk0Flush => Sys2Proof.Machine.execRpk0Flush s
  | .rpk1Push g tag => Sys2Proof.Machine.execRpk1Push g tag s
  | .rpk1Flush => Sys2Proof.Machine.execRpk1Flush s
  | .rpk2Push g tag => Sys2Proof.Machine.execRpk2Push g tag s
  | .rpk2Flush => Sys2Proof.Machine.execRpk2Flush s
  | .rpk3Push g tag => Sys2Proof.Machine.execRpk3Push g tag s
  | .rpk3Flush => Sys2Proof.Machine.execRpk3Flush s

end Sys2Proof.Machine
end

