-- ==== Sys2Proof/Machine/Step.lean ====
section
/-! DEFINITION. One step: the CORE looks at the next stimulus and performs it completely (00_scope.md R8,
20_memory.md R66). -/

namespace Sys2Proof.Machine

/-- One stimulus. A word that decodes is executed; an invalid word raises ILLEGAL (R96); the reset input
resets (R300). A CORE that is given nothing keeps its state (R289; log 1). -/
def step (s : State) : Host.Outcome State Fault Refusal :=
  match fetch s with
  | none => .next s
  | some (.hwReset, s') => .next (resetCore s')
  | some (.word w, s') =>
    match decode w with
    | .ok i => exec i s'
    | .error _ => .next (raise .illegal s')

/-- `s` with the opcode table's word `w` presented before anything else the host has yet to present, so
that the next step performs it (log 1, log 13). -/
def State.withFetchWord (s : State) (nbits w : Nat) : State :=
  { s with input := .word (tableWord nbits w) :: s.input }

end Sys2Proof.Machine
end

