-- ==== Sys2Proof/Safety.lean ====
section
/-! DEFINITION. What the statements about this CORE are stated in: sequences of operations, the unit an
operation belongs to, the life-cycle and run-state invariants of the spec, and the gate's loop as a
relation. -/

namespace Sys2Proof.Machine

/-! ### Operations -/

/-- The item operation of an ILV direction: ILV_FWD or ILV_INV. -/
def ilvItem (d : Dir) (x : BitVec 8) (tag : Tag) : Instr :=
  match d with
  | .fwd => .ilvFwd x tag
  | .inv => .ilvInv x tag

/-- The flush of an ILV direction: ILV_FLUSH_FWD or ILV_FLUSH_INV. -/
def ilvFlushOf (d : Dir) : Instr :=
  match d with
  | .fwd => .ilvFlushFwd
  | .inv => .ilvFlushInv

/-- RPK0_PUSH, RPK1_PUSH, RPK2_PUSH or RPK3_PUSH. -/
def rpkItem (k : RpkId) (g : BitVec 8) (tag : Tag) : Instr :=
  match k with
  | 0 => .rpk0Push g tag
  | 1 => .rpk1Push g tag
  | 2 => .rpk2Push g tag
  | 3 => .rpk3Push g tag

/-- RPK0_FLUSH, RPK1_FLUSH, RPK2_FLUSH or RPK3_FLUSH. -/
def rpkFlushOf (k : RpkId) : Instr :=
  match k with
  | 0 => .rpk0Flush
  | 1 => .rpk1Flush
  | 2 => .rpk2Flush
  | 3 => .rpk3Flush

/-- The unit and direction a data or flush operation belongs to; `none` for the four system operations.
Only ILV keeps its two directions apart (20_memory.md R68), so the others all stand at `.fwd`. -/
def dataPort : Instr → Option (UnitId × Dir)
  | .cfgWr _ _ => none
  | .cfgRd _ => none
  | .commit _ => none
  | .reset => none
  | .hamEnc _ _ => some (.ham, .fwd)
  | .hamDec _ _ => some (.ham, .fwd)
  | .ilvFwd _ _ => some (.ilv, .fwd)
  | .ilvInv _ _ => some (.ilv, .inv)
  | .ilvFlushFwd => some (.ilv, .fwd)
  | .ilvFlushInv => some (.ilv, .inv)
  | .qamMap _ _ => some (.qam, .fwd)
  | .qamDemap _ _ _ => some (.qam, .fwd)
  | .scgPush _ _ => some (.scg, .fwd)
  | .scgFlush => some (.scg, .fwd)
  | .rpk0Push _ _ => some (.rpk .k0, .fwd)
  | .rpk0Flush => some (.rpk .k0, .fwd)
  | .rpk1Push _ _ => some (.rpk .k1, .fwd)
  | .rpk1Flush => some (.rpk .k1, .fwd)
  | .rpk2Push _ _ => some (.rpk .k2, .fwd)
  | .rpk2Flush => some (.rpk .k2, .fwd)
  | .rpk3Push _ _ => some (.rpk .k3, .fwd)
  | .rpk3Flush => some (.rpk .k3, .fwd)

/-- A sequence of operations performed one after the other (R66); `none` if one stops. -/
def performAll : List Instr → State → Option State
  | [], s => some s
  | i :: is, s =>
    match exec i s with
    | .next t => performAll is t
    | .fault _ => none
    | .refused _ => none

/-- The next stimulus is a reset event: the reset input, or a word that decodes to RESET (R300). -/
def resetsNext (s : State) : Bool :=
  match s.input with
  | [] => false
  | .hwReset :: _ => true
  | .word w :: _ =>
    match decode w with
    | .ok .reset => true
    | _ => false

/-- A safe step: it answers a next state (R290: the step function is total). -/
def Safe (s : State) : Prop := ∃ t, step s = .next t

/-! ### The life cycle (R24, R25, R114, R116, R117) -/

/-- MODE, CFGERR, the registers and the run state of one unit fit together: before COMMIT no code is
recorded and the run state is fresh; a RUNNING unit's registers pass its checks; a FAILED unit records
the code of its failing check and its run state is fresh. -/
abbrev LifeOk (l : Life) (check : CfgErr) (fresh : Prop) : Prop :=
  (l.mode = .unconfigured → l.err = .noError ∧ fresh)
  ∧ (l.mode = .running → l.err = .noError ∧ check = .noError)
  ∧ (l.mode = .failed → l.err = check ∧ check ≠ .noError ∧ fresh)

/-- The run state of ILV is what reset leaves (R29, R116). -/
abbrev Ilv.Fresh (v : Ilv) : Prop := v.fwd = .reset ∧ v.inv = .reset

/-- The run state and the results of SCG are what reset leaves (R31, R32, R116). -/
abbrev Scg.Fresh (g : Scg) : Prop := g.run = .reset ∧ g.res = .reset

/-- The run state of a repacker is what reset leaves (R34, R116). -/
abbrev Rpk.Fresh (x : Rpk) : Prop := x.acc = [] ∧ x.rem = 0 ∧ x.pend = none

/-- Every unit's life cycle is in order. -/
abbrev LifeInv (s : State) : Prop :=
  LifeOk s.ham .noError True
  ∧ LifeOk s.ilv.life s.ilv.check s.ilv.Fresh
  ∧ LifeOk s.qam .noError True
  ∧ LifeOk s.scg.life s.scg.cfg.check s.scg.Fresh
  ∧ ∀ k, LifeOk (s.rpk k).life (s.rpk k).check (s.rpk k).Fresh

/-! ### The run states -/

/-- One ILV context between transactions (R29, R153, R155, R157): fewer than N items, each within the
configured width; while a packet is open and a block is being filled, the block's rest lies inside the
packet; a pending tag exists only with a non-empty buffer inside an open packet, and then the buffer is
the packet's start. -/
abbrev IlvCtxOk (n : Nat) (w : Word32) (x : IlvCtx) : Prop :=
  x.buf.length < n
  ∧ (∀ v ∈ x.buf, tooWide v w = false)
  ∧ (x.rem ≠ 0 → x.buf ≠ [] → n ≤ x.rem.toNat + x.buf.length)
  ∧ (x.pend = none
      ∨ (x.buf ≠ [] ∧ x.rem ≠ 0 ∧ x.rem.toNat + x.buf.length = (x.pend.getD 0).toNat))

/-- Both contexts of a RUNNING ILV. -/
abbrev IlvInv (s : State) : Prop :=
  s.ilv.life.mode = .running →
    IlvCtxOk s.ilv.n.toNat s.ilv.w s.ilv.fwd ∧ IlvCtxOk s.ilv.n.toNat s.ilv.w s.ilv.inv

/-- One RUNNING repacker between transactions (R34, R256 item 1): fewer than G_OUT bits; a pending tag is
not 0 and belongs to an open packet. -/
abbrev RpkOk (x : Rpk) : Prop :=
  x.life.mode = .running →
    x.acc.length < x.gOut.toNat ∧ (x.pend = none ∨ (x.rem ≠ 0 ∧ x.pend ≠ some 0))

/-- All repackers. -/
abbrev RpkInv (s : State) : Prop := ∀ k, RpkOk (s.rpk k)

/-- The gate between transactions (R202, R220): `hist` holds `pos` samples; in SEARCHING and CANDIDATE the
next metric is not computable yet; in CANDIDATE the run, its length and its best index are as R218 keeps
them; in EMITTING everything available has been handled and the frame is not complete. -/
abbrev ScgOk (g : Scg) : Prop :=
  g.run.hist.length = g.run.pos
  ∧ (g.run.fsm ≠ .emitting → g.run.pos < g.run.n + g.cfg.fftLen.toNat)
  ∧ (g.run.fsm = .candidate →
      g.run.nFirst ≤ g.run.nBest ∧ g.run.nBest < g.run.n
      ∧ g.run.n - g.run.nFirst ≤ g.cfg.maxRun.toNat
      ∧ g.run.n + g.cfg.fftLen.toNat = g.run.pos + 1
      ∧ g.run.pos < g.run.nBest + g.cfg.maxRun.toNat + g.cfg.fftLen.toNat
      ∧ g.run.bP = g.P g.run.nBest ∧ g.run.bR = g.R g.run.nBest ∧ 0 < g.run.bR
      ∧ (∀ m, m < g.run.n → g.run.nFirst ≤ m →
          exceeds (g.P m) (g.R m) g.cfg.tLow = true
          ∧ better (g.P m) (g.R m) g.run.bP g.run.bR = false
          ∧ (m < g.run.nBest → better g.run.bP g.run.bR (g.P m) (g.R m) = true)))
  ∧ (g.run.fsm = .emitting →
      g.run.start ≤ g.run.e ∧ g.run.e = g.run.pos ∧ g.run.pos < g.run.start + g.cfg.frameLen)

/-- A RUNNING gate is in order. -/
abbrev ScgInv (s : State) : Prop := s.scg.life.mode = .running → ScgOk s.scg

/-! ### Words and output, as the statements write them -/

/-- The steps of R95 for a word, written over its bit fields: the 22 opcodes by what they allow. -/
def ValidWord (w : Word) : Prop :=
  let opc := w.extractLsb' 88 8
  let tagBit := w.extractLsb' 87 1
  let tagLen := w.extractLsb' 48 32
  let data := w.extractLsb' 0 48
  let untagged := tagBit = 0 ∧ tagLen = 0
  let tagOk := (tagBit = 0 ∧ tagLen = 0) ∨ (tagBit = 1 ∧ 1 ≤ tagLen.toNat)
  w.extractLsb' 80 7 = 0
    ∧ ((opc = 0x01 ∧ untagged ∧ data.extractLsb' 32 8 = 0)
      ∨ (opc = 0x02 ∧ untagged ∧ data.extractLsb' 0 40 = 0)
      ∨ (opc = 0x03 ∧ untagged ∧ data.extractLsb' 4 44 = 0)
      ∨ (opc ∈ [0x04, 0x28, 0x29, 0x48, 0x58, 0x68, 0x78, 0x88] ∧ untagged ∧ data = 0)
      ∨ (opc = 0x10 ∧ tagOk ∧ data.extractLsb' 4 44 = 0)
      ∨ (opc = 0x11 ∧ tagOk ∧ data.extractLsb' 7 41 = 0)
      ∨ (opc ∈ [0x20, 0x21, 0x50, 0x60, 0x70, 0x80] ∧ tagOk ∧ data.extractLsb' 8 40 = 0)
      ∨ (opc = 0x30 ∧ tagOk ∧ data.extractLsb' 2 46 = 0)
      ∨ (opc = 0x31 ∧ tagOk)
      ∨ (opc = 0x40 ∧ untagged))

/-- The items of one emission: one per value, on one stream, a tag on the first only (R154, R253). -/
def firstTagged (src : Stream) (pend : Tag) (items : List Data) : List OutItem :=
  items.mapIdx (fun i v => { src := src, tag := if i = 0 then pend else none, data := v })

/-- A raised sticky condition as a state (R272 to R274): one bit is set and nothing else changes. -/
def withIllegal (s : State) : State := { s with flags := { s.flags with illegal := true } }

/-- See `withIllegal`. -/
def withNotrun (s : State) : State := { s with flags := { s.flags with notrun := true } }

/-- See `withIllegal`. -/
def withCfglock (s : State) : State := { s with flags := { s.flags with cfglock := true } }

/-- `s` after a reset event (R301): every piece of state at the value the table gives it, row by row. -/
structure ResetValues (s : State) : Prop where
  flags : s.flags.illegal = false ∧ s.flags.notrun = false ∧ s.flags.cfglock = false
  modes : ∀ u, (s.life u).mode = .unconfigured
  errs : ∀ u, (s.life u).err = .noError
  ilvRegs : s.ilv.n = 0 ∧ s.ilv.cols = 0 ∧ s.ilv.w = 0
  scgRegs : s.scg.cfg.fftLen = 0 ∧ s.scg.cfg.cpLen = 0 ∧ s.scg.cfg.tLow = 0 ∧ s.scg.cfg.tHigh = 0
    ∧ s.scg.cfg.nsym = 0 ∧ s.scg.cfg.maxRun = 0
  rpkRegs : ∀ k, (s.rpk k).gIn = 0 ∧ (s.rpk k).gOut = 0
  results : s.scg.res.frames = 0 ∧ s.scg.res.start = 0 ∧ s.scg.res.cfo = 0 ∧ s.scg.res.pRe = 0
    ∧ s.scg.res.pIm = 0 ∧ s.scg.res.r = 0
  contexts : ∀ d, (s.ilv.ctx d).buf = [] ∧ (s.ilv.ctx d).rem = 0 ∧ (s.ilv.ctx d).pend = none
  gate : s.scg.run.pos = 0 ∧ s.scg.run.hist = [] ∧ s.scg.run.fsm = .searching ∧ s.scg.run.n = 0
  gateRest : s.scg.run.nFirst = 0 ∧ s.scg.run.nBest = 0 ∧ s.scg.run.bP = ⟨0, 0⟩ ∧ s.scg.run.bR = 0
    ∧ s.scg.run.start = 0 ∧ s.scg.run.e = 0
  repackers : ∀ k, (s.rpk k).acc = [] ∧ (s.rpk k).rem = 0 ∧ (s.rpk k).pend = none

/-- The addresses of the registers CFG_WR can write (column Access "RW" of R26). -/
def writableAddrs : List (BitVec 8) :=
  [0x21, 0x22, 0x23, 0x41, 0x42, 0x43, 0x44, 0x45, 0x46,
   0x51, 0x52, 0x61, 0x62, 0x71, 0x72, 0x81, 0x82]

/-- The addresses of the read-only registers (column Access "RO" of R26). -/
def readOnlyAddrs : List (BitVec 8) :=
  [0x00, 0x01, 0x10, 0x20, 0x30, 0x40, 0x47, 0x48, 0x49, 0x4A, 0x4B, 0x4C, 0x4D, 0x4E, 0x4F,
   0x50, 0x60, 0x70, 0x80]

/-- The table of R138: the codeword of each nibble. -/
def hamEncTable : List Data := [0, 97, 82, 51, 52, 85, 102, 7, 120, 25, 42, 75, 76, 45, 30, 127]

/-- The table of R139: the nibble of each septet. -/
def hamDecTable : List Data :=
  [0, 0, 0, 7, 0, 7, 7, 7, 0, 9, 10, 11, 12, 13, 14, 7]
  ++ [0, 9, 2, 3, 4, 5, 14, 7, 9, 9, 14, 9, 14, 9, 14, 14]
  ++ [0, 1, 10, 3, 4, 13, 6, 7, 10, 13, 10, 10, 13, 13, 10, 13]
  ++ [4, 3, 3, 3, 4, 4, 4, 3, 8, 9, 10, 3, 4, 13, 14, 15]
  ++ [0, 1, 2, 11, 12, 5, 6, 7, 12, 11, 11, 11, 12, 12, 12, 11]
  ++ [2, 5, 2, 2, 5, 5, 2, 5, 8, 9, 2, 11, 12, 5, 14, 15]
  ++ [1, 1, 6, 1, 6, 1, 6, 6, 8, 1, 10, 11, 12, 13, 6, 15]
  ++ [8, 1, 2, 3, 4, 5, 6, 15, 8, 8, 8, 15, 8, 15, 15, 15]

/-- The second table of R139: the syndrome of each septet. -/
def hamSynTable : List Nat :=
  [0, 1, 2, 3, 3, 2, 1, 0, 4, 5, 6, 7, 7, 6, 5, 4]
  ++ [5, 4, 7, 6, 6, 7, 4, 5, 1, 0, 3, 2, 2, 3, 0, 1]
  ++ [6, 7, 4, 5, 5, 4, 7, 6, 2, 3, 0, 1, 1, 0, 3, 2]
  ++ [3, 2, 1, 0, 0, 1, 2, 3, 7, 6, 5, 4, 4, 5, 6, 7]
  ++ [7, 6, 5, 4, 4, 5, 6, 7, 3, 2, 1, 0, 0, 1, 2, 3]
  ++ [2, 3, 0, 1, 1, 0, 3, 2, 6, 7, 4, 5, 5, 4, 7, 6]
  ++ [1, 0, 3, 2, 2, 3, 0, 1, 5, 4, 7, 6, 6, 7, 4, 5]
  ++ [4, 5, 6, 7, 7, 6, 5, 4, 0, 1, 2, 3, 3, 2, 1, 0]

/-- The table of R181: the packed symbol of each group. -/
def qamTable : List Data := [0x2D413D2D413D, 0xD2BEC32D413D, 0x2D413DD2BEC3, 0xD2BEC3D2BEC3]

/-- Some bit of ITEM[7:W] is set (R97). -/
abbrev OverWide (x : BitVec 8) (w : Word32) : Prop := ∃ i : Fin 8, w.toNat ≤ i.val ∧ x.getLsbD i.val = true

/-- CFG_RD of `addr` returns `v` on the register read data stream and does nothing else (R111, R88). -/
def ReadsAs (s : State) (addr : BitVec 8) (v : Word32) : Prop :=
  exec (.cfgRd addr) s
    = .next { s with out := s.out ++ [{ src := .regData, tag := none, data := addr ++ 0#8 ++ v }] }

/-- A two-bit field shows a MODE (R24). -/
def ShowsMode (field : BitVec 2) (m : Mode) : Prop :=
  (m = .unconfigured ∧ field = 0) ∨ (m = .running ∧ field = 1) ∨ (m = .failed ∧ field = 2)

/-- A four-bit field shows a CFGERR code (R25, R271). -/
def ShowsErr (field : BitVec 4) (e : CfgErr) : Prop :=
  (e = .noError ∧ field = 0) ∨ (e = .zeroSize ∧ field = 1) ∨ (e = .range ∧ field = 2)
    ∨ (e = .ilvShape ∧ field = 3) ∨ (e = .fftOdd ∧ field = 4) ∨ (e = .threshOrder ∧ field = 5)

/-- The five causes of ILLEGAL (R272) for a word in a state. -/
def IllegalCause (w : Word) (s : State) : Prop :=
  ¬ ValidWord w
  ∨ (∃ u, decode w = .ok (.commit u) ∧ (u = 0 ∨ 8 < u.toNat))
  ∨ (∃ a, a ∉ writableAddrs ∧ a ∉ readOnlyAddrs
      ∧ (decode w = .ok (.cfgRd a) ∨ ∃ v, decode w = .ok (.cfgWr a v)))
  ∨ (∃ a v, a ∈ readOnlyAddrs ∧ decode w = .ok (.cfgWr a v))
  ∨ (∃ d x tag, decode w = .ok (ilvItem d x tag) ∧ s.ilv.life.mode = .running ∧ OverWide x s.ilv.w)
  ∨ (∃ k g tag, decode w = .ok (rpkItem k g tag) ∧ (s.rpk k).life.mode = .running
      ∧ OverWide g (s.rpk k).gIn)

/-! ### The gate's loop as a relation (R216) -/

/-- `GateRuns g items g'`: the loop of R216 started at `g` stops by itself at `g'`, having emitted
`items`. -/
inductive GateRuns : Scg → List OutItem → Scg → Prop where
  /-- The current state's step says stop. -/
  | stop (g : Scg) : g.pass = none → GateRuns g [] g
  /-- One pass, and the loop goes on. -/
  | more (g g1 g2 : Scg) (o1 o2 : List OutItem) :
      g.pass = some (g1, o1) → GateRuns g1 o2 g2 → GateRuns g (o1 ++ o2) g2

end Sys2Proof.Machine
end

