-- ==== Sys2Proof/Certificates/Slice0/Obligations.lean ====
section
/-! DEFINITION. The statements for the provers, in the order of OBLIGATIONS.json: words and steps, system
operations, what every step keeps, then unit by unit. -/

open Sys2Proof Sys2Proof.Machine

/-! ### Words and steps -/

/-- A step runs the decoded operation on the state with the word taken (20_memory.md R66, 30_encoding.md
R95); the second clause says the same of a word placed by `withFetchWord`. The input list is the model's
choice (log 1). -/
def Obligations.StepPerformsDecodedWord : Prop :=
  (∀ (s : State) (w : Word) (rest : List Stimulus) (i : Instr),
      s.input = .word w :: rest → decode w = .ok i → step s = exec i { s with input := rest })
  ∧ (∀ (s : State) (nbits w : Nat) (i : Instr),
      decodeTableWord nbits w = some i → step (s.withFetchWord nbits w) = exec i s)

/-- The step function is total: it answers a next state in every state (60_exceptions.md R290). A CORE that
is given nothing keeps its state (R289); the reset input has exactly the effect of the RESET operation
(70_reset_and_hazards.md R300). The input list is the model's choice (log 1, log 3). -/
def Obligations.StepAlwaysAnswersNext : Prop :=
  (∀ s : State, Safe s)
  ∧ (∀ s : State, s.input = [] → step s = .next s)
  ∧ (∀ (s : State) (rest : List Stimulus),
      s.input = .hwReset :: rest → step s = exec .reset { s with input := rest })

/-- A step takes at most one stimulus and only appends to the output (20_memory.md R66, 10_state.md R35).
The input and output lists are the model's choice (log 1, log 2). -/
def Obligations.EmittedItemsStayEmitted : Prop :=
  ∀ s t : State, step s = .next t →
    t.input = s.input.drop 1 ∧ ∃ items : List OutItem, t.out = s.out ++ items

/-- The words that decode are exactly those that pass the four steps of 30_encoding.md R95. -/
def Obligations.WordsThatDecode : Prop :=
  ∀ w : Word, (∃ i, decode w = .ok i) ↔ ValidWord w

/-- Decode and encode agree: the word of a well-formed operation decodes to it (30_encoding.md R80 to R87,
R95). -/
def Obligations.DecodeEncodeAgree : Prop :=
  ∀ i : Instr, i.WellFormed → decode (encode i) = .ok i

/-- Every word that decodes is the encoding of what it decodes to, and that is well-formed: no bit is
dropped and no operation has two words (30_encoding.md R95, R98). -/
def Obligations.DecodedWordIsItsEncoding : Prop :=
  ∀ (w : Word) (i : Instr), decode w = .ok i → encode i = w ∧ i.WellFormed

/-- The worked encodings of 30_encoding.md R102. -/
def Obligations.WorkedEncodingsDecode : Prop :=
  decode 0x508000000008000000000001 = .ok (.rpk0Push 1 (some 8))
  ∧ decode 0x500000000000000000000002 = .ok (.rpk0Push 2 none)
  ∧ decode 0x108000000010000000000001 = .ok (.hamEnc 1 (some 16))
  ∧ decode 0x300000000000000000000003 = .ok (.qamMap 3 none)
  ∧ decode 0x400000000000ffffff000001 = .ok (.scgPush 1 (-1))
  ∧ decode 0x310000000000000000fffffb = .ok (.qamDemap (-5) 0 none)
  ∧ decode 0x01000000000021000000005a = .ok (.cfgWr 0x21 90)
  ∧ decode 0x030000000000000000000002 = .ok (.commit 2)

/-- ILLEGAL (60_exceptions.md R272, 30_encoding.md R96): exactly under one of the five causes the
transaction sets the bit and does nothing else; any other word, RESET apart, leaves the bit as it was. -/
def Obligations.IllegalHasFiveCauses : Prop :=
  ∀ (s : State) (w : Word) (rest : List Stimulus), s.input = .word w :: rest →
    (IllegalCause w s → step s = .next (withIllegal { s with input := rest }))
    ∧ (¬ IllegalCause w s →
        ∃ t, step s = .next t
          ∧ (t.flags.illegal = s.flags.illegal ∨ (decode w = .ok .reset ∧ t.flags.illegal = false)))

/-- Output items as words (30_encoding.md R88): SRC names the stream, bits [86:80] are zero, the tag and
DATA stand where an input word has them. -/
def Obligations.OutputItemWordLayout : Prop :=
  (∀ o : OutItem,
    opcOf o.word = o.src.code ∧ zeroOf o.word = 0 ∧ dataOf o.word = o.data
    ∧ (o.tag = none → tagBitOf o.word = false ∧ tagLenOf o.word = 0)
    ∧ (∀ l, o.tag = some l → tagBitOf o.word = true ∧ tagLenOf o.word = l))
  ∧ [Stream.regData, .codewords, .nibbles, .interleaved, .deinterleaved, .symbols, .groups, .gated,
      .metadata, .repacked .k0, .repacked .k1, .repacked .k2, .repacked .k3].map Stream.code
    = [0x02, 0x10, 0x11, 0x20, 0x21, 0x30, 0x31, 0x40, 0x4F, 0x50, 0x60, 0x70, 0x80]

/-! ### System operations -/

/-- RESET completes and every piece of state has its reset value, row by row of
70_reset_and_hazards.md R301; items already emitted stay; every mapped register then reads 0; a unit with
parameters cannot be committed with its reset values. -/
def Obligations.ResetPutsEveryPiece : Prop :=
  decode 0x040000000000000000000000 = .ok .reset
  ∧ (∀ s : State, ∃ t, exec .reset s = .next t ∧ ResetValues t ∧ t.out = s.out)
  ∧ (∀ (s t : State) (addr : BitVec 8), exec .reset s = .next t →
      addr ∈ writableAddrs ∨ addr ∈ readOnlyAddrs → ReadsAs t addr 0)
  ∧ (∀ (s t : State) (u : UnitId), exec .reset s = .next t → u ≠ .ham → u ≠ .qam →
      exec (.commit u.number) t = .next (t.setLife u { mode := .failed, err := .zeroSize }))

/-- CFG_WR (40_system.md R110): ILLEGAL where the address is unmapped or read-only, CFGLOCK where the
owning unit is not UNCONFIGURED, else the register takes the value and nothing else changes. -/
def Obligations.CfgWrRule : Prop :=
  (∀ (addr : BitVec 8) (value : Word32),
      decode (packWord 0x01 false 0 (addr ++ 0#8 ++ value)) = .ok (.cfgWr addr value))
  ∧ (∀ addr value s, addr ∉ writableAddrs → exec (.cfgWr addr value) s = .next (withIllegal s))
  ∧ (∀ addr value s u, addr ∈ writableAddrs → UnitId.number u = addr.extractLsb' 4 4 →
      (State.life s u).mode ≠ .unconfigured → exec (.cfgWr addr value) s = .next (withCfglock s))
  ∧ (∀ (v : Word32) (s : State), s.ilv.life.mode = .unconfigured →
      exec (.cfgWr 0x21 v) s = .next { s with ilv := { s.ilv with n := v } }
      ∧ exec (.cfgWr 0x22 v) s = .next { s with ilv := { s.ilv with cols := v } }
      ∧ exec (.cfgWr 0x23 v) s = .next { s with ilv := { s.ilv with w := v } })
  ∧ (∀ (v : Word32) (s : State), s.scg.life.mode = .unconfigured →
      exec (.cfgWr 0x41 v) s
        = .next { s with scg := { s.scg with cfg := { s.scg.cfg with fftLen := v } } }
      ∧ exec (.cfgWr 0x42 v) s
        = .next { s with scg := { s.scg with cfg := { s.scg.cfg with cpLen := v } } }
      ∧ exec (.cfgWr 0x43 v) s
        = .next { s with scg := { s.scg with cfg := { s.scg.cfg with tLow := v } } }
      ∧ exec (.cfgWr 0x44 v) s
        = .next { s with scg := { s.scg with cfg := { s.scg.cfg with tHigh := v } } }
      ∧ exec (.cfgWr 0x45 v) s
        = .next { s with scg := { s.scg with cfg := { s.scg.cfg with nsym := v } } }
      ∧ exec (.cfgWr 0x46 v) s
        = .next { s with scg := { s.scg with cfg := { s.scg.cfg with maxRun := v } } })
  ∧ (∀ (v : Word32) (s : State) (k : RpkId), (s.rpk k).life.mode = .unconfigured →
      exec (.cfgWr ((UnitId.rpk k).number ++ 1#4) v) s
        = .next (s.setRpk k { s.rpk k with gIn := v })
      ∧ exec (.cfgWr ((UnitId.rpk k).number ++ 2#4) v) s
        = .next (s.setRpk k { s.rpk k with gOut := v }))

/-- CFG_RD (40_system.md R111): ILLEGAL where the address is unmapped, else one item with the register's
value and no other effect, in every MODE. The status registers are `StatusRegistersShowState`. -/
def Obligations.CfgRdReturnsRegister : Prop :=
  (∀ addr : BitVec 8, decode (packWord 0x02 false 0 (addr ++ 0#40)) = .ok (.cfgRd addr))
  ∧ (∀ addr s, addr ∉ writableAddrs → addr ∉ readOnlyAddrs →
      exec (.cfgRd addr) s = .next (withIllegal s))
  ∧ (∀ addr s, addr ∈ writableAddrs ∨ addr ∈ readOnlyAddrs → ∃ v, ReadsAs s addr v)
  ∧ (∀ s : State,
      ReadsAs s 0x21 s.ilv.n ∧ ReadsAs s 0x22 s.ilv.cols ∧ ReadsAs s 0x23 s.ilv.w
      ∧ ReadsAs s 0x41 s.scg.cfg.fftLen ∧ ReadsAs s 0x42 s.scg.cfg.cpLen
      ∧ ReadsAs s 0x43 s.scg.cfg.tLow ∧ ReadsAs s 0x44 s.scg.cfg.tHigh
      ∧ ReadsAs s 0x45 s.scg.cfg.nsym ∧ ReadsAs s 0x46 s.scg.cfg.maxRun
      ∧ ReadsAs s 0x47 s.scg.res.frames ∧ ReadsAs s 0x48 s.scg.res.start
      ∧ ReadsAs s 0x49 s.scg.res.cfo)
  ∧ (∀ s : State, ∃ a b c d e f,
      ReadsAs s 0x4A a ∧ ReadsAs s 0x4B b ∧ b ++ a = s.scg.res.pRe
      ∧ ReadsAs s 0x4C c ∧ ReadsAs s 0x4D d ∧ d ++ c = s.scg.res.pIm
      ∧ ReadsAs s 0x4E e ∧ ReadsAs s 0x4F f ∧ f ++ e = s.scg.res.r)
  ∧ (∀ (s : State) (k : RpkId),
      ReadsAs s ((UnitId.rpk k).number ++ 1#4) (s.rpk k).gIn
      ∧ ReadsAs s ((UnitId.rpk k).number ++ 2#4) (s.rpk k).gOut)

/-- The fields of the status registers (10_state.md R26, with R22, R24, R25). -/
def Obligations.StatusRegistersShowState : Prop :=
  (∀ s : State, ∃ v, ReadsAs s 0x00 v
      ∧ v.getLsbD 0 = s.flags.illegal ∧ v.getLsbD 1 = s.flags.notrun ∧ v.getLsbD 2 = s.flags.cfglock
      ∧ v.extractLsb' 3 29 = 0)
  ∧ (∀ s : State, ∃ v, ReadsAs s 0x01 v
      ∧ (∀ u : UnitId, ShowsMode (v.extractLsb' (2 * u.number.toNat) 2) (s.life u).mode)
      ∧ v.extractLsb' 0 2 = 0 ∧ v.extractLsb' 18 14 = 0)
  ∧ (∀ (s : State) (u : UnitId), u ≠ .scg → ∃ v, ReadsAs s (u.number ++ 0#4) v
      ∧ ShowsMode (v.extractLsb' 0 2) (s.life u).mode ∧ v.extractLsb' 2 2 = 0
      ∧ ShowsErr (v.extractLsb' 4 4) (s.life u).err ∧ v.extractLsb' 8 24 = 0)
  ∧ (∀ s : State, ∃ v, ReadsAs s 0x40 v
      ∧ ShowsMode (v.extractLsb' 0 2) s.scg.life.mode ∧ v.extractLsb' 2 2 = 0
      ∧ ShowsErr (v.extractLsb' 4 4) s.scg.life.err
      ∧ (s.scg.run.fsm = .searching → v.extractLsb' 8 2 = 0)
      ∧ (s.scg.run.fsm = .candidate → v.extractLsb' 8 2 = 1)
      ∧ (s.scg.run.fsm = .emitting → v.extractLsb' 8 2 = 2)
      ∧ v.extractLsb' 10 22 = 0)

/-- COMMIT (40_system.md R112): ILLEGAL for UNIT 0 and above 8, CFGLOCK for a unit that is not
UNCONFIGURED, else RUNNING where the unit's checks pass and FAILED with the code where they do not;
nothing else changes. The checks are `CommitChecksDecideCode`. -/
def Obligations.CommitRule : Prop :=
  (∀ u : BitVec 4, decode (packWord 0x03 false 0 (u.setWidth 48)) = .ok (.commit u))
  ∧ (∀ (u : BitVec 4) (s : State), u = 0 ∨ 8 < u.toNat → exec (.commit u) s = .next (withIllegal s))
  ∧ (∀ (u : UnitId) (s : State), (s.life u).mode ≠ .unconfigured →
      exec (.commit u.number) s = .next (withCfglock s))
  ∧ (∀ (u : UnitId) (s : State), (s.life u).mode = .unconfigured → s.check u = .noError →
      exec (.commit u.number) s = .next (s.setLife u { mode := .running, err := (s.life u).err }))
  ∧ (∀ (u : UnitId) (s : State), (s.life u).mode = .unconfigured → s.check u ≠ .noError →
      exec (.commit u.number) s = .next (s.setLife u { mode := .failed, err := s.check u }))

/-- COMMIT's checks and their order (40_system.md R113, R114): the code of the first that fails. -/
def Obligations.CommitChecksDecideCode : Prop :=
  (∀ s : State, s.check .ham = .noError ∧ s.check .qam = .noError)
  ∧ (∀ s : State,
      let n := s.ilv.n.toNat
      let c := s.ilv.cols.toNat
      let w := s.ilv.w.toNat
      let zero := n = 0 ∨ c = 0 ∨ w = 0
      let range := n > 4096 ∨ c > n ∨ w > 8
      (zero → s.check .ilv = .zeroSize)
      ∧ (¬ zero → range → s.check .ilv = .range)
      ∧ (¬ zero → ¬ range → ¬ c ∣ n → s.check .ilv = .ilvShape)
      ∧ (¬ zero → ¬ range → c ∣ n → s.check .ilv = .noError))
  ∧ (∀ s : State,
      let f := s.scg.cfg.fftLen.toNat
      let cp := s.scg.cfg.cpLen.toNat
      let lo := s.scg.cfg.tLow.toNat
      let hi := s.scg.cfg.tHigh.toNat
      let ns := s.scg.cfg.nsym.toNat
      let mr := s.scg.cfg.maxRun.toNat
      let zero := f = 0 ∨ cp = 0 ∨ ns = 0 ∨ mr = 0
      let range := f > 4096 ∨ cp > f ∨ lo > 65535 ∨ hi > 65535 ∨ ns > 65535 ∨ mr > f
      (zero → s.check .scg = .zeroSize)
      ∧ (¬ zero → range → s.check .scg = .range)
      ∧ (¬ zero → ¬ range → ¬ 2 ∣ f → s.check .scg = .fftOdd)
      ∧ (¬ zero → ¬ range → 2 ∣ f → lo ≥ hi → s.check .scg = .threshOrder)
      ∧ (¬ zero → ¬ range → 2 ∣ f → lo < hi → s.check .scg = .noError))
  ∧ (∀ (s : State) (k : RpkId),
      let a := (s.rpk k).gIn.toNat
      let b := (s.rpk k).gOut.toNat
      let zero := a = 0 ∨ b = 0
      let range := a > 8 ∨ b > 8
      (zero → s.check (.rpk k) = .zeroSize)
      ∧ (¬ zero → range → s.check (.rpk k) = .range)
      ∧ (¬ zero → ¬ range → s.check (.rpk k) = .noError))

/-! ### What every step keeps -/

/-- A sticky bit that is set stays set through every step that is not a reset event (10_state.md R22,
60_exceptions.md R282). -/
def Obligations.StickyBitsClearedOnlyByReset : Prop :=
  ∀ s t : State, step s = .next t → resetsNext s = false →
    (s.flags.illegal = true → t.flags.illegal = true)
    ∧ (s.flags.notrun = true → t.flags.notrun = true)
    ∧ (s.flags.cfglock = true → t.flags.cfglock = true)

/-- MODE and CFGERR of a unit change, a reset event apart, only by COMMIT of that unit while it is
UNCONFIGURED, which leaves UNCONFIGURED (10_state.md R24, R25; 60_exceptions.md R284). -/
def Obligations.ModeLeavesByCommitOrReset : Prop :=
  ∀ (s t : State) (u : UnitId), step s = .next t → resetsNext s = false →
    t.life u = s.life u
    ∨ ((s.life u).mode = .unconfigured ∧ (t.life u).mode ≠ .unconfigured
        ∧ ∃ w rest, s.input = .word w :: rest ∧ decode w = .ok (.commit u.number))

/-- From COMMIT until reset the writable registers of a unit never change (40_system.md R118). -/
def Obligations.ConfigurationFrozenAfterCommit : Prop :=
  ∀ s t : State, step s = .next t → resetsNext s = false →
    (s.ilv.life.mode ≠ .unconfigured →
      t.ilv.n = s.ilv.n ∧ t.ilv.cols = s.ilv.cols ∧ t.ilv.w = s.ilv.w)
    ∧ (s.scg.life.mode ≠ .unconfigured → t.scg.cfg = s.scg.cfg)
    ∧ (∀ k : RpkId, (s.rpk k).life.mode ≠ .unconfigured →
        (t.rpk k).gIn = (s.rpk k).gIn ∧ (t.rpk k).gOut = (s.rpk k).gOut)

/-- Every data and flush operation of a unit that is not RUNNING raises NOTRUN and does nothing else, whatever
its operands; an invalid word raises ILLEGAL whatever the mode (60_exceptions.md R273). -/
def Obligations.DataRefusedWhenNotRunning : Prop :=
  (∀ (i : Instr) (u : UnitId) (d : Dir) (s : State), dataPort i = some (u, d) →
    (s.life u).mode ≠ .running → exec i s = .next (withNotrun s))
  ∧ (∀ (s : State) (w : Word) (rest : List Stimulus) (e : DecodeError), s.input = .word w :: rest →
      decode w = .error e → step s = .next (withIllegal { s with input := rest }))

/-- An over-wide item to a RUNNING unit is dropped whole with ILLEGAL (30_encoding.md R97); to a unit that
is not RUNNING the same item raises NOTRUN. -/
def Obligations.OverWideItemDropped : Prop :=
  (∀ (d : Dir) (x : BitVec 8) (tag : Tag) (s : State), OverWide x s.ilv.w →
      (s.ilv.life.mode = .running → exec (ilvItem d x tag) s = .next (withIllegal s))
      ∧ (s.ilv.life.mode ≠ .running → exec (ilvItem d x tag) s = .next (withNotrun s)))
  ∧ (∀ (k : RpkId) (g : BitVec 8) (tag : Tag) (s : State), OverWide g (s.rpk k).gIn →
      ((s.rpk k).life.mode = .running → exec (rpkItem k g tag) s = .next (withIllegal s))
      ∧ ((s.rpk k).life.mode ≠ .running → exec (rpkItem k g tag) s = .next (withNotrun s)))

/-- The frame of every data and flush operation (20_memory.md R68): it writes only its own unit's state
(for ILV only its direction's context), never a configuration register, MODE or CFGERR, and of the flags
only sets them. -/
def Obligations.DataOpTouchesOnlyItsUnit : Prop :=
  ∀ (i : Instr) (u : UnitId) (d : Dir) (s t : State), dataPort i = some (u, d) → exec i s = .next t →
    (∀ v : UnitId, t.life v = s.life v)
    ∧ (u ≠ .ilv → t.ilv = s.ilv)
    ∧ (t.ilv.n = s.ilv.n ∧ t.ilv.cols = s.ilv.cols ∧ t.ilv.w = s.ilv.w)
    ∧ (∀ d' : Dir, d' ≠ d → t.ilv.ctx d' = s.ilv.ctx d')
    ∧ (u ≠ .scg → t.scg = s.scg)
    ∧ t.scg.cfg = s.scg.cfg
    ∧ (∀ k : RpkId, u ≠ .rpk k → t.rpk k = s.rpk k)
    ∧ (∀ k : RpkId, (t.rpk k).gIn = (s.rpk k).gIn ∧ (t.rpk k).gOut = (s.rpk k).gOut)
    ∧ t.flags.cfglock = s.flags.cfglock
    ∧ (s.flags.illegal = true → t.flags.illegal = true)
    ∧ (s.flags.notrun = true → t.flags.notrun = true)

/-- Two data or flush operations for different units, or for the two directions of ILV, can be swapped
without changing the final state or any output stream (20_memory.md R68). -/
def Obligations.IndependentOperationsCommute : Prop :=
  ∀ (i j : Instr) (p q : UnitId × Dir) (s : State), dataPort i = some p → dataPort j = some q → p ≠ q →
    ∃ a b : State, performAll [i, j] s = some a ∧ performAll [j, i] s = some b
      ∧ { a with out := [] } = { b with out := [] }
      ∧ ∀ src : Stream, a.stream src = b.stream src

/-- A unit that COMMIT moves to RUNNING starts from the run state reset left (40_system.md R116). -/
def Obligations.CommitStartsFromResetRunState : Prop :=
  ∀ (s t : State) (u : UnitId), LifeInv s → exec (.commit u.number) s = .next t →
    (s.life u).mode = .unconfigured → (t.life u).mode = .running →
    (u = .ilv → t.ilv.Fresh) ∧ (u = .scg → t.scg.Fresh) ∧ (∀ k, u = .rpk k → (t.rpk k).Fresh)

/-- The invariants hold after reset (70_reset_and_hazards.md R301). -/
def Obligations.InvariantsHoldAtReset : Prop :=
  LifeInv State.reset ∧ IlvInv State.reset ∧ RpkInv State.reset ∧ ScgInv State.reset

/-- Every step keeps the life cycle in order: codes, checks and fresh run states fit MODE (10_state.md
R24, R25; 40_system.md R114, R116, R117). -/
def Obligations.LifeCycleKeptByStep : Prop :=
  ∀ s t : State, LifeInv s → step s = .next t → LifeInv t

/-- Every step keeps both interleaver contexts in order (10_state.md R29, 42_interleaver.md R153, R155,
R157). -/
def Obligations.IlvContextsKeptByStep : Prop :=
  ∀ s t : State, LifeInv s → IlvInv s → step s = .next t → IlvInv t

/-- Every step keeps the repackers in order: fewer than G_OUT bits are held (10_state.md R34, 45_repack.md
R256 item 1). -/
def Obligations.RepackersKeptByStep : Prop :=
  ∀ s t : State, LifeInv s → RpkInv s → step s = .next t → RpkInv t

/-- Every step keeps the gate's invariants between transactions (44_schmidl_cox.md R220, 10_state.md
R33). -/
def Obligations.GateKeptByStep : Prop :=
  ∀ s t : State, LifeInv s → ScgInv s → step s = .next t → ScgInv t

/-! ### HAM -/

/-- HAM_ENC (41_hamming.md R133, R136) by the table of R138. -/
def Obligations.HamEncFollowsTable : Prop :=
  (∀ (d : BitVec 4) (tag : Tag), Tag.WellFormed tag →
      decode (packTagged 0x10 tag (d.setWidth 48)) = .ok (.hamEnc d tag))
  ∧ (∀ (d : BitVec 4) (tag : Tag) (s : State), s.ham.mode = .running →
      exec (.hamEnc d tag) s
        = .next { s with out := s.out ++ [
            { src := .codewords, tag := tag, data := hamEncTable.getD d.toNat 0 }] })

/-- HAM_DEC (41_hamming.md R134, R136) by the two tables of R139. -/
def Obligations.HamDecFollowsTable : Prop :=
  (∀ c : BitVec 7, (hamSyndrome c).toNat = hamSynTable.getD c.toNat 0) ∧
  (∀ (c : BitVec 7) (tag : Tag), Tag.WellFormed tag →
      decode (packTagged 0x11 tag (c.setWidth 48)) = .ok (.hamDec c tag))
  ∧ (∀ (c : BitVec 7) (tag : Tag) (s : State), s.ham.mode = .running →
      exec (.hamDec c tag) s
        = .next { s with out := s.out ++ [
            { src := .nibbles, tag := tag, data := hamDecTable.getD c.toNat 0 }] })

/-- The laws of 41_hamming.md R137: round trip, single-error correction, distance 3, the decoder lands on
a codeword at distance at most 1, and two or more flips are always decoded wrong; with R135, the syndrome
of a single flip is its position. -/
def Obligations.HammingLaws : Prop :=
  (∀ v : BitVec 4, hamDecode (hamEncode v) = v)
  ∧ (∀ (v : BitVec 4) (p : Fin 7), hamDecode (hamEncode v ^^^ (1#7 <<< p.val)) = v
      ∧ (hamSyndrome (hamEncode v ^^^ (1#7 <<< p.val))).toNat = p.val + 1)
  ∧ (∀ v v' : BitVec 4, v ≠ v' →
      3 ≤ ((List.range 7).filter (fun i => (hamEncode v ^^^ hamEncode v').getLsbD i)).length)
  ∧ (∀ c : BitVec 7, ∃ v : BitVec 4,
      ((List.range 7).filter (fun i => (c ^^^ hamEncode v).getLsbD i)).length ≤ 1
      ∧ hamCorrect c = hamEncode v
      ∧ ∀ v' : BitVec 4,
          ((List.range 7).filter (fun i => (c ^^^ hamEncode v').getLsbD i)).length ≤ 1 → v' = v)
  ∧ (∀ (v : BitVec 4) (c : BitVec 7),
      2 ≤ ((List.range 7).filter (fun i => (c ^^^ hamEncode v).getLsbD i)).length → hamDecode c ≠ v)

/-! ### QAM -/

/-- QAM_MAP (43_qam.md R182, R184) by the table of R181. -/
def Obligations.QamMapFollowsTable : Prop :=
  (∀ (v : BitVec 2) (tag : Tag), Tag.WellFormed tag →
      decode (packTagged 0x30 tag (v.setWidth 48)) = .ok (.qamMap v tag))
  ∧ (∀ (v : BitVec 2) (tag : Tag) (s : State), s.qam.mode = .running →
      exec (.qamMap v tag) s
        = .next { s with out := s.out ++ [
            { src := .symbols, tag := tag, data := qamTable.getD v.toNat 0 }] })

/-- QAM_DEMAP (43_qam.md R183, R184): bit 1 is set exactly where re is negative, bit 0 where im is. -/
def Obligations.QamDemapTakesSigns : Prop :=
  (∀ (re im : Comp) (tag : Tag), Tag.WellFormed tag →
      decode (packTagged 0x31 tag (im ++ re)) = .ok (.qamDemap re im tag))
  ∧ (∀ (re im : Comp) (tag : Tag) (s : State), s.qam.mode = .running →
      exec (.qamDemap re im tag) s
        = .next { s with out := s.out ++ [
            { src := .groups, tag := tag, data := (if re.toInt < 0 then 2 else 0) + (if im.toInt < 0 then 1 else 0) }] })

/-- The laws of 43_qam.md R186: constant modulus (the deviation of |s|² from 1 below 10⁻⁶, so that of |s|
too), round trip, the sign rule is the nearest point off the axes, and the noise margin. -/
def Obligations.QamLaws : Prop :=
  (∀ v : BitVec 2,
      let m := (qamSymbol v).re.toInt ^ 2 + (qamSymbol v).im.toInt ^ 2
      m = 17592188408082 ∧ |m - 2 ^ 44| * 1000000 < 2 ^ 44)
  ∧ (∀ v : BitVec 2, qamGroup (qamSymbol v) = v)
  ∧ (∀ (r : Sample) (v : BitVec 2), r.re ≠ 0 → r.im ≠ 0 → v ≠ qamGroup r →
      (r.re.toInt - (qamSymbol (qamGroup r)).re.toInt) ^ 2
          + (r.im.toInt - (qamSymbol (qamGroup r)).im.toInt) ^ 2
        < (r.re.toInt - (qamSymbol v).re.toInt) ^ 2 + (r.im.toInt - (qamSymbol v).im.toInt) ^ 2)
  ∧ (∀ (v : BitVec 2) (r : Sample),
      |r.re.toInt - (qamSymbol v).re.toInt| < 2965821 → |r.im.toInt - (qamSymbol v).im.toInt| < 2965821 →
      qamGroup r = v)

/-! ### ILV -/

/-- π of 42_interleaver.md R151 and R152: a bijection on 0 .. N-1 with the inverse given there; a forward
block has item i at position π(i), an inverse block has item π(i) at position i; the two undo each other;
one column or N columns leave the order as it is. -/
def Obligations.PermutationIsBijection : Prop :=
  ∀ n c : Nat, 0 < n → 0 < c → c ∣ n →
    let r := n / c
    (∀ i, i < n → (i % c) * r + i / c < n
      ∧ ((i % c) * r + i / c) % r * c + ((i % c) * r + i / c) / r = i)
    ∧ (∀ j, j < n → (j % r) * c + j / r < n
      ∧ ((j % r) * c + j / r) % c * r + ((j % r) * c + j / r) / c = j)
    ∧ (∀ b : List (BitVec 8), b.length = n →
        (∀ i, i < n → (ilvPermute .fwd n c b)[(i % c) * r + i / c]? = b[i]?
          ∧ (ilvPermute .inv n c b)[i]? = b[(i % c) * r + i / c]?)
        ∧ ilvPermute .inv n c (ilvPermute .fwd n c b) = b
        ∧ ilvPermute .fwd n c (ilvPermute .inv n c b) = b)
    ∧ (c = 1 ∨ c = n → ∀ i, i < n → (i % c) * r + i / c = i)

/-- ILV_FWD and ILV_INV (42_interleaver.md R154 to R156). Without a tag: a tail item passes straight
through, an item that fills the block lets it leave permuted, any other item joins the block. A tag first
lets what is buffered pass through and opens its packet, then the item is taken as one without a tag. -/
def Obligations.IlvItemRule : Prop :=
  (∀ (x : BitVec 8) (tag : Tag), Tag.WellFormed tag →
      decode (packTagged 0x20 tag (x.setWidth 48)) = .ok (.ilvFwd x tag)
      ∧ decode (packTagged 0x21 tag (x.setWidth 48)) = .ok (.ilvInv x tag))
  ∧ ∀ (d : Dir) (x : BitVec 8) (s : State),
      s.ilv.life.mode = .running → s.ilv.check = .noError → ¬ OverWide x s.ilv.w →
      let v := s.ilv.ctx d
      let n := s.ilv.n.toNat
      let c := s.ilv.cols.toNat
      let rem' : TagLen := if v.rem = 0 then 0 else v.rem - 1
      let tail := v.buf = [] ∧ 0 < v.rem.toNat ∧ v.rem.toNat < n
      (tail → exec (ilvItem d x none) s
        = .next { s with ilv := s.ilv.setCtx d { buf := [], rem := rem', pend := none }
                         out := s.out ++ firstTagged d.stream v.pend [x.setWidth 48] })
      ∧ (¬ tail → v.buf.length + 1 = n →
          ∃ block : List (BitVec 8), block.length = n
            ∧ (∀ i, i < n →
                (d = .fwd → block[(i % c) * (n / c) + i / c]? = (v.buf ++ [x])[i]?)
                ∧ (d = .inv → block[i]? = (v.buf ++ [x])[(i % c) * (n / c) + i / c]?))
            ∧ exec (ilvItem d x none) s
              = .next { s with
                  ilv := s.ilv.setCtx d { buf := [], rem := rem', pend := none }
                  out := s.out ++ firstTagged d.stream v.pend (block.map (fun y => y.setWidth 48)) })
      ∧ (¬ tail → v.buf.length + 1 ≠ n →
          exec (ilvItem d x none) s
            = .next { s with
                ilv := s.ilv.setCtx d { buf := v.buf ++ [x], rem := rem', pend := v.pend } })
      ∧ (∀ l : TagLen, exec (ilvItem d x (some l)) s
          = exec (ilvItem d x none) { s with
              ilv := s.ilv.setCtx d { buf := [], rem := l, pend := some l }
              out := s.out ++ firstTagged d.stream v.pend (v.buf.map (fun y => y.setWidth 48)) })

/-- ILV_FLUSH_FWD and ILV_FLUSH_INV (42_interleaver.md R157, R158): what is buffered passes through and
the context returns to its reset state. -/
def Obligations.IlvFlushRule : Prop :=
  decode 0x280000000000000000000000 = .ok .ilvFlushFwd
  ∧ decode 0x290000000000000000000000 = .ok .ilvFlushInv
  ∧ ∀ (d : Dir) (s : State), s.ilv.life.mode = .running →
      let v := s.ilv.ctx d
      exec (ilvFlushOf d) s
        = .next { s with
            ilv := s.ilv.setCtx d { buf := [], rem := 0, pend := none }
            out := s.out ++ firstTagged d.stream v.pend (v.buf.map (fun y => y.setWidth 48)) }

/-- Tags keep their stream positions through either direction (42_interleaver.md R159). -/
def Obligations.IlvTagsKeepPosition : Prop :=
  ∀ (d : Dir) (s : State) (items : List (BitVec 8 × Tag)),
    s.ilv.life.mode = .running → s.ilv.check = .noError → s.ilv.ctx d = .reset →
    (∀ p ∈ items, ¬ OverWide p.1 s.ilv.w ∧ Tag.WellFormed p.2) →
    ∃ (t : State) (outs : List OutItem),
      performAll (items.map (fun p => ilvItem d p.1 p.2) ++ [ilvFlushOf d]) s = some t
      ∧ t.out = s.out ++ outs ∧ outs.map OutItem.tag = items.map Prod.snd

/-- The stream round trip (42_interleaver.md R160 item 3): any tagged stream sent through ILV_FWD and
flushed, its output sent item for item through ILV_INV and flushed, comes back as it was, tags included;
both contexts are fresh again, so the law repeats from flush to flush. -/
def Obligations.IlvStreamRoundTrip : Prop :=
  ∀ (s : State) (items : List (BitVec 8 × Tag)),
    s.ilv.life.mode = .running → s.ilv.check = .noError →
    s.ilv.fwd = .reset → s.ilv.inv = .reset →
    (∀ p ∈ items, ¬ OverWide p.1 s.ilv.w ∧ Tag.WellFormed p.2) →
    ∃ (t u : State) (outs : List OutItem),
      performAll (items.map (fun p => .ilvFwd p.1 p.2) ++ [.ilvFlushFwd]) s = some t
      ∧ t.out = s.out ++ outs
      ∧ performAll (outs.map (fun o => .ilvInv (o.data.setWidth 8) o.tag) ++ [.ilvFlushInv]) t = some u
      ∧ u.out = t.out ++ items.map (fun p =>
          { src := .deinterleaved, tag := p.2, data := p.1.setWidth 48 })
      ∧ u.ilv = s.ilv

/-! ### RPK -/

/-- RPKk_PUSH (45_repack.md R251 to R253, R255), all four instances. Without a tag: the group's bits join
the held ones, every complete output group leaves, least significant bit first, and the packet's last
group drops the residue. A tag first discards the held bits and opens its packet with the converted
length. -/
def Obligations.RpkPushRule : Prop :=
  (∀ (g : BitVec 8) (tag : Tag), Tag.WellFormed tag →
      decode (packTagged 0x50 tag (g.setWidth 48)) = .ok (.rpk0Push g tag)
      ∧ decode (packTagged 0x60 tag (g.setWidth 48)) = .ok (.rpk1Push g tag)
      ∧ decode (packTagged 0x70 tag (g.setWidth 48)) = .ok (.rpk2Push g tag)
      ∧ decode (packTagged 0x80 tag (g.setWidth 48)) = .ok (.rpk3Push g tag))
  ∧ ∀ (k : RpkId) (g : BitVec 8) (s : State),
      (s.rpk k).life.mode = .running → (s.rpk k).check = .noError → ¬ OverWide g (s.rpk k).gIn →
      let x := s.rpk k
      let a := x.gIn.toNat
      let b := x.gOut.toNat
      let bits := x.acc ++ (List.range a).map (fun i => g.getLsbD i)
      let m := bits.length / b
      (∃ items : List Data, items.length = m
        ∧ (∀ j, j < m → ∀ i, i < 48 →
            (items.getD j 0).getLsbD i = (decide (i < b) && bits.getD (j * b + i) false))
        ∧ exec (rpkItem k g none) s
          = .next { s.setRpk k { x with
                      acc := if x.rem = 1 then [] else bits.drop (m * b)
                      rem := if x.rem = 0 then 0 else x.rem - 1
                      pend := if x.rem = 1 ∨ m ≠ 0 then none else x.pend } with
                    out := s.out ++ firstTagged (.repacked k) x.pend items })
      ∧ (∀ l : TagLen, exec (rpkItem k g (some l)) s
          = exec (rpkItem k g none) (s.setRpk k { x with
              acc := []
              rem := l
              pend := if (l.toNat * a / b) % 2 ^ 32 = 0 then none
                      else some (BitVec.ofNat 32 (l.toNat * a / b)) }))

/-- RPKk_FLUSH (45_repack.md R254), all four instances: the residue is discarded. -/
def Obligations.RpkFlushRule : Prop :=
  decode 0x580000000000000000000000 = .ok .rpk0Flush
  ∧ decode 0x680000000000000000000000 = .ok .rpk1Flush
  ∧ decode 0x780000000000000000000000 = .ok .rpk2Flush
  ∧ decode 0x880000000000000000000000 = .ok .rpk3Flush
  ∧ ∀ (k : RpkId) (s : State), (s.rpk k).life.mode = .running →
      exec (rpkFlushOf k) s
        = .next (s.setRpk k { s.rpk k with acc := [], rem := 0, pend := none })

/-- Packets (45_repack.md R256 items 3, 4 and 6, R252): a packet of L groups taken whole gives
floor(L · G_IN / G_OUT) groups that hold the packet's first bits in order, the first one tagged with that
count where it is not 0; the rest is dropped, nothing is held, and nothing but the instance changes. -/
def Obligations.RpkPacketGivesItsBits : Prop :=
  ∀ (k : RpkId) (s : State) (g : BitVec 8) (gs : List (BitVec 8)),
    (s.rpk k).life.mode = .running → (s.rpk k).check = .noError →
    (∀ v ∈ g :: gs, ¬ OverWide v (s.rpk k).gIn) → gs.length + 1 < 2 ^ 32 →
    let x := s.rpk k
    let a := x.gIn.toNat
    let b := x.gOut.toNat
    let bits := (g :: gs).flatMap (fun v => (List.range a).map (fun i => v.getLsbD i))
    let m := (gs.length + 1) * a / b
    ∃ items : List Data, items.length = m
      ∧ items.flatMap (fun v => (List.range b).map (fun i => v.getLsbD i)) = bits.take (m * b)
      ∧ (∀ v ∈ items, v.toNat < 2 ^ b)
      ∧ performAll (rpkItem k g (some (BitVec.ofNat 32 (gs.length + 1)))
            :: gs.map (fun v => rpkItem k v none)) s
        = some { s.setRpk k { x with acc := [], rem := 0, pend := none } with
                 out := s.out ++ firstTagged (.repacked k)
                   (if m % 2 ^ 32 = 0 then none else some (BitVec.ofNat 32 m)) items }

/-- The repacker round trip (45_repack.md R256 item 5): an exact packet sent through an instance a→b and
its output through an instance b→a (where a = b it may be the same one) comes back unchanged, tag
included. -/
def Obligations.RpkRoundTrip : Prop :=
  ∀ (k k' : RpkId) (s : State) (g : BitVec 8) (gs : List (BitVec 8)),
    (s.rpk k).life.mode = .running → (s.rpk k).check = .noError →
    (s.rpk k').life.mode = .running → (s.rpk k').check = .noError →
    (s.rpk k').gIn = (s.rpk k).gOut → (s.rpk k').gOut = (s.rpk k).gIn →
    (∀ v ∈ g :: gs, ¬ OverWide v (s.rpk k).gIn) → gs.length + 1 < 2 ^ 32 →
    (s.rpk k).gOut.toNat ∣ (gs.length + 1) * (s.rpk k).gIn.toNat →
    (gs.length + 1) * (s.rpk k).gIn.toNat / (s.rpk k).gOut.toNat < 2 ^ 32 →
    ∃ (t u : State) (outs : List OutItem),
      performAll (rpkItem k g (some (BitVec.ofNat 32 (gs.length + 1)))
          :: gs.map (fun v => rpkItem k v none)) s = some t
      ∧ t.out = s.out ++ outs
      ∧ performAll (outs.map (fun o => rpkItem k' (o.data.setWidth 8) o.tag)) t = some u
      ∧ u.out = t.out ++ firstTagged (.repacked k') (some (BitVec.ofNat 32 (gs.length + 1)))
          ((g :: gs).map (fun v => v.setWidth 48))

/-! ### SCG: the metric -/

/-- P[n] and R[n] are the sums of 44_schmidl_cox.md R203 over the samples taken. -/
def Obligations.MetricIsTheSums : Prop :=
  ∀ (g : Scg) (n : Nat), n + g.cfg.fftLen.toNat ≤ g.run.hist.length →
    let L := g.cfg.fftLen.toNat / 2
    let re := fun j => (g.run.hist.getD j { re := 0, im := 0 }).re.toInt
    let im := fun j => (g.run.hist.getD j { re := 0, im := 0 }).im.toInt
    (g.P n).re = ∑ k ∈ Finset.range L, (re (n + k) * re (n + k + L) + im (n + k) * im (n + k + L))
    ∧ (g.P n).im = ∑ k ∈ Finset.range L, (re (n + k) * im (n + k + L) - im (n + k) * re (n + k + L))
    ∧ (g.R n : Int) = ∑ k ∈ Finset.range L, (re (n + k + L) ^ 2 + im (n + k + L) ^ 2)

/-- The sliding recurrence gives the same integers (44_schmidl_cox.md R209). -/
def Obligations.SlidingSumsAgree : Prop :=
  ∀ (hist : List Sample) (L n : Nat),
    let r := sampleAt hist
    (metricP hist L (n + 1)).re
      = (metricP hist L n).re - (conjMul (r n) (r (n + L))).re + (conjMul (r (n + L)) (r (n + 2 * L))).re
    ∧ (metricP hist L (n + 1)).im
      = (metricP hist L n).im - (conjMul (r n) (r (n + L))).im + (conjMul (r (n + L)) (r (n + 2 * L))).im
    ∧ metricR hist L (n + 1) + sampleEnergy (r (n + L))
      = metricR hist L n + sampleEnergy (r (n + 2 * L))

/-- Widths (44_schmidl_cox.md R207): a term of a sum is at most 2^47, the sums fit signed and unsigned 64 bits, the two sides of the
threshold test stay below 2^133 and those of the comparison of two metrics below 2^234. -/
def Obligations.MetricFitsWidths : Prop :=
  (∀ a b : Sample, |(conjMul a b).re| ≤ 2 ^ 47 ∧ |(conjMul a b).im| ≤ 2 ^ 47 ∧ sampleEnergy b ≤ 2 ^ 47)
  ∧ ∀ (hist : List Sample) (L n m : Nat) (t : Word32), L ≤ 2048 → t.toNat ≤ 65535 →
    let p := metricP hist L n
    let r := metricR hist L n
    let r' := metricR hist L m
    |p.re| ≤ 2 ^ 58 ∧ |p.im| ≤ 2 ^ 58 ∧ r ≤ 2 ^ 58
    ∧ p.normSq * 32768 < 2 ^ 133 ∧ t.toNat * r * r < 2 ^ 133
    ∧ p.normSq * r' * r' < 2 ^ 234

/-- The two comparisons decide M > T / 32768 and M_a > M_b exactly, without a division (44_schmidl_cox.md
R204 to R206); where R is 0, P is (0, 0) and no threshold is exceeded: silence. -/
def Obligations.ComparisonsDecideTheMetric : Prop :=
  (∀ (p : Corr) (r : Nat) (t : Word32), 0 < r →
      (exceeds p r t = true
        ↔ (t.toNat : ℚ) / 32768 < ((p.re : ℚ) ^ 2 + (p.im : ℚ) ^ 2) / (r : ℚ) ^ 2))
  ∧ (∀ (p q : Corr) (r r' : Nat), 0 < r → 0 < r' →
      (better p r q r' = true
        ↔ ((q.re : ℚ) ^ 2 + (q.im : ℚ) ^ 2) / (r' : ℚ) ^ 2
          < ((p.re : ℚ) ^ 2 + (p.im : ℚ) ^ 2) / (r : ℚ) ^ 2))
  ∧ (∀ (hist : List Sample) (L n : Nat) (t : Word32),
      let p := metricP hist L n
      let r := metricR hist L n
      (r = 0 → p = { re := 0, im := 0 } ∧ exceeds p r t = false)
      ∧ (exceeds p r t = true → 0 < r))

/-- What may be assumed of the metric (44_schmidl_cox.md R208): identical halves give P = (R, 0); a second
half that is the first rotated by i, -1 or -i gives (0, R), (-R, 0), (0, -R); and |P|² is at most the
product of the energies of the two half windows. -/
def Obligations.MetricOfRotatedHalves : Prop :=
  ∀ (hist : List Sample) (L n : Nat),
    let r := fun j => sampleAt hist j
    let p := metricP hist L n
    let e := (metricR hist L n : Int)
    let first := ((List.range L).map (fun k => sampleEnergy (r (n + k)))).sum
    ((∀ k, k < L → (r (n + k + L)).re.toInt = (r (n + k)).re.toInt
        ∧ (r (n + k + L)).im.toInt = (r (n + k)).im.toInt) → p = { re := e, im := 0 })
    ∧ ((∀ k, k < L → (r (n + k + L)).re.toInt = -(r (n + k)).im.toInt
        ∧ (r (n + k + L)).im.toInt = (r (n + k)).re.toInt) → p = { re := 0, im := e })
    ∧ ((∀ k, k < L → (r (n + k + L)).re.toInt = -(r (n + k)).re.toInt
        ∧ (r (n + k + L)).im.toInt = -(r (n + k)).im.toInt) → p = { re := -e, im := 0 })
    ∧ ((∀ k, k < L → (r (n + k + L)).re.toInt = (r (n + k)).im.toInt
        ∧ (r (n + k + L)).im.toInt = -(r (n + k)).re.toInt) → p = { re := 0, im := -e })
    ∧ p.normSq ≤ first * metricR hist L n

/-- ATAN2Q (44_schmidl_cox.md R229): its range, its exact values at the origin and on the axes, and its
error off the axes, whatever the free function is (log 4). -/
def Obligations.AngleMeetsContract : Prop :=
  (∀ y x : Int, -2 ^ 30 ≤ atan2Q y x ∧ atan2Q y x ≤ 2 ^ 30)
  ∧ atan2Q 0 0 = 0
  ∧ (∀ x : Int, 0 < x → atan2Q 0 x = 0)
  ∧ (∀ y : Int, 0 < y → atan2Q y 0 = 2 ^ 29)
  ∧ (∀ x : Int, x < 0 → atan2Q 0 x = 2 ^ 30)
  ∧ (∀ y : Int, y < 0 → atan2Q y 0 = -2 ^ 29)
  ∧ (∀ y x : Int, y ≠ 0 → x ≠ 0 →
      |(atan2Q y x : ℝ) - 2 ^ 30 * Complex.arg ⟨(x : ℝ), (y : ℝ)⟩ / Real.pi| ≤ 16384)

/-! ### SCG: one pass of the loop -/

/-- SEARCHING and CANDIDATE (44_schmidl_cox.md R216 to R219): a pass stops while the metric at n is not
computable; a search starts a run or goes on; a run goes on, keeping the first best index, until t_low is
not exceeded or it is full; a run whose best does not exceed t_high is given up, n unchanged. -/
def Obligations.GateSearchesAndTracksRuns : Prop :=
  ∀ g : Scg,
    let n := g.run.n
    let avail := n + g.cfg.fftLen.toNat ≤ g.run.pos
    let low := exceeds (g.P n) (g.R n) g.cfg.tLow
    let goesOn := low = true ∧ n - g.run.nFirst < g.cfg.maxRun.toNat
    let best := better (g.P n) (g.R n) g.run.bP g.run.bR
    (g.run.fsm ≠ .emitting → ¬ avail → g.pass = none)
    ∧ (g.run.fsm = .searching → avail → low = true →
        g.pass = some ({ g with run := { g.run with
          fsm := .candidate, nFirst := n, nBest := n, bP := g.P n, bR := g.R n, n := n + 1 } }, []))
    ∧ (g.run.fsm = .searching → avail → low = false →
        g.pass = some ({ g with run := { g.run with n := n + 1 } }, []))
    ∧ (g.run.fsm = .candidate → avail → goesOn → best = true →
        g.pass = some ({ g with run := { g.run with
          nBest := n, bP := g.P n, bR := g.R n, n := n + 1 } }, []))
    ∧ (g.run.fsm = .candidate → avail → goesOn → best = false →
        g.pass = some ({ g with run := { g.run with n := n + 1 } }, []))
    ∧ (g.run.fsm = .candidate → avail → ¬ goesOn → exceeds g.run.bP g.run.bR g.cfg.tHigh = false →
        g.pass = some ({ g with run := { g.run with fsm := .searching } }, []))

/-- Detection (44_schmidl_cox.md R219, R221 to R223): a run that ends with its best above t_high starts a
frame at its best index, writes the result registers and emits one metadata item. -/
def Obligations.GateDetectionWritesResults : Prop :=
  ∀ g : Scg, g.run.fsm = .candidate → g.run.n + g.cfg.fftLen.toNat ≤ g.run.pos →
    ¬ (exceeds (g.P g.run.n) (g.R g.run.n) g.cfg.tLow = true
        ∧ g.run.n - g.run.nFirst < g.cfg.maxRun.toNat) →
    exceeds g.run.bP g.run.bR g.cfg.tHigh = true →
    let b := g.run.nBest
    let cfo := BitVec.ofInt 32 (atan2Q g.run.bP.im g.run.bP.re)
    g.pass = some
      ({ g with
          run := { g.run with fsm := .emitting, start := b, e := b }
          res := { frames := g.res.frames + 1, start := BitVec.ofNat 32 b, cfo := cfo
                   pRe := BitVec.ofInt 64 g.run.bP.re, pIm := BitVec.ofInt 64 g.run.bP.im
                   r := BitVec.ofNat 64 g.run.bR } },
       [{ src := .metadata, tag := some (BitVec.ofNat 32 b), data := cfo.setWidth 48 }])

/-- EMITTING (44_schmidl_cox.md R224, R225, R227, R231): the sample at e leaves unchanged or, in a cyclic
prefix, is dropped; the first sample of a block carries its index as position tag; after the frame's last
sample the gate searches again from there; with no sample left the pass stops. -/
def Obligations.GateEmitsFrameSamples : Prop :=
  ∀ g : Scg, g.run.fsm = .emitting →
    let e := g.run.e
    let f := g.cfg.fftLen.toNat
    let cp := g.cfg.cpLen.toNat
    let off := e - g.run.start
    let q := (off - f) % (cp + f)
    let keep := off < f ∨ cp ≤ q
    let first := off = 0 ∨ (f ≤ off ∧ q = cp)
    let r := g.run.hist.getD e { re := 0, im := 0 }
    let items : List OutItem := if keep then
        [{ src := .gated, tag := if first then some (BitVec.ofNat 32 e) else none, data := r.im ++ r.re }]
      else []
    (g.run.pos ≤ e → g.pass = none)
    ∧ (e < g.run.pos → e + 1 ≠ g.run.start + (f + g.cfg.nsym.toNat * (cp + f)) →
        g.pass = some ({ g with run := { g.run with e := e + 1 } }, items))
    ∧ (e < g.run.pos → e + 1 = g.run.start + (f + g.cfg.nsym.toNat * (cp + f)) →
        g.pass = some ({ g with run := { g.run with fsm := .searching, n := e + 1, e := e + 1 } }, items))

/-- The offsets of a frame that are passed on (44_schmidl_cox.md R201, R226): the preamble and the bodies of
the SC_NSYM data symbols, in order, and the first of each block is the one that is tagged. -/
def Obligations.FrameOffsetsKept : Prop :=
  ∀ c : ScgCfg, c.check = .noError →
    let f := c.fftLen.toNat
    let cp := c.cpLen.toNat
    let block := fun j => if j = 0 then 0 else f + (j - 1) * (cp + f) + cp
    (List.range (f + c.nsym.toNat * (cp + f))).filterMap (fun o => (c.gateAt o).map (fun b => (o, b)))
      = (List.range (c.nsym.toNat + 1)).flatMap (fun j =>
          (List.range f).map (fun i => (block j + i, decide (i = 0))))

/-! ### SCG: transactions -/

/-- SCG_PUSH completes (44_schmidl_cox.md R215, R216): the sample joins the history and the loop of passes
runs until it stops by itself; nothing outside SCG and the output changes. -/
def Obligations.ScgPushRunsGateToItsStop : Prop :=
  (∀ re im : Comp, decode (packWord 0x40 false 0 (im ++ re)) = .ok (.scgPush re im))
  ∧ ∀ (re im : Comp) (s : State), LifeInv s → ScgInv s → s.scg.life.mode = .running →
      ∃ (g : Scg) (items : List OutItem),
        GateRuns { s.scg with run := { s.scg.run with
          hist := s.scg.run.hist ++ [{ re := re, im := im }], pos := s.scg.run.pos + 1 } } items g
        ∧ exec (.scgPush re im) s = .next { s with scg := g, out := s.out ++ items }

/-- SCG_FLUSH (44_schmidl_cox.md R232): ready for a new stream; the result registers are kept. -/
def Obligations.ScgFlushRule : Prop :=
  decode 0x480000000000000000000000 = .ok .scgFlush
  ∧ ∀ s : State, s.scg.life.mode = .running →
      exec .scgFlush s = .next { s with scg := { s.scg with run := { s.scg.run with
        pos := 0, hist := [], fsm := .searching, n := 0 } } }

/-- The result registers change, a reset event apart, only in an SCG_PUSH that emits a metadata item
(10_state.md R32, 44_schmidl_cox.md R222). -/
def Obligations.ResultsWrittenOnlyAtDetection : Prop :=
  ∀ s t : State, step s = .next t → resetsNext s = false →
    t.scg.res = s.scg.res
    ∨ ((∃ w rest re im, s.input = .word w :: rest ∧ decode w = .ok (.scgPush re im))
        ∧ ∃ o ∈ t.out.drop s.out.length, o.src = .metadata)

/-- The reported start (44_schmidl_cox.md R234, with R221, R222 and R207): a detection happens at the end of
a run and reports the earliest index of the run whose metric is the largest of the run; that metric exceeds
t_high; the result registers hold its exact values. -/
def Obligations.DetectionReportsEarliestBest : Prop :=
  ∀ (s t : State) (re im : Comp), LifeInv s → ScgInv s → s.scg.life.mode = .running →
    exec (.scgPush re im) s = .next t → t.scg.res.frames ≠ s.scg.res.frames →
    let g := s.scg
    let h := t.scg
    let b := h.run.start
    g.run.fsm = .candidate ∧ h.run.fsm = .emitting ∧ g.run.nFirst ≤ b ∧ b < g.run.n
    ∧ (exceeds (h.P g.run.n) (h.R g.run.n) g.cfg.tLow = false
        ∨ g.run.n - g.run.nFirst = g.cfg.maxRun.toNat)
    ∧ exceeds (h.P b) (h.R b) g.cfg.tHigh = true
    ∧ (∀ m, g.run.nFirst ≤ m → m < g.run.n →
        exceeds (h.P m) (h.R m) g.cfg.tLow = true
        ∧ better (h.P m) (h.R m) (h.P b) (h.R b) = false
        ∧ (m < b → better (h.P b) (h.R b) (h.P m) (h.R m) = true))
    ∧ h.res.frames = g.res.frames + 1 ∧ h.res.start = BitVec.ofNat 32 b
    ∧ h.res.cfo.toInt = atan2Q (h.P b).im (h.P b).re
    ∧ h.res.pRe.toInt = (h.P b).re ∧ h.res.pIm.toInt = (h.P b).im ∧ h.res.r.toNat = h.R b

/-- Silence is silent (44_schmidl_cox.md R233, 60_exceptions.md R277): a stream in which no metric exceeds
t_high, pushed from the start of a stream, emits nothing and detects nothing. -/
def Obligations.NoPreambleNoOutput : Prop :=
  ∀ (s : State) (rs : List Sample), LifeInv s → s.scg.life.mode = .running →
    s.scg.run.pos = 0 → s.scg.run.hist = [] → s.scg.run.fsm = .searching → s.scg.run.n = 0 →
    (∀ m, m + s.scg.cfg.fftLen.toNat ≤ rs.length →
      exceeds (metricP rs s.scg.cfg.half m) (metricR rs s.scg.cfg.half m) s.scg.cfg.tHigh = false) →
    ∃ t, performAll (rs.map (fun r => .scgPush r.re r.im)) s = some t
      ∧ t.out = s.out ∧ t.scg.res = s.scg.res ∧ t.flags = s.flags
      ∧ t.scg.run.hist = rs ∧ t.scg.run.pos = rs.length

/-- Emitted samples are input samples, bit for bit (44_schmidl_cox.md R231, R227). -/
def Obligations.EmittedSamplesAreInputSamples : Prop :=
  ∀ (s t : State) (re im : Comp), LifeInv s → ScgInv s → s.scg.life.mode = .running →
    exec (.scgPush re im) s = .next t →
    ∀ o ∈ t.out.drop s.out.length, o.src = .gated →
      ∃ (j : Nat) (r : Sample), t.scg.run.hist[j]? = some r ∧ o.data = r.im ++ r.re
        ∧ (o.tag = none ∨ o.tag = some (BitVec.ofNat 32 j))

/-- A frame completes (44_schmidl_cox.md R224 to R226): pushing the samples that the frame being emitted
still lacks emits exactly those of them that belong to the preamble or a symbol body, tagged as
`FrameOffsetsKept` says, and the gate then searches from the frame's end. -/
def Obligations.FrameCompletes : Prop :=
  ∀ (s : State) (rs : List Sample), LifeInv s → ScgInv s → s.scg.life.mode = .running →
    s.scg.run.fsm = .emitting →
    s.scg.run.pos + rs.length = s.scg.run.start + s.scg.cfg.frameLen →
    let g := s.scg
    ∃ t, performAll (rs.map (fun r => .scgPush r.re r.im)) s = some t
      ∧ t.scg.run.fsm = .searching ∧ t.scg.run.n = g.run.start + g.cfg.frameLen
      ∧ t.scg.run.pos = t.scg.run.n ∧ t.scg.res = g.res
      ∧ t.out = s.out ++ rs.zipIdx.filterMap (fun p =>
          (g.cfg.gateAt (g.run.pos + p.2 - g.run.start)).map (fun first =>
            { src := .gated
              tag := if first then some (BitVec.ofNat 32 (g.run.pos + p.2)) else none
              data := p.1.im ++ p.1.re }))
end

