-- ==== Sys2Proof/Laws/Decode.lean ====
section
/-! SUPPORT. The fields of a packed word, and the rows of the opcode table. -/

namespace Sys2Proof

/-! ### The positions of R80 as numbers -/

theorem opcOf_eq (w : Word) : opcOf w = w.extractLsb' 88 8 := rfl

theorem tagBitOf_eq (w : Word) : tagBitOf w = w.getLsbD 87 := rfl

theorem zeroOf_eq_zero_iff (w : Word) : zeroOf w = 0 ↔ w.extractLsb' 80 7 = 0 := Iff.rfl

theorem tagLenOf_eq (w : Word) : tagLenOf w = w.extractLsb' 48 32 := rfl

theorem dataOf_eq (w : Word) : dataOf w = w.extractLsb' 0 48 := rfl

/-- One bit of a placed field. -/
theorem getLsbD_place {w n : Nat} (lo : Nat) (x : BitVec w) (i : Nat) :
    (place lo x : BitVec n).getLsbD i = (decide (i < n) && !decide (i < lo) && x.getLsbD (i - lo)) := by
  unfold place
  rw [BitVec.getLsbD_shiftLeft, BitVec.getLsbD_setWidth]
  by_cases h : i < n
  · simp [h, show i - lo < n by omega]
  · simp [h]

@[simp] theorem place_zero {w n : Nat} (x : BitVec w) : (place 0 x : BitVec n) = x.setWidth n := by
  simp [place]

theorem itemOf_eq {w : Nat} (d : Data) : itemOf d = d.extractLsb' 0 w := rfl

theorem unitOf_eq (d : Data) : unitOf d = d.extractLsb' 0 4 := rfl

theorem addrOf_eq (d : Data) : addrOf d = d.extractLsb' 40 8 := rfl

theorem valueOf_eq (d : Data) : valueOf d = d.extractLsb' 0 32 := rfl

theorem reOf_eq (d : Data) : reOf d = d.extractLsb' 0 24 := rfl

theorem imOf_eq (d : Data) : imOf d = d.extractLsb' 24 24 := rfl

theorem itemData_eq {w : Nat} (x : BitVec w) : itemData x = x.setWidth 48 := place_zero x

theorem unitData_eq (u : UnitNum) : unitData u = u.setWidth 48 := place_zero u

/-! ### The rows of the opcode table -/

/-- The column OPC of R85. -/
theorem Op.code_eq (o : Op) :
    o.code = match o with
      | .cfgWr => 0x01 | .cfgRd => 0x02 | .commit => 0x03 | .reset => 0x04
      | .hamEnc => 0x10 | .hamDec => 0x11
      | .ilvFwd => 0x20 | .ilvInv => 0x21 | .ilvFlushFwd => 0x28 | .ilvFlushInv => 0x29
      | .qamMap => 0x30 | .qamDemap => 0x31
      | .scgPush => 0x40 | .scgFlush => 0x48
      | .rpk0Push => 0x50 | .rpk0Flush => 0x58 | .rpk1Push => 0x60 | .rpk1Flush => 0x68
      | .rpk2Push => 0x70 | .rpk2Flush => 0x78 | .rpk3Push => 0x80 | .rpk3Flush => 0x88 := by
  cases o <;> decide

/-- The column "Takes TAG" of R85. -/
theorem Op.takesTag_eq (o : Op) :
    o.takesTag = match o with
      | .hamEnc | .hamDec | .ilvFwd | .ilvInv | .qamMap | .qamDemap => true
      | .rpk0Push | .rpk1Push | .rpk2Push | .rpk3Push => true
      | _ => false := by
  cases o <;> rfl

/-- The DATA patterns of R82, R83 and R86, row by row. -/
theorem Op.dataMask_eq (o : Op) :
    o.dataMask = match o with
      | .cfgWr => 0xFF00FFFFFFFF#48
      | .cfgRd => 0xFF0000000000#48
      | .commit => 0xF#48
      | .hamEnc => 0xF#48
      | .hamDec => 0x7F#48
      | .ilvFwd | .ilvInv | .rpk0Push | .rpk1Push | .rpk2Push | .rpk3Push => 0xFF#48
      | .qamMap => 0x3#48
      | .qamDemap | .scgPush => 0xFFFFFFFFFFFF#48
      | _ => 0#48 := by
  cases o <;> decide

/-! ### A packed word -/

/-- One bit of a packed word (R80). -/
theorem getLsbD_packWord (o : Opcode) (t : Bool) (l : TagLen) (d : Data) (i : Nat) :
    (packWord o t l d).getLsbD i =
      if i < 48 then d.getLsbD i
      else if i < 80 then l.getLsbD (i - 48)
      else if i < 87 then false
      else if i < 88 then (BitVec.ofBool t).getLsbD (i - 87)
      else o.getLsbD (i - 88) := by
  simp only [packWord, BitVec.getLsbD_or, getLsbD_place, Config.opcLo, Config.tagPos, Config.tagLenLo,
    Config.dataLo, Config.dataW, Config.wordW, Config.opcW]
  by_cases h1 : i < 48
  · simp [h1, show i < 96 by omega, show i < 88 by omega, show i < 87 by omega]
  have hd : d.getLsbD i = false := BitVec.getLsbD_of_ge d i (by omega)
  by_cases h2 : i < 80
  · simp [hd, h1, h2, show i < 96 by omega, show i < 88 by omega, show i < 87 by omega]
  have hl : l.getLsbD (i - 48) = false := BitVec.getLsbD_of_ge l _ (by omega)
  by_cases h3 : i < 87
  · simp [hd, hl, h1, h2, h3, show i < 88 by omega]
  by_cases h4 : i < 88
  · obtain rfl : i = 87 := by omega
    simp
  have ht : (BitVec.ofBool t).getLsbD (i - 87) = false := BitVec.getLsbD_of_ge _ _ (by omega)
  by_cases h5 : i < 96
  · simp [hd, hl, ht, h1, h2, h3, h4, h5]
  · simp [h1, h2, h3, h4, h5, BitVec.getLsbD_of_ge o (i - 88) (by omega)]

@[simp] theorem opcOf_packWord (o : Opcode) (t : Bool) (l : TagLen) (d : Data) :
    opcOf (packWord o t l d) = o := by
  apply BitVec.eq_of_getLsbD_eq
  intro i hi
  rw [opcOf_eq, BitVec.getLsbD_extractLsb', getLsbD_packWord]
  simp only [hi, show ¬ (88 + i < 48) by omega, show ¬ (88 + i < 80) by omega,
    show ¬ (88 + i < 87) by omega, show ¬ (88 + i < 88) by omega, if_false,
    show 88 + i - 88 = i by omega, decide_true, Bool.true_and]

@[simp] theorem zeroOf_packWord (o : Opcode) (t : Bool) (l : TagLen) (d : Data) :
    zeroOf (packWord o t l d) = 0 := by
  rw [zeroOf_eq_zero_iff]
  apply BitVec.eq_of_getLsbD_eq
  intro i hi
  rw [BitVec.getLsbD_extractLsb', getLsbD_packWord]
  simp [hi, show ¬ (80 + i < 48) by omega, show 80 + i < 87 by omega]

@[simp] theorem tagBitOf_packWord (o : Opcode) (t : Bool) (l : TagLen) (d : Data) :
    tagBitOf (packWord o t l d) = t := by
  rw [tagBitOf_eq, getLsbD_packWord]
  simp

@[simp] theorem tagLenOf_packWord (o : Opcode) (t : Bool) (l : TagLen) (d : Data) :
    tagLenOf (packWord o t l d) = l := by
  apply BitVec.eq_of_getLsbD_eq
  intro i hi
  rw [tagLenOf_eq, BitVec.getLsbD_extractLsb', getLsbD_packWord]
  simp [hi, show ¬ (48 + i < 48) by omega, show 48 + i < 80 by omega]

@[simp] theorem dataOf_packWord (o : Opcode) (t : Bool) (l : TagLen) (d : Data) :
    dataOf (packWord o t l d) = d := by
  apply BitVec.eq_of_getLsbD_eq
  intro i hi
  rw [dataOf_eq, BitVec.getLsbD_extractLsb', getLsbD_packWord]
  simp [hi]

/-! ### DATA, bit by bit -/

theorem getLsbD_itemData {w : Nat} (x : BitVec w) (i : Nat) :
    (itemData x).getLsbD i = (decide (i < 48) && x.getLsbD i) := by
  rw [itemData_eq, BitVec.getLsbD_setWidth]

theorem getLsbD_regData (a : Addr) (v : Word32) (i : Nat) :
    (regData a v).getLsbD i =
      if i < 32 then v.getLsbD i else if i < 40 then false else a.getLsbD (i - 40) := by
  simp only [regData, BitVec.getLsbD_or, getLsbD_place, Config.addrLo, Config.valueLo, Config.dataW,
    Config.addrW]
  by_cases h : i < 32
  · simp [h, show i < 48 by omega, show i < 40 by omega]
  have hv : v.getLsbD i = false := BitVec.getLsbD_of_ge v i (by omega)
  by_cases h2 : i < 40
  · simp [hv, h, h2]
  by_cases h3 : i < 48
  · simp [hv, h, h2, h3]
  · simp [h, h2, h3, BitVec.getLsbD_of_ge a (i - 40) (by omega)]

theorem getLsbD_packSample (re im : Comp) (i : Nat) :
    (packSample re im).getLsbD i = if i < 24 then re.getLsbD i else im.getLsbD (i - 24) := by
  simp only [packSample, BitVec.getLsbD_or, getLsbD_place, Config.reLo, Config.imLo, Config.sampleW]
  by_cases h : i < 24
  · simp [h, show i < 48 by omega]
  have hr : re.getLsbD i = false := BitVec.getLsbD_of_ge re i (by omega)
  by_cases h2 : i < 48
  · simp [hr, h, h2]
  · simp [h, h2, BitVec.getLsbD_of_ge im (i - 24) (by omega)]

/-- DATA[31:0] = twos_32(CFO_Q), the rest 0 (44_schmidl_cox.md R223). -/
theorem cfoData_eq (cfo : Int) : cfoData cfo = (0#16 ++ BitVec.ofInt 32 cfo : BitVec 48) := by
  apply BitVec.eq_of_getLsbD_eq
  intro i hi
  simp only [cfoData, place, BitVec.getLsbD_append, BitVec.getLsbD_setWidth, BitVec.getLsbD_shiftLeft,
    Config.cfoLo, Config.cfoW, hi]
  split <;> simp_all

theorem regData_eq (a : Addr) (v : Word32) : regData a v = a ++ 0#8 ++ v := by
  apply BitVec.eq_of_getLsbD_eq
  intro i hi
  rw [getLsbD_regData]
  simp only [BitVec.getLsbD_append]
  by_cases h : i < 32
  · simp [h]
  · by_cases h2 : i < 40
    · simp [h, h2]; omega
    · simp [h, h2, show ¬ (i - 32 < 8) by omega, show i - 32 - 8 = i - 40 by omega]

theorem packSample_eq (re im : Comp) : packSample re im = im ++ re := by
  apply BitVec.eq_of_getLsbD_eq
  intro i hi
  rw [getLsbD_packSample, BitVec.getLsbD_append]

@[simp] theorem reOf_packSample (re im : Comp) : reOf (packSample re im) = re := by
  apply BitVec.eq_of_getLsbD_eq
  intro i hi
  rw [reOf_eq, BitVec.getLsbD_extractLsb', getLsbD_packSample]
  simp [hi]

@[simp] theorem imOf_packSample (re im : Comp) : imOf (packSample re im) = im := by
  apply BitVec.eq_of_getLsbD_eq
  intro i hi
  rw [imOf_eq, BitVec.getLsbD_extractLsb', getLsbD_packSample]
  simp [hi]

/-! ### A word as its parts -/

theorem packWord_eq (o : Opcode) (t : Bool) (l : TagLen) (d : Data) :
    packWord o t l d = o ++ BitVec.ofBool t ++ 0#7 ++ l ++ d := by
  apply BitVec.eq_of_getLsbD_eq
  intro i hi
  rw [getLsbD_packWord]
  simp only [BitVec.getLsbD_append]
  by_cases h1 : i < 48
  · simp [h1]
  by_cases h2 : i < 80
  · simp [h1, h2, show i - 48 < 32 by omega]
  by_cases h3 : i < 87
  · simp [h1, h2, h3, show ¬ (i - 48 < 32) by omega, show i - 48 - 32 < 7 by omega]
  by_cases h4 : i < 88
  · obtain rfl : i = 87 := by omega
    simp
  · simp only [h1, h2, h3, h4, show ¬ (i - 48 < 32) by omega, show ¬ (i - 48 - 32 < 7) by omega,
      show ¬ (i - 48 - 32 - 7 < 1) by omega, show i - 48 - 32 - 7 - 1 = i - 88 by omega, if_false]

/-! ### Finding a row -/

/-- Every row is found by its code. -/
@[simp] theorem Op.ofCode_code (o : Op) : Op.ofCode o.code = some o := by
  cases o <;> decide

/-- A code finds only a row that has it. -/
theorem Op.code_of_ofCode {c : Opcode} {o : Op} (h : Op.ofCode c = some o) : o.code = c := by
  have := List.find?_some h
  simpa using this

/-- An operation of a row that takes no tag carries none. -/
theorem Instr.tag_of_not_takesTag (i : Instr) (h : i.op.takesTag = false) : i.tag = none := by
  rw [Op.takesTag_eq] at h
  cases i <;> simp_all [Instr.op, Instr.tag]

end Sys2Proof
end

