-- ==== Sys2Proof/Laws/State.lean ====
section
/-! SUPPORT. One lemma per field per update of State, so that no proof unfolds a record update. -/

namespace Sys2Proof.Machine

/-! ### `emit` -/

@[simp] theorem emit_flags (s : State) (l : List OutItem) : (s.emit l).flags = s.flags := rfl
@[simp] theorem emit_ham (s : State) (l : List OutItem) : (s.emit l).ham = s.ham := rfl
@[simp] theorem emit_ilv (s : State) (l : List OutItem) : (s.emit l).ilv = s.ilv := rfl
@[simp] theorem emit_qam (s : State) (l : List OutItem) : (s.emit l).qam = s.qam := rfl
@[simp] theorem emit_scg (s : State) (l : List OutItem) : (s.emit l).scg = s.scg := rfl
@[simp] theorem emit_rpks (s : State) (l : List OutItem) : (s.emit l).rpks = s.rpks := rfl
@[simp] theorem emit_input (s : State) (l : List OutItem) : (s.emit l).input = s.input := rfl
@[simp] theorem emit_out (s : State) (l : List OutItem) : (s.emit l).out = s.out ++ l := rfl
@[simp] theorem emit_rpk (s : State) (l : List OutItem) (k : RpkId) : (s.emit l).rpk k = s.rpk k := rfl
@[simp] theorem emit_life (s : State) (l : List OutItem) (u : UnitId) : (s.emit l).life u = s.life u := by
  cases u <;> simp [State.life]

/-! ### `setRpk` -/

@[simp] theorem setRpk_flags (s : State) (k : RpkId) (x : Rpk) : (s.setRpk k x).flags = s.flags := rfl
@[simp] theorem setRpk_ham (s : State) (k : RpkId) (x : Rpk) : (s.setRpk k x).ham = s.ham := rfl
@[simp] theorem setRpk_ilv (s : State) (k : RpkId) (x : Rpk) : (s.setRpk k x).ilv = s.ilv := rfl
@[simp] theorem setRpk_qam (s : State) (k : RpkId) (x : Rpk) : (s.setRpk k x).qam = s.qam := rfl
@[simp] theorem setRpk_scg (s : State) (k : RpkId) (x : Rpk) : (s.setRpk k x).scg = s.scg := rfl
@[simp] theorem setRpk_input (s : State) (k : RpkId) (x : Rpk) : (s.setRpk k x).input = s.input := rfl
@[simp] theorem setRpk_out (s : State) (k : RpkId) (x : Rpk) : (s.setRpk k x).out = s.out := rfl
@[simp] theorem setRpk_rpk_same (s : State) (k : RpkId) (x : Rpk) : (s.setRpk k x).rpk k = x := by
  simp [State.setRpk, State.rpk]
theorem setRpk_rpk_other (s : State) (k j : RpkId) (x : Rpk) (h : j ≠ k) :
    (s.setRpk k x).rpk j = s.rpk j := by
  simp only [State.setRpk, State.rpk, Fin.getElem_fin]
  exact Vector.getElem_set_ne _ _ (fun e => h (Fin.ext e.symm))
@[simp] theorem setRpk_self (s : State) (k : RpkId) : s.setRpk k (s.rpk k) = s := by
  simp [State.setRpk, State.rpk]
theorem setRpk_setRpk (s : State) (k : RpkId) (x y : Rpk) :
    (s.setRpk k x).setRpk k y = s.setRpk k y := by
  simp [State.setRpk]
theorem setRpk_comm (s : State) (k j : RpkId) (x y : Rpk) (h : j ≠ k) :
    (s.setRpk k x).setRpk j y = (s.setRpk j y).setRpk k x := by
  simp only [State.setRpk]
  rw [Vector.set_comm _ _ (fun e => h (Fin.ext e.symm))]

/-! ### `setLife` -/

@[simp] theorem setLife_flags (s : State) (u : UnitId) (l : Life) : (s.setLife u l).flags = s.flags := by
  cases u <;> simp [State.setLife]
@[simp] theorem setLife_input (s : State) (u : UnitId) (l : Life) : (s.setLife u l).input = s.input := by
  cases u <;> simp [State.setLife]
@[simp] theorem setLife_out (s : State) (u : UnitId) (l : Life) : (s.setLife u l).out = s.out := by
  cases u <;> simp [State.setLife]
@[simp] theorem setLife_life_same (s : State) (u : UnitId) (l : Life) : (s.setLife u l).life u = l := by
  cases u <;> simp [State.setLife, State.life]
theorem setLife_life_other (s : State) (u v : UnitId) (l : Life) (h : v ≠ u) :
    (s.setLife u l).life v = s.life v := by
  cases u <;> cases v <;> simp_all [State.setLife, State.life, State.rpk]
  rename_i k j
  exact congrArg Rpk.life (setRpk_rpk_other s k j _ h)

/-! ### ILV contexts -/

@[simp] theorem setCtx_life (v : Ilv) (d : Dir) (c : IlvCtx) : (v.setCtx d c).life = v.life := by
  cases d <;> rfl
@[simp] theorem setCtx_n (v : Ilv) (d : Dir) (c : IlvCtx) : (v.setCtx d c).n = v.n := by
  cases d <;> rfl
@[simp] theorem setCtx_cols (v : Ilv) (d : Dir) (c : IlvCtx) : (v.setCtx d c).cols = v.cols := by
  cases d <;> rfl
@[simp] theorem setCtx_w (v : Ilv) (d : Dir) (c : IlvCtx) : (v.setCtx d c).w = v.w := by
  cases d <;> rfl
@[simp] theorem setCtx_ctx_same (v : Ilv) (d : Dir) (c : IlvCtx) : (v.setCtx d c).ctx d = c := by
  cases d <;> rfl
theorem setCtx_ctx_other (v : Ilv) (d d' : Dir) (c : IlvCtx) (h : d' ≠ d) :
    (v.setCtx d c).ctx d' = v.ctx d' := by
  cases d <;> cases d' <;> first | rfl | exact absurd rfl h

/-! ### The sticky conditions and reset -/

@[simp] theorem raise_illegal_ham (s : State) : (raise .illegal s).ham = s.ham := rfl
@[simp] theorem raise_illegal_ilv (s : State) : (raise .illegal s).ilv = s.ilv := rfl
@[simp] theorem raise_illegal_qam (s : State) : (raise .illegal s).qam = s.qam := rfl
@[simp] theorem raise_illegal_scg (s : State) : (raise .illegal s).scg = s.scg := rfl
@[simp] theorem raise_illegal_rpks (s : State) : (raise .illegal s).rpks = s.rpks := rfl
@[simp] theorem raise_illegal_input (s : State) : (raise .illegal s).input = s.input := rfl
@[simp] theorem raise_illegal_out (s : State) : (raise .illegal s).out = s.out := rfl
@[simp] theorem raise_illegal_flags_illegal (s : State) :
    (raise .illegal s).flags.illegal = true := rfl
@[simp] theorem raise_illegal_flags_notrun (s : State) :
    (raise .illegal s).flags.notrun = s.flags.notrun := rfl
@[simp] theorem raise_illegal_flags_cfglock (s : State) :
    (raise .illegal s).flags.cfglock = s.flags.cfglock := rfl
@[simp] theorem raise_notrun_ham (s : State) : (raise .notrun s).ham = s.ham := rfl
@[simp] theorem raise_notrun_ilv (s : State) : (raise .notrun s).ilv = s.ilv := rfl
@[simp] theorem raise_notrun_qam (s : State) : (raise .notrun s).qam = s.qam := rfl
@[simp] theorem raise_notrun_scg (s : State) : (raise .notrun s).scg = s.scg := rfl
@[simp] theorem raise_notrun_rpks (s : State) : (raise .notrun s).rpks = s.rpks := rfl
@[simp] theorem raise_notrun_input (s : State) : (raise .notrun s).input = s.input := rfl
@[simp] theorem raise_notrun_out (s : State) : (raise .notrun s).out = s.out := rfl
@[simp] theorem raise_notrun_flags_illegal (s : State) :
    (raise .notrun s).flags.illegal = s.flags.illegal := rfl
@[simp] theorem raise_notrun_flags_notrun (s : State) :
    (raise .notrun s).flags.notrun = true := rfl
@[simp] theorem raise_notrun_flags_cfglock (s : State) :
    (raise .notrun s).flags.cfglock = s.flags.cfglock := rfl
@[simp] theorem raise_cfglock_ham (s : State) : (raise .cfglock s).ham = s.ham := rfl
@[simp] theorem raise_cfglock_ilv (s : State) : (raise .cfglock s).ilv = s.ilv := rfl
@[simp] theorem raise_cfglock_qam (s : State) : (raise .cfglock s).qam = s.qam := rfl
@[simp] theorem raise_cfglock_scg (s : State) : (raise .cfglock s).scg = s.scg := rfl
@[simp] theorem raise_cfglock_rpks (s : State) : (raise .cfglock s).rpks = s.rpks := rfl
@[simp] theorem raise_cfglock_input (s : State) : (raise .cfglock s).input = s.input := rfl
@[simp] theorem raise_cfglock_out (s : State) : (raise .cfglock s).out = s.out := rfl
@[simp] theorem raise_cfglock_flags_illegal (s : State) :
    (raise .cfglock s).flags.illegal = s.flags.illegal := rfl
@[simp] theorem raise_cfglock_flags_notrun (s : State) :
    (raise .cfglock s).flags.notrun = s.flags.notrun := rfl
@[simp] theorem raise_cfglock_flags_cfglock (s : State) :
    (raise .cfglock s).flags.cfglock = true := rfl
@[simp] theorem resetCore_flags (s : State) : (resetCore s).flags = State.reset.flags := rfl
@[simp] theorem resetCore_ham (s : State) : (resetCore s).ham = State.reset.ham := rfl
@[simp] theorem resetCore_ilv (s : State) : (resetCore s).ilv = State.reset.ilv := rfl
@[simp] theorem resetCore_qam (s : State) : (resetCore s).qam = State.reset.qam := rfl
@[simp] theorem resetCore_scg (s : State) : (resetCore s).scg = State.reset.scg := rfl
@[simp] theorem resetCore_rpks (s : State) : (resetCore s).rpks = State.reset.rpks := rfl
@[simp] theorem resetCore_input (s : State) : (resetCore s).input = s.input := rfl
@[simp] theorem resetCore_out (s : State) : (resetCore s).out = s.out := rfl

end Sys2Proof.Machine
end

