-- ==== Sys2Proof/Laws/Ops.lean ====
section
/-! SUPPORT. For each shared operation, one lemma that says everything it can do. -/

namespace Sys2Proof.Machine

/-! ### The common frame (R120) -/

theorem framed_of_not_running {u : UnitId} {wide : Bool} {body : State → State} {s : State}
    (h : (s.life u).mode ≠ .running) : framed u wide body s = raise .notrun s := by
  simp [framed, h]

theorem framed_of_wide {u : UnitId} {body : State → State} {s : State}
    (h : (s.life u).mode = .running) : framed u true body s = raise .illegal s := by
  simp [framed, h]

theorem framed_of_running {u : UnitId} {body : State → State} {s : State}
    (h : (s.life u).mode = .running) : framed u false body s = body s := by
  simp [framed, h]

/-- All the frame can do: refuse for the mode, refuse for the width, or run the body. -/
theorem framed_cases (u : UnitId) (wide : Bool) (body : State → State) (s : State) :
    ((s.life u).mode ≠ .running ∧ framed u wide body s = raise .notrun s)
    ∨ ((s.life u).mode = .running ∧ wide = true ∧ framed u wide body s = raise .illegal s)
    ∨ ((s.life u).mode = .running ∧ wide = false ∧ framed u wide body s = body s) := by
  by_cases h : (s.life u).mode = .running
  · cases wide
    · exact .inr (.inr ⟨h, rfl, framed_of_running h⟩)
    · exact .inr (.inl ⟨h, rfl, framed_of_wide h⟩)
  · exact .inl ⟨h, framed_of_not_running h⟩

/-! ### Raising (R281) -/

/-- Raising a sticky condition changes the flags alone. -/
theorem raise_sticky (c : Condition) (s : State) (h : ∀ u e, c ≠ .cfgerr u e) :
    raise c s = { s with flags := (raise c s).flags } := by
  cases c <;> first | rfl | exact absurd rfl (h _ _)

/-! ### Fetch -/

/-- All a fetch can do: find nothing, or take the first stimulus. -/
theorem fetch_cases (s : State) :
    (s.input = [] ∧ fetch s = none)
    ∨ ∃ x rest, s.input = x :: rest ∧ fetch s = some (x, { s with input := rest }) := by
  unfold fetch
  split
  · exact .inl ⟨by assumption, rfl⟩
  · exact .inr ⟨_, _, by assumption, rfl⟩

/-! ### Emission (R154) -/

@[simp] theorem tagFirst_nil (src : Stream) (p : Tag) : tagFirst src p [] = [] := rfl

@[simp] theorem tagFirst_cons (src : Stream) (p : Tag) (v : Data) (vs : List Data) :
    tagFirst src p (v :: vs) = { src := src, tag := p, data := v } :: tagFirst src none vs := rfl

@[simp] theorem tagFirst_length (src : Stream) (p : Tag) (vs : List Data) :
    (tagFirst src p vs).length = vs.length := by
  induction vs generalizing p with
  | nil => rfl
  | cons v vs ih => simp [ih]

/-- Every item of an emission is on its stream. -/
theorem tagFirst_src (src : Stream) (p : Tag) (vs : List Data) :
    ∀ o ∈ tagFirst src p vs, o.src = src := by
  induction vs generalizing p with
  | nil => simp
  | cons v vs ih =>
    intro o ho
    rcases List.mem_cons.mp ho with rfl | h
    · rfl
    · exact ih none o h

theorem tagFirst_none (src : Stream) (vs : List Data) :
    tagFirst src none vs = vs.map (fun v => { src := src, tag := none, data := v }) := by
  induction vs with
  | nil => rfl
  | cons v vs ih => simp [ih]

@[simp] theorem pendAfter_nil (p : Tag) : pendAfter p [] = p := rfl

@[simp] theorem pendAfter_cons (p : Tag) (v : Data) (vs : List Data) : pendAfter p (v :: vs) = none := rfl

/-! ### The interleaver's operations -/

/-- Scattering into a list keeps its length. -/
@[simp] theorem foldl_set_length {α β : Type} (f : β → Nat) (v : β → α) (is : List β) (out : List α) :
    (is.foldl (fun o i => o.set (f i) (v i)) out).length = out.length := by
  induction is generalizing out with
  | nil => rfl
  | cons i is ih => simp [ih]

/-- A place no write goes to keeps what it held. -/
theorem foldl_set_getElem?_other {α β : Type} (f : β → Nat) (v : β → α) (is : List β) (out : List α)
    (j : Nat) (h : ∀ i ∈ is, f i ≠ j) : (is.foldl (fun o i => o.set (f i) (v i)) out)[j]? = out[j]? := by
  induction is generalizing out with
  | nil => rfl
  | cons i is ih =>
    rw [List.foldl_cons, ih _ (fun k hk => h k (List.mem_cons_of_mem i hk))]
    exact List.getElem?_set_ne (h i List.mem_cons_self)

/-- What scattering leaves: where `f` sends no two of `is` to one place, place `f i` holds `v i`. -/
theorem foldl_set_getElem? {α β : Type} (f : β → Nat) (v : β → α) (is : List β) (out : List α)
    (hf : is.Pairwise (fun a b => f a ≠ f b)) (i : β) (hi : i ∈ is) (hb : f i < out.length) :
    (is.foldl (fun o i => o.set (f i) (v i)) out)[f i]? = some (v i) := by
  induction is generalizing out with
  | nil => cases hi
  | cons k is ih =>
    obtain ⟨hk, his⟩ := List.pairwise_cons.mp hf
    rcases List.mem_cons.mp hi with rfl | h
    · rw [List.foldl_cons, foldl_set_getElem?_other f v is _ _ (fun j hj => (hk j hj).symm)]
      simp [hb]
    · exact ih _ his h (by simpa using hb)

@[simp] theorem ilvPermute_length (d : Dir) (n c : Nat) (block : List IlvItem) :
    (ilvPermute d n c block).length = n := by
  cases d <;> simp only [ilvPermute, foldl_set_length] <;> simp

/-- The one value a forward block has at π(i), where π sends no other index there (42_interleaver.md
R151). -/
theorem ilvPermute_fwd_getElem? (n c : Nat) (block : List IlvItem)
    (hf : (List.range n).Pairwise (fun a b => ilvPi n c a ≠ ilvPi n c b)) (i : Nat) (hi : i < n)
    (hb : ilvPi n c i < n) :
    (ilvPermute .fwd n c block)[ilvPi n c i]? = some (block.getD i 0) :=
  foldl_set_getElem? (ilvPi n c) (fun i => block.getD i 0) (List.range n) _ hf i (by simpa using hi)
    (by simpa using hb)

theorem ilvPermute_inv_getElem? (n c : Nat) (block : List IlvItem) (i : Nat) (hi : i < n) :
    (ilvPermute .inv n c block)[i]? = some (block.getD (ilvPi n c i) 0) := by
  simp [ilvPermute, hi]

@[simp] theorem IlvCtx.release_snd_length (src : Stream) (items : List (BitVec 8)) (x : IlvCtx) :
    (x.release src items).2.length = items.length := by
  simp [IlvCtx.release]

@[simp] theorem IlvCtx.release_buf (src : Stream) (items : List (BitVec 8)) (x : IlvCtx) :
    (x.release src items).1.buf = x.buf := rfl

@[simp] theorem IlvCtx.release_rem (src : Stream) (items : List (BitVec 8)) (x : IlvCtx) :
    (x.release src items).1.rem = x.rem := rfl

@[simp] theorem IlvCtx.count_buf (x : IlvCtx) : x.count.buf = x.buf := by
  unfold IlvCtx.count; split <;> rfl

@[simp] theorem IlvCtx.count_pend (x : IlvCtx) : x.count.pend = x.pend := by
  unfold IlvCtx.count; split <;> rfl

@[simp] theorem ilvPartial_eq (items : List (BitVec 8)) : ilvPartial items = items := rfl

/-- All `take` can do: pass a tail item, emit a permuted block, or keep the item (R155). -/
theorem IlvCtx.take_cases (d : Dir) (n c : Nat) (v : BitVec 8) (x : IlvCtx) :
    (x.buf = [] ∧ 0 < x.rem.toNat ∧ x.rem.toNat < n ∧ x.take d n c v = x.release d.stream [v])
    ∨ (¬ (x.buf = [] ∧ 0 < x.rem.toNat ∧ x.rem.toNat < n) ∧ x.buf.length + 1 = n
        ∧ x.take d n c v
          = { x with buf := [] }.release d.stream (ilvPermute d n c (x.buf ++ [v])))
    ∨ (¬ (x.buf = [] ∧ 0 < x.rem.toNat ∧ x.rem.toNat < n) ∧ x.buf.length + 1 ≠ n
        ∧ x.take d n c v = ({ x with buf := x.buf ++ [v] }, [])) := by
  unfold IlvCtx.take
  by_cases h : x.buf = [] ∧ 0 < x.rem.toNat ∧ x.rem.toNat < n
  · left
    obtain ⟨h1, h2, h3⟩ := h
    exact ⟨h1, h2, h3, by rw [if_pos ⟨by simp [h1], h2, h3⟩, ilvPartial_eq]⟩
  · right
    have h' : ¬ (x.buf.isEmpty = true ∧ 0 < x.rem.toNat ∧ x.rem.toNat < n) := by
      simpa [List.isEmpty_iff] using h
    by_cases hl : x.buf.length + 1 = n
    · exact .inl ⟨h, hl, by rw [if_neg h', if_pos (by simpa using hl)]⟩
    · exact .inr ⟨h, hl, by rw [if_neg h', if_neg (by simpa using hl)]⟩

/-! ### Registers and their words -/

/-- The column SRC of 30_encoding.md R88. -/
theorem Stream.code_eq (r : Stream) :
    r.code = match r with
      | .regData => 0x02 | .codewords => 0x10 | .nibbles => 0x11
      | .interleaved => 0x20 | .deinterleaved => 0x21 | .symbols => 0x30 | .groups => 0x31
      | .gated => 0x40 | .metadata => 0x4F
      | .repacked k => BitVec.ofNat 8 (0x50 + 0x10 * k) := by
  cases r <;> first | decide | (rename_i k; revert k; decide)

/-- The column Addr of 10_state.md R26 for the repackers. -/
theorem Reg.addr_rpk (k : RpkId) :
    (Reg.rpkStatus k).addr = (UnitId.rpk k).number ++ 0#4
      ∧ (Reg.rpkGIn k).addr = (UnitId.rpk k).number ++ 1#4
      ∧ (Reg.rpkGOut k).addr = (UnitId.rpk k).number ++ 2#4 := by
  revert k; decide

theorem Flags.word_eq (f : Flags) :
    f.word = 0#29 ++ BitVec.ofBool f.cfglock ++ BitVec.ofBool f.notrun ++ BitVec.ofBool f.illegal := by
  obtain ⟨a, b, c⟩ := f
  cases a <;> cases b <;> cases c <;> decide

theorem Life.word_eq (l : Life) : l.word = 0#24 ++ l.err.code ++ 0#2 ++ l.mode.code := by
  obtain ⟨m, e⟩ := l
  cases m <;> cases e <;> decide

theorem Scg.statusWord_eq (g : Scg) :
    g.statusWord = 0#22 ++ g.run.fsm.code ++ g.life.err.code ++ 0#2 ++ g.life.mode.code := by
  unfold Scg.statusWord Life.word
  cases g.life.mode <;> cases g.life.err <;> cases g.run.fsm <;> decide

@[simp] theorem pairHi_append_pairLo (p : Pair) : pairHi p ++ pairLo p = p := by
  apply BitVec.eq_of_getLsbD_eq
  intro i hi
  simp only [pairHi, pairLo, Config.pairHiLo, Config.pairLoLo, Config.regW]
  rw [BitVec.getLsbD_append, BitVec.getLsbD_extractLsb', BitVec.getLsbD_extractLsb']
  by_cases h : i < 32
  · simp [h]
  · simp [h, show i - 32 < 32 by omega, show 32 + (i - 32) = i by omega]

/-- All CFG_WR can do with a mapped register (40_system.md R110). -/
theorem writeMapped_cases (r : Reg) (v : Word32) (s : State) :
    (s.writeReg v r = none ∧ writeMapped r v s = raise .illegal s)
    ∨ ∃ u t, s.writeReg v r = some (u, t)
        ∧ (((s.life u).mode = .unconfigured ∧ writeMapped r v s = t)
          ∨ ((s.life u).mode ≠ .unconfigured ∧ writeMapped r v s = raise .cfglock s)) := by
  unfold writeMapped
  cases h : s.writeReg v r with
  | none => exact .inl ⟨rfl, rfl⟩
  | some p =>
    refine .inr ⟨p.1, p.2, rfl, ?_⟩
    by_cases hm : (s.life p.1).mode = .unconfigured
    · exact .inl ⟨hm, by simp [hm]⟩
    · exact .inr ⟨hm, by simp [hm]⟩

/-! ### COMMIT's checks (R113) -/

@[simp] theorem firstFailing_nil : firstFailing [] = .noError := rfl

@[simp] theorem firstFailing_cons (fails : Bool) (code : CfgErr) (rest : List (Bool × CfgErr)) :
    firstFailing ((fails, code) :: rest) = if fails then code else firstFailing rest := rfl

@[simp] theorem checksOf_eq (zero range : Bool) (shape : List (Bool × CfgErr)) :
    checksOf zero range shape =
      if zero then .zeroSize else if range then .range else firstFailing shape := rfl

/-! ### ATAN2Q (R229) -/

theorem atan2Q_of_axis {y x v : Int} (h : Config.atan2Axis y x = some v) : atan2Q y x = v := by
  simp [atan2Q, h]

theorem atan2Q_of_none {y x : Int} (h : Config.atan2Axis y x = none) :
    atan2Q y x = Config.atan2QFn.1 y x := by
  simp [atan2Q, h]

/-! ### The codec and the mapper -/

/-- R133's own equation for the codeword. -/
theorem hamEncode_eq (d : BitVec 4) :
    hamEncode d = BitVec.ofBool (d.getLsbD 0 ^^ d.getLsbD 1 ^^ d.getLsbD 3)
      ++ BitVec.ofBool (d.getLsbD 0 ^^ d.getLsbD 2 ^^ d.getLsbD 3)
      ++ BitVec.ofBool (d.getLsbD 1 ^^ d.getLsbD 2 ^^ d.getLsbD 3) ++ d := by
  revert d; decide

/-- R132's and R134's own equations for the syndrome. -/
theorem hamSyndrome_eq (c : BitVec 7) :
    hamSyndrome c = BitVec.ofBool (c.getLsbD 3 ^^ c.getLsbD 4 ^^ c.getLsbD 5 ^^ c.getLsbD 6)
      ++ BitVec.ofBool (c.getLsbD 1 ^^ c.getLsbD 2 ^^ c.getLsbD 5 ^^ c.getLsbD 6)
      ++ BitVec.ofBool (c.getLsbD 0 ^^ c.getLsbD 2 ^^ c.getLsbD 4 ^^ c.getLsbD 6) := by
  revert c; decide

/-- R134's own correction. -/
theorem hamCorrect_eq (c : BitVec 7) :
    hamCorrect c = if hamSyndrome c = 0 then c else c ^^^ (1#7 <<< ((hamSyndrome c).toNat - 1)) := by
  revert c; decide

/-- R183's own group: bit 1 for re, bit 0 for im. -/
theorem qamGroup_eq (r : Sample) :
    qamGroup r = BitVec.ofBool (qamNegative r.re) ++ BitVec.ofBool (qamNegative r.im) := by
  unfold qamGroup
  cases qamNegative r.re <;> cases qamNegative r.im <;> decide

/-- QAM_AMP is 2^SAMPLE_F / sqrt 2 rounded to the nearest integer (00_scope.md R12). -/
theorem qamAmp_rounds :
    (2 * Config.qamAmp - 1) ^ 2 < 2 * (2 ^ Config.sampleF) ^ 2
      ∧ 2 * (2 ^ Config.sampleF) ^ 2 < (2 * Config.qamAmp + 1) ^ 2 := by
  norm_num

/-! ### The repacker's operations -/

@[simp] theorem groupBits_length (g : BitVec 8) (n : Nat) : (groupBits g n).length = n := by
  simp [groupBits]

theorem bitsValue_testBit (bits : List Bool) (i : Nat) :
    (bitsValue bits).testBit i = bits.getD i false := by
  induction bits generalizing i with
  | nil => simp [bitsValue]
  | cons b bs ih =>
    cases i with
    | zero => cases b <;> simp [bitsValue]
    | succ i =>
      rw [Nat.testBit_succ, show bitsValue (b :: bs) / 2 = bitsValue bs by
        simp only [bitsValue]; have := b.toNat_le; omega, ih]
      simp

/-- A group's bits stand in DATA in order, the first one lowest, zeros above them (R81, R253). -/
theorem getLsbD_groupData (bits : List Bool) (i : Nat) (h : i < 48) :
    (groupData bits).getLsbD i = bits.getD i false := by
  have hg : (groupData bits).getLsbD i = (BitVec.ofNat bits.length (bitsValue bits)).getLsbD i := by
    simp [groupData, itemData, place, h]
  rw [hg, BitVec.getLsbD_ofNat, bitsValue_testBit]
  by_cases hl : i < bits.length <;> simp [hl]

/-- Everything the loop of R253 does with enough fuel: the groups are the front of the bits in order, each
of `gOut` bits, and fewer than `gOut` bits are left. -/
theorem cutGroups_spec (gOut : Nat) (h : 0 < gOut) :
    ∀ (fuel : Nat) (acc : List Bool), acc.length ≤ fuel →
      (cutGroups gOut fuel acc).1.flatten ++ (cutGroups gOut fuel acc).2 = acc
      ∧ (∀ b ∈ (cutGroups gOut fuel acc).1, b.length = gOut)
      ∧ (cutGroups gOut fuel acc).2.length < gOut := by
  intro fuel
  induction fuel with
  | zero =>
    intro acc ha
    have : acc = [] := List.length_eq_zero_iff.mp (by omega)
    subst this
    simp [cutGroups, h]
  | succ f ih =>
    intro acc ha
    unfold cutGroups
    split
    · rename_i hc
      obtain ⟨h1, h2, h3⟩ := ih (acc.drop gOut) (by simp; omega)
      refine ⟨?_, ?_, h3⟩
      · simp only [List.flatten_cons, List.append_assoc]
        rw [h1, List.take_append_drop]
      · intro b hb
        rcases List.mem_cons.mp hb with rfl | hb
        · simp; omega
        · exact h2 b hb
    · rename_i hc
      simp; omega

@[simp] theorem Rpk.openPacket_life (t : Tag) (x : Rpk) : (x.openPacket t).life = x.life := by
  cases t <;> rfl

@[simp] theorem Rpk.openPacket_gIn (t : Tag) (x : Rpk) : (x.openPacket t).gIn = x.gIn := by
  cases t <;> rfl

@[simp] theorem Rpk.openPacket_gOut (t : Tag) (x : Rpk) : (x.openPacket t).gOut = x.gOut := by
  cases t <;> rfl

@[simp] theorem Rpk.take_life (src : Stream) (g : BitVec 8) (x : Rpk) :
    (x.take src g).1.life = x.life := rfl

@[simp] theorem Rpk.take_gIn (src : Stream) (g : BitVec 8) (x : Rpk) :
    (x.take src g).1.gIn = x.gIn := rfl

@[simp] theorem Rpk.take_gOut (src : Stream) (g : BitVec 8) (x : Rpk) :
    (x.take src g).1.gOut = x.gOut := rfl

@[simp] theorem Rpk.count_life (x : Rpk) : x.count.life = x.life := by
  unfold Rpk.count; split <;> [rfl; split <;> rfl]

@[simp] theorem Rpk.count_gIn (x : Rpk) : x.count.gIn = x.gIn := by
  unfold Rpk.count; split <;> [rfl; split <;> rfl]

@[simp] theorem Rpk.count_gOut (x : Rpk) : x.count.gOut = x.gOut := by
  unfold Rpk.count; split <;> [rfl; split <;> rfl]

/-! ### The gate's operations -/

/-- All one pass of R216 can do. -/
theorem Scg.pass_cases (g : Scg) :
    (g.run.fsm = .emitting ∧ g.run.pos ≤ g.run.e ∧ g.pass = none)
    ∨ (g.run.fsm = .emitting ∧ g.run.e < g.run.pos ∧ g.pass = some g.emitStep)
    ∨ (g.run.fsm ≠ .emitting ∧ g.run.pos < g.run.n + g.cfg.fftLen.toNat ∧ g.pass = none)
    ∨ (g.run.fsm = .searching ∧ g.run.n + g.cfg.fftLen.toNat ≤ g.run.pos
        ∧ g.pass = some (g.searchStep (g.P g.run.n) (g.R g.run.n), []))
    ∨ (g.run.fsm = .candidate ∧ g.run.n + g.cfg.fftLen.toNat ≤ g.run.pos
        ∧ g.pass = some (g.candidateStep (g.P g.run.n) (g.R g.run.n))) := by
  unfold Scg.pass
  split <;> rename_i h <;> split <;> rename_i h' <;> simp_all

/-- What no pass changes: the life cycle, the registers, the samples. -/
structure Scg.SameInput (g g' : Scg) : Prop where
  life : g'.life = g.life
  cfg : g'.cfg = g.cfg
  pos : g'.run.pos = g.run.pos
  hist : g'.run.hist = g.run.hist

theorem Scg.SameInput.rfl' (g : Scg) : g.SameInput g := ⟨rfl, rfl, rfl, rfl⟩

theorem Scg.SameInput.trans' {a b c : Scg} (h : a.SameInput b) (k : b.SameInput c) : a.SameInput c :=
  ⟨k.life.trans h.life, k.cfg.trans h.cfg, k.pos.trans h.pos, k.hist.trans h.hist⟩

theorem Scg.searchStep_sameInput (g : Scg) (p : Corr) (r : Nat) : g.SameInput (g.searchStep p r) := by
  unfold Scg.searchStep; split <;> exact ⟨rfl, rfl, rfl, rfl⟩

theorem Scg.runEnd_sameInput (g : Scg) : g.SameInput g.runEnd.1 := by
  unfold Scg.runEnd; split <;> exact ⟨rfl, rfl, rfl, rfl⟩

theorem Scg.candidateStep_sameInput (g : Scg) (p : Corr) (r : Nat) :
    g.SameInput (g.candidateStep p r).1 := by
  unfold Scg.candidateStep
  split
  · split <;> exact ⟨rfl, rfl, rfl, rfl⟩
  · exact g.runEnd_sameInput

theorem Scg.emitStep_sameInput (g : Scg) : g.SameInput g.emitStep.1 := by
  unfold Scg.emitStep; simp only; split <;> exact ⟨rfl, rfl, rfl, rfl⟩

theorem Scg.pass_sameInput {g : Scg} {r : Scg × List OutItem} (h : g.pass = some r) :
    g.SameInput r.1 := by
  rcases g.pass_cases with ⟨_, _, e⟩ | ⟨_, _, e⟩ | ⟨_, _, e⟩ | ⟨_, _, e⟩ | ⟨_, _, e⟩ <;>
    rw [e] at h <;> cases h
  · exact g.emitStep_sameInput
  · exact g.searchStep_sameInput _ _
  · exact g.candidateStep_sameInput _ _

/-- The loop changes neither the life cycle, the registers nor the samples. -/
theorem Scg.advance_sameInput (fuel : Nat) : ∀ g : Scg, g.SameInput (g.advance fuel).1 := by
  induction fuel with
  | zero => exact fun g => .rfl' g
  | succ f ih =>
    intro g
    unfold Scg.advance
    split
    · exact .rfl' g
    · rename_i r h
      exact (Scg.pass_sameInput h).trans' (ih r.1)

end Sys2Proof.Machine
end

