-- ==== Sys2Proof/Laws/PerInstr.lean ====
section
/-! SUPPORT. The family FieldsOfEncode, one lemma per operation: the encoder writes the row's OPC, a zero
ZERO field, and no DATA bit outside the row's format (30_encoding.md R80 to R86). -/

namespace Sys2Proof.Laws

/-- The encoder leaves no bit set outside the row's fields. -/
abbrev FieldsOfEncode.Statement (i : Instr) : Prop :=
  opcOf (encode i) = i.op.code ∧ zeroOf (encode i) = 0
    ∧ dataOf (encode i) &&& ~~~i.op.dataMask = 0

/-- An item of `w` bits sets no bit above them. -/
theorem itemData_and_not_mask {w : Nat} (x : BitVec w) :
    itemData x &&& ~~~((BitVec.allOnes w).setWidth 48) = 0 := by
  rw [itemData_eq]
  apply BitVec.eq_of_getLsbD_eq
  intro i hi
  by_cases h : i < w
  · simp [h]
  · have : x.getLsbD i = false := BitVec.getLsbD_of_ge x i (by omega)
    simp [this]

/-- The three clauses from the DATA clause alone. -/
theorem fieldsOfEncode_of_data (i : Instr) (h : i.data &&& ~~~i.op.dataMask = 0) :
    FieldsOfEncode.Statement i := by
  refine ⟨?_, ?_, ?_⟩ <;> simp only [encode, packTagged, opcOf_packWord, zeroOf_packWord, dataOf_packWord]
  exact h

/-- CFG_WR sets no DATA bit outside ADDR and VALUE. -/
theorem cfgWr_and_not_mask (a : Addr) (v : Word32) : regData a v &&& ~~~Op.cfgWr.dataMask = 0 := by
  have h : (a ++ 0#8 ++ v : BitVec (8 + 8 + 32)) &&& (0#8 ++ 0xFF#8 ++ 0#32) = 0 := by
    rw [BitVec.and_append, BitVec.and_append]; simp
  have e : ~~~Op.cfgWr.dataMask = (0#8 ++ 0xFF#8 ++ 0#32 : BitVec (8 + 8 + 32)) := by decide
  rw [e, regData_eq]
  exact h

/-- CFG_RD sets no DATA bit outside ADDR. -/
theorem cfgRd_and_not_mask (a : Addr) : regData a 0 &&& ~~~Op.cfgRd.dataMask = 0 := by
  have h : (a ++ 0#8 ++ 0#32 : BitVec (8 + 8 + 32)) &&& (0#8 ++ 0xFF#8 ++ 0xFFFFFFFF#32) = 0 := by
    rw [BitVec.and_append, BitVec.and_append]; simp
  have e : ~~~Op.cfgRd.dataMask = (0#8 ++ 0xFF#8 ++ 0xFFFFFFFF#32 : BitVec (8 + 8 + 32)) := by decide
  rw [e, regData_eq]
  exact h

/-- Every DATA pattern obeys a format that uses all 48 bits. -/
theorem and_not_allOnes (d : Data) : d &&& ~~~(0xFFFFFFFFFFFF#48) = 0 := by
  rw [show ~~~(0xFFFFFFFFFFFF#48) = 0#48 by decide]
  exact BitVec.and_zero

theorem FieldsOfEncode.cfgWr (addr : Addr) (value : Word32) : FieldsOfEncode.Statement (.cfgWr addr value) :=
  fieldsOfEncode_of_data _ (cfgWr_and_not_mask addr value)

theorem FieldsOfEncode.cfgRd (addr : Addr) : FieldsOfEncode.Statement (.cfgRd addr) :=
  fieldsOfEncode_of_data _ (cfgRd_and_not_mask addr)

theorem FieldsOfEncode.commit (target : UnitNum) : FieldsOfEncode.Statement (.commit target) :=
  fieldsOfEncode_of_data _ (by rw [Op.dataMask_eq]; exact itemData_and_not_mask target)

theorem FieldsOfEncode.reset : FieldsOfEncode.Statement .reset :=
  fieldsOfEncode_of_data _ (by decide)

theorem FieldsOfEncode.hamEnc (d : BitVec 4) (tag : Tag) : FieldsOfEncode.Statement (.hamEnc d tag) :=
  fieldsOfEncode_of_data _ (by rw [Op.dataMask_eq]; exact itemData_and_not_mask d)

theorem FieldsOfEncode.hamDec (c : BitVec 7) (tag : Tag) : FieldsOfEncode.Statement (.hamDec c tag) :=
  fieldsOfEncode_of_data _ (by rw [Op.dataMask_eq]; exact itemData_and_not_mask c)

theorem FieldsOfEncode.ilvFwd (x : IlvItem) (tag : Tag) : FieldsOfEncode.Statement (.ilvFwd x tag) :=
  fieldsOfEncode_of_data _ (by rw [Op.dataMask_eq]; exact itemData_and_not_mask x)

theorem FieldsOfEncode.ilvInv (x : IlvItem) (tag : Tag) : FieldsOfEncode.Statement (.ilvInv x tag) :=
  fieldsOfEncode_of_data _ (by rw [Op.dataMask_eq]; exact itemData_and_not_mask x)

theorem FieldsOfEncode.ilvFlushFwd : FieldsOfEncode.Statement .ilvFlushFwd :=
  fieldsOfEncode_of_data _ (by decide)

theorem FieldsOfEncode.ilvFlushInv : FieldsOfEncode.Statement .ilvFlushInv :=
  fieldsOfEncode_of_data _ (by decide)

theorem FieldsOfEncode.qamMap (v : BitVec 2) (tag : Tag) : FieldsOfEncode.Statement (.qamMap v tag) :=
  fieldsOfEncode_of_data _ (by rw [Op.dataMask_eq]; exact itemData_and_not_mask v)

theorem FieldsOfEncode.qamDemap (re : Comp) (im : Comp) (tag : Tag) : FieldsOfEncode.Statement (.qamDemap re im tag) :=
  fieldsOfEncode_of_data _ (by rw [Op.dataMask_eq]; exact and_not_allOnes _)

theorem FieldsOfEncode.scgPush (re : Comp) (im : Comp) : FieldsOfEncode.Statement (.scgPush re im) :=
  fieldsOfEncode_of_data _ (by rw [Op.dataMask_eq]; exact and_not_allOnes _)

theorem FieldsOfEncode.scgFlush : FieldsOfEncode.Statement .scgFlush :=
  fieldsOfEncode_of_data _ (by decide)

theorem FieldsOfEncode.rpk0Push (g : Group) (tag : Tag) : FieldsOfEncode.Statement (.rpk0Push g tag) :=
  fieldsOfEncode_of_data _ (by rw [Op.dataMask_eq]; exact itemData_and_not_mask g)

theorem FieldsOfEncode.rpk0Flush : FieldsOfEncode.Statement .rpk0Flush :=
  fieldsOfEncode_of_data _ (by decide)

theorem FieldsOfEncode.rpk1Push (g : Group) (tag : Tag) : FieldsOfEncode.Statement (.rpk1Push g tag) :=
  fieldsOfEncode_of_data _ (by rw [Op.dataMask_eq]; exact itemData_and_not_mask g)

theorem FieldsOfEncode.rpk1Flush : FieldsOfEncode.Statement .rpk1Flush :=
  fieldsOfEncode_of_data _ (by decide)

theorem FieldsOfEncode.rpk2Push (g : Group) (tag : Tag) : FieldsOfEncode.Statement (.rpk2Push g tag) :=
  fieldsOfEncode_of_data _ (by rw [Op.dataMask_eq]; exact itemData_and_not_mask g)

theorem FieldsOfEncode.rpk2Flush : FieldsOfEncode.Statement .rpk2Flush :=
  fieldsOfEncode_of_data _ (by decide)

theorem FieldsOfEncode.rpk3Push (g : Group) (tag : Tag) : FieldsOfEncode.Statement (.rpk3Push g tag) :=
  fieldsOfEncode_of_data _ (by rw [Op.dataMask_eq]; exact itemData_and_not_mask g)

theorem FieldsOfEncode.rpk3Flush : FieldsOfEncode.Statement .rpk3Flush :=
  fieldsOfEncode_of_data _ (by decide)

end Sys2Proof.Laws
end

