-- ==== Sys2Proof/Laws/Safety.lean ====
section
/-! SUPPORT. The notions of Safety beside the operations of the machine they describe. -/

namespace Sys2Proof.Machine

/-- A unit is found by its own number (10_state.md R23). -/
@[simp] theorem UnitId.ofNumber_number (u : UnitId) : UnitId.ofNumber u.number = some u := by
  rcases u with _ | _ | _ | _ | k
  · decide
  · decide
  · decide
  · decide
  · revert k; decide

/-- A number finds only the unit that has it. -/
theorem UnitId.number_of_ofNumber {n : BitVec 4} {u : UnitId} (h : UnitId.ofNumber n = some u) :
    u.number = n := by
  simpa using List.find?_some h

/-- A register is found by its own address (10_state.md R26). -/
@[simp] theorem Reg.ofAddr_addr (r : Reg) : Reg.ofAddr r.addr = some r := by
  cases r <;> first | decide | (rename_i k; revert k; decide)

/-- The emission of the machine is the one the statements write (42_interleaver.md R154). -/
theorem tagFirst_eq_firstTagged (src : Stream) (p : Tag) (vs : List Data) :
    tagFirst src p vs = firstTagged src p vs := by
  cases vs with
  | nil => rfl
  | cons v vs =>
    have h : ∀ l : List Data, l.map (fun v => ({ src := src, tag := none, data := v } : OutItem))
        = l.mapIdx (fun _ v => { src := src, tag := none, data := v }) := by
      intro l
      apply List.ext_getElem <;> simp
    rw [tagFirst_cons, tagFirst_none, h]
    simp [firstTagged, List.mapIdx_cons]

/-- The width check of R97 is the statements' one. -/
theorem tooWide_iff_overWide (x : BitVec 8) (w : Word32) : tooWide x w = true ↔ OverWide x w := by
  unfold tooWide OverWide
  simp only [bne_iff_ne, ne_eq]
  constructor
  · intro h
    by_contra hc
    apply h
    apply BitVec.eq_of_getLsbD_eq
    intro i hi
    rw [BitVec.getLsbD_ushiftRight]
    by_cases hb : x.getLsbD (w.toNat + i) = true
    · exact absurd ⟨⟨w.toNat + i, BitVec.lt_of_getLsbD hb⟩, by simp, hb⟩ hc
    · simpa using hb
  · rintro ⟨i, hi, hb⟩ h
    have := congrArg (fun v => v.getLsbD (i.val - w.toNat)) h
    simp only [BitVec.getLsbD_ushiftRight, show w.toNat + (i.val - w.toNat) = i.val by omega, hb] at this
    simp at this

/-! ### The operations of a direction and of a repacker -/

theorem RpkId.forall_iff {p : RpkId → Prop} : (∀ k, p k) ↔ p .k0 ∧ p .k1 ∧ p .k2 ∧ p .k3 := by
  constructor
  · exact fun h => ⟨h _, h _, h _, h _⟩
  · rintro ⟨h0, h1, h2, h3⟩ k
    fin_cases k <;> assumption

@[simp] theorem exec_rpkItem (k : RpkId) (g : Group) (tag : Tag) (s : State) :
    exec (rpkItem k g tag) s = .next (rpkPush k g tag s) := by
  revert k; rw [RpkId.forall_iff]; exact ⟨rfl, rfl, rfl, rfl⟩

@[simp] theorem exec_rpkFlushOf (k : RpkId) (s : State) :
    exec (rpkFlushOf k) s = .next (rpkFlush k s) := by
  revert k; rw [RpkId.forall_iff]; exact ⟨rfl, rfl, rfl, rfl⟩

@[simp] theorem exec_ilvItem (d : Dir) (x : IlvItem) (tag : Tag) (s : State) :
    exec (ilvItem d x tag) s = .next (ilvData d x tag s) := by
  cases d <;> rfl

@[simp] theorem exec_ilvFlushOf (d : Dir) (s : State) :
    exec (ilvFlushOf d) s = .next (ilvFlush d s) := by
  cases d <;> rfl

@[simp] theorem performAll_nil (s : State) : performAll [] s = some s := rfl

/-- A sequence is performed part by part (20_memory.md R66). -/
theorem performAll_append (is js : List Instr) (s : State) :
    performAll (is ++ js) s = (performAll is s).bind (performAll js) := by
  induction is generalizing s with
  | nil => rfl
  | cons i is ih =>
    simp only [List.cons_append, performAll]
    split
    · exact ih _
    · rfl
    · rfl

/-- Every operation answers a next state (60_exceptions.md R290). -/
theorem exec_next (i : Instr) (s : State) : ∃ t, exec i s = .next t := by
  cases i <;> exact ⟨_, rfl⟩

end Sys2Proof.Machine
end

