-- ==== Sys2Proof/Tests/Slice0.lean ====
section
/-! SUPPORT. Tests with their source in the spec, and for each statement with hypotheses a witness that
meets them together. -/

namespace Sys2Proof.Tests

open Sys2Proof Sys2Proof.Machine

/-! ### Well-formedness (30_encoding.md R95 step 3) -/

theorem test_wellFormed_refuses_tag_of_no_items : ¬ (Instr.hamEnc 1 (some 0)).WellFormed := by decide

theorem test_wellFormed_admits_tag : (Instr.hamEnc 1 (some 16)).WellFormed := by decide

/-! ### Decoding: a word written out from the spec's encoding for every operation (R80 to R87, R100,
R102, and the words of 40_system.md to 45_repack.md) -/

theorem test_decode_system :
    decode 0x01000000000021000000005a = .ok (.cfgWr 0x21 90)
    ∧ decode 0x020000000000010000000000 = .ok (.cfgRd 0x01)
    ∧ decode 0x030000000000000000000002 = .ok (.commit 2)
    ∧ decode 0x040000000000000000000000 = .ok .reset := by decide

theorem test_decode_hamming :
    decode 0x108000000010000000000001 = .ok (.hamEnc 1 (some 16))
    ∧ decode 0x110000000000000000000054 = .ok (.hamDec 0x54 none) := by decide

theorem test_decode_interleaver :
    decode 0x208000000006000000000001 = .ok (.ilvFwd 1 (some 6))
    ∧ decode 0x2100000000000000000000ff = .ok (.ilvInv 255 none)
    ∧ decode 0x280000000000000000000000 = .ok .ilvFlushFwd
    ∧ decode 0x290000000000000000000000 = .ok .ilvFlushInv := by decide

theorem test_decode_qam :
    decode 0x300000000000000000000003 = .ok (.qamMap 3 none)
    ∧ decode 0x310000000000000000fffffb = .ok (.qamDemap (-5) 0 none) := by decide

theorem test_decode_gate :
    decode 0x400000000000ffffff000001 = .ok (.scgPush 1 (-1))
    ∧ decode 0x480000000000000000000000 = .ok .scgFlush := by decide

theorem test_decode_repackers :
    decode 0x508000000008000000000001 = .ok (.rpk0Push 1 (some 8))
    ∧ decode 0x580000000000000000000000 = .ok .rpk0Flush
    ∧ decode 0x60000000000000000000007f = .ok (.rpk1Push 0x7F none)
    ∧ decode 0x680000000000000000000000 = .ok .rpk1Flush
    ∧ decode 0x7080ffffffff000000000003 = .ok (.rpk2Push 3 (some 0xFFFFFFFF))
    ∧ decode 0x780000000000000000000000 = .ok .rpk2Flush
    ∧ decode 0x800000000000000000000002 = .ok (.rpk3Push 2 none)
    ∧ decode 0x880000000000000000000000 = .ok .rpk3Flush := by decide

/-- R95's four steps, each failing by name: a reserved opcode, a reserved bit, the tag rules, DATA. -/
theorem test_decode_refuses :
    decode 0x090000000000000000000000 = .error .badOpcode
    ∧ decode 0x100100000000000000000001 = .error .reservedBits
    ∧ decode 0x108000000000000000000001 = .error .badTag
    ∧ decode 0x100000000001000000000001 = .error .badTag
    ∧ decode 0x408000000001000000000001 = .error .badTag
    ∧ decode 0x100000000000000000000010 = .error .badData
    ∧ decode 0x010000000000210100000000 = .error .badData
    ∧ decode 0x020000000000210000000001 = .error .badData
    ∧ decode 0x040000000000000000000001 = .error .badData
    ∧ decode 0x030000000000000000000010 = .error .badData := by decide

theorem test_decodeTableWord_opcode_only :
    decodeTableWord 96 (0x48 * 2 ^ 88) = some .scgFlush ∧ decodeTableWord 96 (0x09 * 2 ^ 88) = none := by
  decide

/-! ### Small states -/

/-- RUNNING, no error. -/
def live : Life := { mode := .running, err := .noError }

/-- Every unit RUNNING: ILV with N = 6, C = 3, W = 4; SCG as in V-SCG-7 (95_test_vectors.md); repackers
8→4, 4→8, 7→8, 1→8. -/
def ready : State :=
  { State.reset with
    ham := live
    qam := live
    ilv := { State.reset.ilv with life := live, n := 6, cols := 3, w := 4 }
    scg := { State.reset.scg with life := live, cfg := ⟨2, 1, 0, 1, 1, 1⟩ }
    rpks := #v[{ Rpk.reset with life := live, gIn := 8, gOut := 4 },
      { Rpk.reset with life := live, gIn := 4, gOut := 8 },
      { Rpk.reset with life := live, gIn := 7, gOut := 8 },
      { Rpk.reset with life := live, gIn := 1, gOut := 8 }] }

/-- `ready` with a forward ILV context. -/
def withFwd (x : IlvCtx) : State := { ready with ilv := { ready.ilv with fwd := x } }

/-- The sample of V-SCG-7. -/
def corner : Sample := { re := 0x800000, im := 0x800000 }

/-- `ready` after two pushes of V-SCG-7. -/
def candidate : State :=
  { ready with scg := { ready.scg with run := { ScgRun.reset with
      pos := 2, hist := [corner, corner], fsm := .candidate, n := 1
      bP := { re := 2 ^ 47, im := 0 }, bR := 2 ^ 47 } } }

/-- `ready` after three pushes of V-SCG-7, the results apart. -/
def emitting : State :=
  { ready with scg := { ready.scg with run := { candidate.scg.run with
      pos := 3, hist := [corner, corner, corner], fsm := .emitting, e := 3 } } }

/-- `s` with one word presented. -/
def present (w : Word) (s : State) : State := { s with input := [.word w] }

/-- A next state that satisfies `p`. -/
def nextSat (o : Host.Outcome State Fault Refusal) (p : State → Bool) : Bool :=
  match o with
  | .next t => p t
  | .fault _ => false
  | .refused _ => false

/-! ### Single steps, expected results from the spec -/

/-- R110's example, and CFGLOCK on a RUNNING unit. -/
theorem test_cfgWr :
    nextSat (exec (.cfgWr 0x21 90) State.reset) (fun t => t.ilv.n == 90)
    ∧ nextSat (exec (.cfgWr 0x21 90) ready) (fun t => t.ilv.n == 6 && t.flags.cfglock) := by decide

/-- R280: a read-only register of a RUNNING unit is ILLEGAL, not CFGLOCK. -/
theorem test_cfgWr_readOnly :
    nextSat (exec (.cfgWr 0x40 1) ready) (fun t => t.flags.illegal && !t.flags.cfglock) := by decide

/-- R111's example: every unit UNCONFIGURED; all RUNNING is 01 in each of the bits 17:2. -/
theorem test_cfgRd_sysModes :
    nextSat (exec (.cfgRd 0x01) State.reset) (fun t => t.out.map OutItem.data == [0x010000000000])
    ∧ nextSat (exec (.cfgRd 0x01) ready) (fun t => t.out.map OutItem.data == [0x010000015554]) := by
  decide

/-- R118's corner cases: never written registers fail ZERO_SIZE; HAM succeeds; a second COMMIT locks. -/
theorem test_commit :
    nextSat (exec (.commit 2) State.reset) (fun t => t.ilv.life == { mode := .failed, err := .zeroSize })
    ∧ nextSat (exec (.commit 1) State.reset) (fun t => t.ham == live)
    ∧ nextSat (exec (.commit 1) ready) (fun t => t.flags.cfglock && t.ham == live) := by decide

/-- R118's example: 90 items in 7 columns is ILV_SHAPE. -/
theorem test_commit_shape :
    nextSat (exec (.commit 2)
      { State.reset with ilv := { State.reset.ilv with n := 90, cols := 7, w := 8 } })
      (fun t => t.ilv.life == { mode := .failed, err := .ilvShape }) := by decide

/-- R119: RESET leaves the reset state and what was emitted. -/
theorem test_reset :
    nextSat (exec .reset { candidate with out := [⟨.nibbles, none, 5⟩] })
      (fun t => t == { State.reset with out := [⟨.nibbles, none, 5⟩] }) := by decide

/-- R133's example with the tag of R102. -/
theorem test_hamEnc :
    nextSat (exec (.hamEnc 5 (some 16)) ready) (fun t => t.out == [⟨.codewords, some 16, 0x55⟩]) := by
  decide

/-- R134's example: one flipped bit is corrected. -/
theorem test_hamDec :
    nextSat (exec (.hamDec 0x54 none) ready) (fun t => t.out == [⟨.nibbles, none, 5⟩]) := by decide

/-- R155's example, the sixth item. -/
theorem test_ilvFwd_block :
    nextSat (exec (.ilvFwd 0 none) (withFwd { buf := [1, 0, 1, 1, 0], rem := 0, pend := none }))
      (fun t => t.out.map OutItem.data == [1, 1, 0, 0, 1, 0] && t.ilv.fwd == IlvCtx.reset) := by decide

/-- R153: a tag cuts off a partly filled block; the packet of 2 items is all tail. -/
theorem test_ilvFwd_tag :
    nextSat (exec (.ilvFwd 9 (some 2)) (withFwd { buf := [1, 2], rem := 0, pend := none }))
      (fun t => t.out == [⟨.interleaved, none, 1⟩, ⟨.interleaved, none, 2⟩, ⟨.interleaved, some 2, 9⟩]
        && t.ilv.fwd == { buf := [], rem := 1, pend := none }) := by decide

/-- R156's example, the sixth item. -/
theorem test_ilvInv_block :
    nextSat (exec (.ilvInv 0 none)
      { ready with ilv := { ready.ilv with inv := { buf := [1, 1, 0, 0, 1], rem := 0, pend := none } } })
      (fun t => t.out.map OutItem.data == [1, 0, 1, 1, 0, 0]) := by decide

/-- R157's example. -/
theorem test_ilvFlushFwd :
    nextSat (exec .ilvFlushFwd (withFwd { buf := [1, 1], rem := 0, pend := none }))
      (fun t => t.out == [⟨.interleaved, none, 1⟩, ⟨.interleaved, none, 1⟩]
        && t.ilv.fwd == IlvCtx.reset) := by decide

/-- R158: the other context is not touched. -/
theorem test_ilvFlushInv :
    nextSat (exec .ilvFlushInv (withFwd { buf := [1, 1], rem := 0, pend := none }))
      (fun t => t.out == [] && t.ilv.fwd.buf == [1, 1]) := by decide

/-- R182's example. -/
theorem test_qamMap :
    nextSat (exec (.qamMap 1 none) ready) (fun t => t.out == [⟨.symbols, none, 0xD2BEC32D413D⟩]) := by
  decide

/-- R183's example; the most negative im. -/
theorem test_qamDemap :
    nextSat (exec (.qamDemap (-5) 0 none) ready) (fun t => t.out == [⟨.groups, none, 2⟩])
    ∧ nextSat (exec (.qamDemap 1 0x800000 none) ready) (fun t => t.out == [⟨.groups, none, 1⟩]) := by
  decide

/-- V-SCG-7, push 2: detection at index 0 with angle 0, three items. -/
theorem test_scgPush_detects :
    nextSat (exec (.scgPush 0x800000 0x800000) candidate)
      (fun t => t.out == [⟨.metadata, some 0, 0⟩, ⟨.gated, some 0, 0x800000800000⟩,
          ⟨.gated, none, 0x800000800000⟩]
        && t.scg.run.fsm == .emitting && t.scg.run.e == 3
        && t.scg.res == ⟨1, 0, 0, 0x800000000000, 0, 0x800000000000⟩) := by decide

/-- V-SCG-7, push 3: the first body sample is tagged with its index. -/
theorem test_scgPush_emits :
    nextSat (exec (.scgPush 0x800000 0x800000) emitting)
      (fun t => t.out == [⟨.gated, some 3, 0x800000800000⟩] && t.scg.run.e == 4) := by decide

/-- R232: an incomplete frame stays incomplete; the next sample has index 0. -/
theorem test_scgFlush :
    nextSat (exec .scgFlush emitting)
      (fun t => t.scg.run.fsm == .searching && t.scg.run.pos == 0 && t.scg.run.n == 0 && t.out == []) := by
  decide

/-- R253's example: the low nibble first, the tag rescaled. -/
theorem test_rpk0Push :
    nextSat (exec (.rpk0Push 0x12 (some 1)) ready)
      (fun t => t.out == [⟨.repacked .k0, some 2, 2⟩, ⟨.repacked .k0, none, 1⟩]
        && (t.rpk .k0) == ready.rpk .k0) := by decide

/-- R254 on each instance's own state, with bits held. -/
theorem test_rpkFlush :
    nextSat (exec .rpk0Flush (ready.setRpk .k0 { ready.rpk .k0 with acc := [true], rem := 2 }))
      (fun t => t == ready)
    ∧ nextSat (exec .rpk1Flush (ready.setRpk .k1 { ready.rpk .k1 with acc := [true] }))
      (fun t => t == ready)
    ∧ nextSat (exec .rpk2Flush (ready.setRpk .k2 { ready.rpk .k2 with pend := some 2 }))
      (fun t => t == ready)
    ∧ nextSat (exec .rpk3Flush (ready.setRpk .k3 { ready.rpk .k3 with rem := 9 }))
      (fun t => t == ready) := by decide

/-- 4→8: a nibble waits, the second completes a byte, the first nibble in the low bits (R253). -/
theorem test_rpk1Push :
    nextSat (exec (.rpk1Push 0xA none)
      (ready.setRpk .k1 { ready.rpk .k1 with acc := [true, true, false, false] }))
      (fun t => t.out == [⟨.repacked .k1, none, 0xA3⟩]) := by decide

/-- R257: the second septet of 0x61, 0x00 gives no byte before the third. -/
theorem test_rpk2Push :
    nextSat (exec (.rpk2Push 0x61 (some 16)) ready)
      (fun t => t.out == [] && (t.rpk .k2).acc == [true, false, false, false, false, true, true]
        && (t.rpk .k2).pend == some 14 && (t.rpk .k2).rem == 15) := by decide

/-- R255, R257: bits 1, 0 with tag 2 in 1→8 leave no tag; the second drops the residue. -/
theorem test_rpk3Push :
    nextSat (exec (.rpk3Push 1 (some 2)) ready) (fun t => (t.rpk .k3).pend == none && (t.rpk .k3).rem == 1)
    ∧ nextSat (exec (.rpk3Push 0 none)
        (ready.setRpk .k3 { ready.rpk .k3 with acc := [true], rem := 1 }))
      (fun t => t == ready) := by decide

/-- R97 and R273: an over-wide item to a RUNNING unit is ILLEGAL, to another NOTRUN. -/
theorem test_overWide :
    nextSat (exec (.ilvFwd 16 none) ready) (fun t => t.flags.illegal && !t.flags.notrun)
    ∧ nextSat (exec (.ilvFwd 16 none) State.reset) (fun t => !t.flags.illegal && t.flags.notrun) := by
  decide

/-- R96: an invalid word sets the bit and nothing else. -/
theorem test_step_invalid :
    step (present 0x090000000000000000000000 ready) = .next (withIllegal ready) := by rfl

/-- The angle on the axes (R229 item 2, V-SCG-8), whatever the free function is. -/
theorem test_atan2Q_axes :
    atan2Q 0 5 = 0 ∧ atan2Q 5 0 = 536870912 ∧ atan2Q 0 (-5) = 1073741824 ∧ atan2Q (-5) 0 = -536870912 := by
  decide

/-! ### Witnesses: the hypotheses of the statements can be met -/

/-- LifeInv in a state where every unit is RUNNING, on the parts the gate's states share. -/
theorem lifeInv_of_ready (run : ScgRun) :
    LifeInv { ready with scg := { ready.scg with run := run } } := by
  have h : LifeOk ready.ham .noError True ∧ LifeOk ready.ilv.life ready.ilv.check ready.ilv.Fresh
      ∧ LifeOk ready.qam .noError True := by decide
  have k : ∀ k, LifeOk (ready.rpk k).life (ready.rpk k).check (ready.rpk k).Fresh := by decide
  have g : ready.scg.life = live ∧ ready.scg.cfg.check = .noError := by decide
  refine ⟨h.1, h.2.1, h.2.2, ⟨?_, fun _ => ⟨rfl, g.2⟩, ?_⟩, k⟩
  · intro e
    exact absurd e (by rw [show _ = live from g.1]; decide)
  · intro e
    exact absurd e (by rw [show _ = live from g.1]; decide)

theorem lifeInv_ready : LifeInv ready := lifeInv_of_ready _

theorem lifeInv_candidate : LifeInv candidate := lifeInv_of_ready _

theorem lifeInv_emitting : LifeInv emitting := lifeInv_of_ready _

theorem scgInv_ready : ScgInv ready := fun _ => ⟨by decide, by decide, by decide, by decide⟩

theorem scgInv_candidate : ScgInv candidate := fun _ => ⟨by decide, by decide, by decide, by decide⟩

theorem scgInv_emitting : ScgInv emitting := fun _ => ⟨by decide, by decide, by decide, by decide⟩

theorem witness_StepPerformsDecodedWord :
    (present 0x040000000000000000000000 ready).input = [.word 0x040000000000000000000000]
    ∧ decode 0x040000000000000000000000 = .ok .reset
    ∧ decodeTableWord 96 (0x04 * 2 ^ 88) = some .reset := by decide

theorem witness_StepAlwaysAnswersNext :
    ready.input = [] ∧ { ready with input := [.hwReset] }.input = .hwReset :: [] := by decide

theorem witness_EmittedItemsStayEmitted :
    ∃ t, step (present 0x100000000000000000000005 ready) = .next t := ⟨_, rfl⟩

theorem witness_DecodeEncodeAgree : (Instr.rpk2Push 3 (some 0xFFFFFFFF)).WellFormed := by decide

theorem witness_DecodedWordIsItsEncoding :
    decode 0x7080ffffffff000000000003 = .ok (.rpk2Push 3 (some 0xFFFFFFFF)) := by decide

/-- Each of the five causes of ILLEGAL, and a word with none of them. -/
theorem witness_IllegalHasFiveCauses_invalid :
    IllegalCause 0x090000000000000000000000 ready := by
  left
  unfold ValidWord
  decide

theorem witness_IllegalHasFiveCauses_commit : IllegalCause 0x030000000000000000000009 ready :=
  .inr (.inl ⟨9, by decide, by decide⟩)

theorem witness_IllegalHasFiveCauses_unmapped : IllegalCause 0x020000000000ff0000000000 ready :=
  .inr (.inr (.inl ⟨0xFF, by decide, by decide, .inl (by decide)⟩))

theorem witness_IllegalHasFiveCauses_readOnly : IllegalCause 0x010000000000400000000000 ready :=
  .inr (.inr (.inr (.inl ⟨0x40, 0, by decide, by decide⟩)))

theorem witness_IllegalHasFiveCauses_ilvWidth : IllegalCause 0x200000000000000000000010 ready :=
  .inr (.inr (.inr (.inr (.inl ⟨.fwd, 16, none, by decide, by decide, by decide⟩))))

theorem witness_IllegalHasFiveCauses_rpkWidth : IllegalCause 0x600000000000000000000010 ready :=
  .inr (.inr (.inr (.inr (.inr ⟨.k1, 16, none, by decide, by decide, by decide⟩))))

theorem witness_IllegalHasFiveCauses_none : ¬ IllegalCause 0x040000000000000000000000 ready := by
  rintro (h | ⟨u, h, _⟩ | ⟨a, _, _, h | ⟨v, h⟩⟩ | ⟨a, v, _, h⟩ | ⟨d, x, tag, h, _⟩ | ⟨k, g, tag, h, _⟩)
  · exact h (by unfold ValidWord; decide)
  all_goals rw [show decode 0x040000000000000000000000 = .ok .reset by decide] at h
  · cases h
  · cases h
  · cases h
  · cases h
  · cases d <;> cases h
  · fin_cases k <;> cases h

theorem witness_OutputItemWordLayout :
    (⟨.gated, none, 1⟩ : OutItem).tag = none ∧ (⟨.gated, some 3, 1⟩ : OutItem).tag = some 3 := by decide

theorem witness_ResetPutsEveryPiece :
    (∃ t, exec .reset ready = .next t) ∧ (0x00 : BitVec 8) ∈ readOnlyAddrs
    ∧ (0x82 : BitVec 8) ∈ writableAddrs := ⟨⟨_, rfl⟩, by decide, by decide⟩

theorem witness_CfgWrRule :
    (0x4F : BitVec 8) ∉ writableAddrs ∧ (0x53 : BitVec 8) ∉ writableAddrs
    ∧ (0x82 : BitVec 8) ∈ writableAddrs ∧ (UnitId.rpk .k3).number = (0x82 : BitVec 8).extractLsb' 4 4
    ∧ (ready.life (.rpk .k3)).mode ≠ .unconfigured
    ∧ State.reset.ilv.life.mode = .unconfigured ∧ State.reset.scg.life.mode = .unconfigured
    ∧ (State.reset.rpk .k3).life.mode = .unconfigured := by decide

theorem witness_CfgRdReturnsRegister :
    (0x02 : BitVec 8) ∉ writableAddrs ∧ (0x02 : BitVec 8) ∉ readOnlyAddrs
    ∧ (0x4F : BitVec 8) ∈ readOnlyAddrs := by decide

theorem witness_StatusRegistersShowState :
    UnitId.rpk .k3 ≠ .scg ∧ ready.scg.run.fsm = .searching ∧ candidate.scg.run.fsm = .candidate
    ∧ emitting.scg.run.fsm = .emitting := by decide

theorem witness_CommitRule :
    ((0 : BitVec 4) = 0 ∨ 8 < (0 : BitVec 4).toNat) ∧ ((9 : BitVec 4) = 0 ∨ 8 < (9 : BitVec 4).toNat)
    ∧ (ready.life .scg).mode ≠ .unconfigured
    ∧ (State.reset.life .ham).mode = .unconfigured ∧ State.reset.check .ham = .noError
    ∧ (State.reset.life .scg).mode = .unconfigured ∧ State.reset.check .scg ≠ .noError := by decide

/-- A state whose ILV and SCG registers are given, to meet each clause of the checks at a boundary. -/
def regs (n c w : Word32) (g : ScgCfg) (a b : Word32) : State :=
  { State.reset with
    ilv := { State.reset.ilv with n := n, cols := c, w := w }
    scg := { State.reset.scg with cfg := g }
    rpks := State.reset.rpks.set 0 { Rpk.reset with gIn := a, gOut := b } }

theorem witness_CommitChecksDecideCode :
    (regs 4096 0 8 ⟨4096, 0, 0, 1, 1, 1⟩ 8 0).check .ilv = .zeroSize
    ∧ (regs 4097 1 8 ⟨4098, 1, 0, 1, 1, 1⟩ 9 1).check .ilv = .range
    ∧ (regs 4096 3 8 ⟨4095, 1, 0, 1, 1, 1⟩ 8 1).check .ilv = .ilvShape
    ∧ (regs 4096 4096 8 ⟨4096, 4096, 65534, 65535, 65535, 4096⟩ 8 8).check .ilv = .noError
    ∧ (regs 4096 0 8 ⟨4096, 0, 0, 1, 1, 1⟩ 8 0).check .scg = .zeroSize
    ∧ (regs 4097 1 8 ⟨4098, 1, 0, 1, 1, 1⟩ 9 1).check .scg = .range
    ∧ (regs 4096 3 8 ⟨4095, 1, 0, 1, 1, 1⟩ 8 1).check .scg = .fftOdd
    ∧ (regs 1 1 1 ⟨2, 1, 1, 1, 1, 1⟩ 1 1).check .scg = .threshOrder
    ∧ (regs 4096 4096 8 ⟨4096, 4096, 65534, 65535, 65535, 4096⟩ 8 8).check .scg = .noError
    ∧ (regs 4096 0 8 ⟨4096, 0, 0, 1, 1, 1⟩ 8 0).check (.rpk .k0) = .zeroSize
    ∧ (regs 4097 1 8 ⟨4098, 1, 0, 1, 1, 1⟩ 9 1).check (.rpk .k0) = .range
    ∧ (regs 1 1 1 ⟨2, 1, 1, 1, 1, 1⟩ 8 8).check (.rpk .k0) = .noError := by decide

/-- A step that is no reset event, from a state whose sticky bits are set. -/
theorem witness_StickyBitsClearedOnlyByReset :
    (∃ t, step (present 0x100000000000000000000005 { ready with flags := ⟨true, true, true⟩ }) = .next t)
    ∧ resetsNext (present 0x100000000000000000000005 { ready with flags := ⟨true, true, true⟩ }) = false :=
  ⟨⟨_, rfl⟩, by decide⟩

theorem witness_ModeLeavesByCommitOrReset :
    (∃ t, step (present 0x030000000000000000000001 State.reset) = .next t)
    ∧ resetsNext (present 0x030000000000000000000001 State.reset) = false := ⟨⟨_, rfl⟩, by decide⟩

theorem witness_ConfigurationFrozenAfterCommit :
    (∃ t, step (present 0x01000000000021000000005a ready) = .next t)
    ∧ resetsNext (present 0x01000000000021000000005a ready) = false
    ∧ ready.ilv.life.mode ≠ .unconfigured ∧ ready.scg.life.mode ≠ .unconfigured
    ∧ (ready.rpk .k0).life.mode ≠ .unconfigured := ⟨⟨_, rfl⟩, by decide⟩

theorem witness_DataRefusedWhenNotRunning :
    dataPort (.ilvFwd 1 none) = some (.ilv, .fwd) ∧ (State.reset.life .ilv).mode ≠ .running
    ∧ decode 0x200000000000000000000100 = .error .badData := by decide

theorem witness_OverWideItemDropped :
    OverWide 16 ready.ilv.w ∧ ready.ilv.life.mode = .running
    ∧ OverWide 1 State.reset.ilv.w ∧ State.reset.ilv.life.mode ≠ .running
    ∧ OverWide 16 (ready.rpk .k1).gIn ∧ (ready.rpk .k1).life.mode = .running
    ∧ OverWide 1 (State.reset.rpk .k1).gIn ∧ (State.reset.rpk .k1).life.mode ≠ .running := by decide

theorem witness_DataOpTouchesOnlyItsUnit :
    dataPort (.ilvFwd 1 none) = some (.ilv, .fwd) ∧ ∃ t, exec (.ilvFwd 1 none) ready = .next t :=
  ⟨by decide, _, rfl⟩

theorem witness_IndependentOperationsCommute :
    dataPort (.ilvFwd 1 none) = some (.ilv, .fwd) ∧ dataPort (.ilvInv 1 none) = some (.ilv, .inv)
    ∧ (UnitId.ilv, Dir.fwd) ≠ (UnitId.ilv, Dir.inv) := by decide

/-- ILV configured and not yet committed. -/
def configured : State := { State.reset with ilv := { State.reset.ilv with n := 6, cols := 3, w := 4 } }

theorem lifeInv_configured : LifeInv configured := by
  refine ⟨?_, ?_, ?_, ?_, ?_⟩ <;> decide

theorem witness_CommitStartsFromResetRunState :
    LifeInv configured ∧ ∃ t, exec (.commit UnitId.ilv.number) configured = .next t
      ∧ (configured.life .ilv).mode = .unconfigured ∧ (t.life .ilv).mode = .running :=
  ⟨lifeInv_configured, _, rfl, by decide⟩

/-- LifeInv, IlvInv, RpkInv and ScgInv hold together in a state that steps: the hypotheses of
LifeCycleKeptByStep, IlvContextsKeptByStep, RepackersKeptByStep and GateKeptByStep. -/
theorem witness_invariantsKeptByStep :
    LifeInv candidate ∧ IlvInv candidate ∧ RpkInv candidate ∧ ScgInv candidate
    ∧ ∃ t, step (present 0x400000000000800000800000 candidate) = .next t :=
  ⟨lifeInv_candidate, by decide, by decide, scgInv_candidate, _, rfl⟩

theorem witness_HamEncFollowsTable :
    Tag.WellFormed (some 1) ∧ Tag.WellFormed none ∧ ready.ham.mode = .running := by decide

theorem witness_HamDecFollowsTable :
    Tag.WellFormed (some 1) ∧ Tag.WellFormed none ∧ ready.ham.mode = .running := by decide

/-- Two nibbles, and a septet two flips away from a codeword. -/
theorem witness_HammingLaws :
    (0 : BitVec 4) ≠ 15
    ∧ 2 ≤ ((List.range 7).filter (fun i => ((3 : BitVec 7) ^^^ hamEncode 0).getLsbD i)).length := by decide

theorem witness_QamMapFollowsTable : Tag.WellFormed (some 1) ∧ ready.qam.mode = .running := by decide

theorem witness_QamDemapTakesSigns : Tag.WellFormed (some 1) ∧ ready.qam.mode = .running := by decide

/-- The nearest-point clause at a boundary component, and the noise clause at its largest error. -/
theorem witness_QamLaws :
    (0x800000 : Comp) ≠ 0 ∧ (1 : Comp) ≠ 0 ∧ (0 : BitVec 2) ≠ qamGroup { re := 0x800000, im := 1 }
    ∧ |(1 : Comp).toInt - (qamSymbol 0).re.toInt| < 2965821 := by decide

theorem witness_PermutationIsBijection :
    0 < 6 ∧ 0 < 3 ∧ 3 ∣ 6 ∧ ([1, 2, 3, 4, 5, 6] : List (BitVec 8)).length = 6 := by
  decide

/-- The three clauses of an item without a tag: a tail, the block's last item, and a first item. -/
theorem witness_IlvItemRule :
    ready.ilv.life.mode = .running ∧ ready.ilv.check = .noError ∧ ¬ OverWide 15 ready.ilv.w
    ∧ ((withFwd { buf := [], rem := 5, pend := some 5 }).ilv.fwd.buf = []
      ∧ 0 < (withFwd { buf := [], rem := 5, pend := some 5 }).ilv.fwd.rem.toNat
      ∧ (withFwd { buf := [], rem := 5, pend := some 5 }).ilv.fwd.rem.toNat < 6)
    ∧ (withFwd { buf := [1, 2, 3, 4, 5], rem := 1, pend := some 6 }).ilv.fwd.buf.length + 1 = 6
    ∧ (withFwd { buf := [], rem := 6, pend := some 6 }).ilv.fwd.buf.length + 1 ≠ 6 := by decide

theorem witness_IlvFlushRule : (withFwd { buf := [1], rem := 5, pend := some 6 }).ilv.life.mode = .running := by
  decide

/-- A stream with a cut-off block, a packet with a tail and free-running items. -/
theorem witness_IlvStreamRoundTrip :
    ready.ilv.life.mode = .running ∧ ready.ilv.check = .noError
    ∧ ready.ilv.fwd = .reset ∧ ready.ilv.inv = .reset ∧ ready.ilv.ctx .inv = .reset
    ∧ ∀ p ∈ ([(1, none), (2, some 2), (3, none), (15, none)] : List (BitVec 8 × Tag)),
        ¬ OverWide p.1 ready.ilv.w ∧ Tag.WellFormed p.2 := by
  refine ⟨by decide, by decide, by decide, by decide, by decide, ?_⟩
  simp only [List.forall_mem_cons]
  exact ⟨by decide, by decide, by decide, by decide, by simp⟩

/-- The same stream, in the inverse direction. -/
theorem witness_IlvTagsKeepPosition :
    ready.ilv.life.mode = .running ∧ ready.ilv.check = .noError ∧ ready.ilv.ctx .inv = .reset
    ∧ ∀ p ∈ ([(1, none), (2, some 2), (3, none), (15, none)] : List (BitVec 8 × Tag)),
        ¬ OverWide p.1 ready.ilv.w ∧ Tag.WellFormed p.2 :=
  ⟨witness_IlvStreamRoundTrip.1, witness_IlvStreamRoundTrip.2.1, witness_IlvStreamRoundTrip.2.2.2.2.1,
    witness_IlvStreamRoundTrip.2.2.2.2.2⟩

theorem witness_RpkFlushRule : (ready.rpk .k2).life.mode = .running := by decide

theorem witness_RpkPushRule :
    (ready.rpk .k3).life.mode = .running ∧ (ready.rpk .k3).check = .noError
    ∧ ¬ OverWide 1 (ready.rpk .k3).gIn := by decide

/-- An inexact packet on 7→8. -/
theorem witness_RpkPacketGivesItsBits :
    (ready.rpk .k2).life.mode = .running ∧ (ready.rpk .k2).check = .noError
    ∧ (∀ v ∈ ([0x61, 0x00, 0x52] : List (BitVec 8)), ¬ OverWide v (ready.rpk .k2).gIn)
    ∧ ([0x00, 0x52] : List (BitVec 8)).length + 1 < 2 ^ 32 := by decide

/-- An exact packet on 8→4 and back on 4→8; below, one instance 8→8 there and back. -/
theorem witness_RpkRoundTrip :
    (ready.rpk .k0).life.mode = .running ∧ (ready.rpk .k0).check = .noError
    ∧ (ready.rpk .k1).life.mode = .running ∧ (ready.rpk .k1).check = .noError
    ∧ (ready.rpk .k1).gIn = (ready.rpk .k0).gOut ∧ (ready.rpk .k1).gOut = (ready.rpk .k0).gIn
    ∧ (∀ v ∈ ([1, 255] : List (BitVec 8)), ¬ OverWide v (ready.rpk .k0).gIn)
    ∧ ([255] : List (BitVec 8)).length + 1 < 2 ^ 32
    ∧ (ready.rpk .k0).gOut.toNat ∣ (([255] : List (BitVec 8)).length + 1) * (ready.rpk .k0).gIn.toNat
    ∧ (([255] : List (BitVec 8)).length + 1) * (ready.rpk .k0).gIn.toNat / (ready.rpk .k0).gOut.toNat
      < 2 ^ 32 := by decide

theorem witness_RpkRoundTrip_same :
    let s := ready.setRpk .k2 { ready.rpk .k2 with gIn := 8, gOut := 8 }
    (s.rpk .k2).life.mode = .running ∧ (s.rpk .k2).check = .noError
    ∧ (s.rpk .k2).gIn = (s.rpk .k2).gOut
    ∧ (s.rpk .k2).gOut.toNat ∣ (([255] : List (BitVec 8)).length + 1) * (s.rpk .k2).gIn.toNat := by
  decide

theorem witness_MetricIsTheSums :
    0 + candidate.scg.cfg.fftLen.toNat ≤ candidate.scg.run.hist.length := by decide

theorem witness_MetricFitsWidths : 2048 ≤ 2048 ∧ (65535 : Word32).toNat ≤ 65535 := by decide

/-- R positive on both sides of a comparison, R = 0 in silence, and a threshold that is exceeded. -/
theorem witness_ComparisonsDecideTheMetric :
    0 < metricR [corner, corner] 1 0 ∧ metricR [corner, ⟨0, 0⟩] 1 0 = 0
    ∧ exceeds (metricP [corner, corner] 1 0) (metricR [corner, corner] 1 0) 1 = true := by decide

/-- Halves related by 1, i, -1 and -i. -/
theorem witness_MetricOfRotatedHalves :
    (∀ k, k < 1 → (sampleAt [⟨3, 1⟩, ⟨3, 1⟩] (0 + k + 1)).re.toInt = (sampleAt [⟨3, 1⟩, ⟨3, 1⟩] (0 + k)).re.toInt
      ∧ (sampleAt [⟨3, 1⟩, ⟨3, 1⟩] (0 + k + 1)).im.toInt = (sampleAt [⟨3, 1⟩, ⟨3, 1⟩] (0 + k)).im.toInt)
    ∧ (∀ k, k < 1 → (sampleAt [⟨3, 1⟩, ⟨-1, 3⟩] (0 + k + 1)).re.toInt = -(sampleAt [⟨3, 1⟩, ⟨-1, 3⟩] (0 + k)).im.toInt
      ∧ (sampleAt [⟨3, 1⟩, ⟨-1, 3⟩] (0 + k + 1)).im.toInt = (sampleAt [⟨3, 1⟩, ⟨-1, 3⟩] (0 + k)).re.toInt)
    ∧ (∀ k, k < 1 → (sampleAt [⟨3, 1⟩, ⟨-3, -1⟩] (0 + k + 1)).re.toInt = -(sampleAt [⟨3, 1⟩, ⟨-3, -1⟩] (0 + k)).re.toInt
      ∧ (sampleAt [⟨3, 1⟩, ⟨-3, -1⟩] (0 + k + 1)).im.toInt = -(sampleAt [⟨3, 1⟩, ⟨-3, -1⟩] (0 + k)).im.toInt)
    ∧ (∀ k, k < 1 → (sampleAt [⟨3, 1⟩, ⟨1, -3⟩] (0 + k + 1)).re.toInt = (sampleAt [⟨3, 1⟩, ⟨1, -3⟩] (0 + k)).im.toInt
      ∧ (sampleAt [⟨3, 1⟩, ⟨1, -3⟩] (0 + k + 1)).im.toInt = -(sampleAt [⟨3, 1⟩, ⟨1, -3⟩] (0 + k)).re.toInt) := by
  decide

/-- Off the axes. -/
theorem witness_AngleMeetsContract : (18 : Int) ≠ 0 ∧ (8 : Int) ≠ 0 ∧ (0 : Int) < 5 ∧ (-5 : Int) < 0 := by
  decide

/-- A gate with samples `hist`, state `fsm` and index `n`, its run begun at 0 with best (2, 0) over 2. -/
def gateAtIndex (fsm : Fsm) (n : Nat) (maxRun tHigh : Word32) (hist : List Sample) : Scg :=
  { ready.scg with
    cfg := { ready.scg.cfg with tHigh := tHigh, maxRun := maxRun }
    run := { ScgRun.reset with fsm := fsm, n := n, hist := hist, pos := hist.length
                               bP := { re := 2, im := 0 }, bR := 2 } }

/-- One gate for each clause: no metric yet; a search that starts a run and one that goes on; a run that
goes on with a better metric and with one that is not; a run that ends unconfirmed. -/
theorem witness_GateSearchesAndTracksRuns :
    (¬ ((gateAtIndex .searching 1 2 1 [⟨1, 1⟩, ⟨1, 1⟩]).run.n + 2 ≤ 2))
    ∧ exceeds ((gateAtIndex .searching 0 2 1 [⟨1, 1⟩, ⟨1, 1⟩]).P 0)
        ((gateAtIndex .searching 0 2 1 [⟨1, 1⟩, ⟨1, 1⟩]).R 0) 0 = true
    ∧ exceeds ((gateAtIndex .searching 0 2 1 [⟨1, 1⟩, ⟨0, 0⟩]).P 0)
        ((gateAtIndex .searching 0 2 1 [⟨1, 1⟩, ⟨0, 0⟩]).R 0) 0 = false
    ∧ better ((gateAtIndex .candidate 1 2 1 [⟨1, 1⟩, ⟨5, 5⟩, ⟨1, 1⟩]).P 1)
        ((gateAtIndex .candidate 1 2 1 [⟨1, 1⟩, ⟨5, 5⟩, ⟨1, 1⟩]).R 1) { re := 2, im := 0 } 2 = true
    ∧ better ((gateAtIndex .candidate 1 2 1 [⟨1, 1⟩, ⟨1, 1⟩, ⟨1, 1⟩]).P 1)
        ((gateAtIndex .candidate 1 2 1 [⟨1, 1⟩, ⟨1, 1⟩, ⟨1, 1⟩]).R 1) { re := 2, im := 0 } 2 = false
    ∧ ¬ (1 - (gateAtIndex .candidate 1 1 60000 [⟨1, 1⟩, ⟨1, 1⟩, ⟨1, 1⟩]).run.nFirst < 1)
    ∧ exceeds { re := 2, im := 0 } 2 60000 = false := by decide

/-- A run ended by its length, confirmed. -/
theorem witness_GateDetectionWritesResults :
    (gateAtIndex .candidate 1 1 1 [⟨1, 1⟩, ⟨1, 1⟩, ⟨1, 1⟩]).run.fsm = .candidate
    ∧ 1 + 2 ≤ (gateAtIndex .candidate 1 1 1 [⟨1, 1⟩, ⟨1, 1⟩, ⟨1, 1⟩]).run.pos
    ∧ ¬ (1 - (gateAtIndex .candidate 1 1 1 [⟨1, 1⟩, ⟨1, 1⟩, ⟨1, 1⟩]).run.nFirst < 1)
    ∧ exceeds { re := 2, im := 0 } 2 1 = true := by decide

/-- EMITTING with a sample to handle inside the frame, with its last one, and with none. -/
theorem witness_GateEmitsFrameSamples :
    emitting.scg.run.fsm = .emitting ∧ emitting.scg.run.pos ≤ emitting.scg.run.e
    ∧ { emitting.scg.run with e := 2 }.e < emitting.scg.run.pos
    ∧ { emitting.scg.run with e := 2 }.e + 1 ≠ emitting.scg.run.start + (2 + 1 * (1 + 2))
    ∧ { emitting.scg.run with e := 4 }.e + 1 = emitting.scg.run.start + (2 + 1 * (1 + 2)) := by decide

theorem witness_FrameOffsetsKept : ready.scg.cfg.check = .noError := by decide

theorem witness_ScgPushRunsGateToItsStop :
    LifeInv candidate ∧ ScgInv candidate ∧ candidate.scg.life.mode = .running :=
  ⟨lifeInv_candidate, scgInv_candidate, by decide⟩

theorem witness_ScgFlushRule : emitting.scg.life.mode = .running := by decide

theorem witness_ResultsWrittenOnlyAtDetection :
    (∃ t, step (present 0x400000000000800000800000 candidate) = .next t)
    ∧ resetsNext (present 0x400000000000800000800000 candidate) = false := ⟨⟨_, rfl⟩, by decide⟩

theorem witness_DetectionReportsEarliestBest :
    LifeInv candidate ∧ ScgInv candidate ∧ candidate.scg.life.mode = .running
    ∧ ∃ t, exec (.scgPush 0x800000 0x800000) candidate = .next t
      ∧ t.scg.res.frames ≠ candidate.scg.res.frames :=
  ⟨lifeInv_candidate, scgInv_candidate, by decide, _, rfl, by decide⟩

/-- Samples beside silence: the second half is empty at every index. -/
theorem witness_NoPreambleNoOutput :
    LifeInv ready ∧ ready.scg.life.mode = .running ∧ ready.scg.run.pos = 0 ∧ ready.scg.run.hist = []
    ∧ ready.scg.run.fsm = .searching ∧ ready.scg.run.n = 0
    ∧ ∀ m, m + ready.scg.cfg.fftLen.toNat ≤ [corner, ⟨0, 0⟩, ⟨0, 0⟩].length →
        exceeds (metricP [corner, ⟨0, 0⟩, ⟨0, 0⟩] ready.scg.cfg.half m)
          (metricR [corner, ⟨0, 0⟩, ⟨0, 0⟩] ready.scg.cfg.half m) ready.scg.cfg.tHigh = false := by
  refine ⟨lifeInv_ready, by decide, by decide, by decide, by decide, by decide, ?_⟩
  intro m hm
  have hm : m + 2 ≤ 3 := hm
  obtain rfl | rfl : m = 0 ∨ m = 1 := by omega
  · decide
  · decide

theorem witness_EmittedSamplesAreInputSamples :
    ∃ t, exec (.scgPush 0x800000 0x800000) candidate = .next t
      ∧ (⟨.gated, some 0, 0x800000800000⟩ : OutItem) ∈ t.out.drop candidate.out.length :=
  ⟨_, rfl, by decide⟩

theorem witness_FrameCompletes :
    LifeInv emitting ∧ ScgInv emitting ∧ emitting.scg.life.mode = .running
    ∧ emitting.scg.run.fsm = .emitting
    ∧ emitting.scg.run.pos + [corner, corner].length
      = emitting.scg.run.start + emitting.scg.cfg.frameLen :=
  ⟨lifeInv_emitting, scgInv_emitting, by decide, by decide, by decide⟩

end Sys2Proof.Tests
end

section
/-! The proofs of the family 10_state.md: what an operation and a step can do, said once
(`ExecEffect`, `StepEffect`), the unit an update touches (`SameUnit`), and from them what every step keeps
and what the status registers show. -/

namespace Sys2Proof

/-! ### Tags of decoded operations (R95 step 3) -/

/-- An operation is built with the tag it is given where its row takes one, and without a tag elsewhere. -/
theorem Op.build_tag (o : Op) (tag : Tag) (data : Data) :
    (o.build tag data).tag = if o.takesTag then tag else none := by
  cases o <;> rfl

/-- What a word that decodes has passed, and what it decodes to. -/
theorem decode_eq_ok {w : Word} {i : Instr} (h : decode w = .ok i) :
    ∃ op, Op.ofCode (opcOf w) = some op ∧ zeroOf w = 0
      ∧ tagFieldsOk op.takesTag (tagBitOf w) (tagLenOf w) = true
      ∧ dataOf w &&& ~~~op.dataMask = 0 ∧ i = op.build (tagOf w) (dataOf w) := by
  unfold decode at h
  split at h
  · cases h
  · next op hop =>
    split_ifs at h with hz ht hd
    cases h
    exact ⟨op, hop, not_not.mp hz, by simpa using ht, not_not.mp hd, rfl⟩

/-- R95 step 3 for a tag that is taken: it has a length of at least 1. -/
theorem tagOf_wellFormed {w : Word} (h : tagFieldsOk true (tagBitOf w) (tagLenOf w) = true) :
    Tag.WellFormed (tagOf w) := by
  unfold tagOf
  cases ht : tagBitOf w with
  | false => simp [Tag.WellFormed]
  | true => simpa [tagFieldsOk, ht] using h

/-- What a word decodes to is well-formed (R95 step 3). -/
theorem decode_wellFormed {w : Word} {i : Instr} (h : decode w = .ok i) : i.WellFormed := by
  obtain ⟨op, -, -, htag, -, rfl⟩ := decode_eq_ok h
  rw [Instr.WellFormed, Op.build_tag]
  cases hop : op.takesTag with
  | false => simp [Tag.WellFormed]
  | true => exact tagOf_wellFormed (hop ▸ htag)

end Sys2Proof

namespace Sys2Proof.Machine

/-! ### What an operation does (R85) -/

/-- Everything an operation can do to a state: be refused with a sticky condition, write one register,
commit one unit, reset, emit without touching a unit, or run the body of a RUNNING unit's operation. -/
inductive ExecEffect (s : State) : Instr → State → Prop
  /-- Any operation may raise one of the three sticky conditions. -/
  | refused (i : Instr) (c : Condition) (hc : ∀ u e, c ≠ .cfgerr u e) : ExecEffect s i (raise c s)
  /-- CFG_WR of a register of an UNCONFIGURED unit (R110). -/
  | wrote (addr : Addr) (value : Word32) (r : Reg) (u : UnitId) (t : State)
      (hw : s.writeReg value r = some (u, t)) (hm : (s.life u).mode = .unconfigured) :
      ExecEffect s (.cfgWr addr value) t
  /-- COMMIT whose checks pass (R112). -/
  | committed (u : UnitId) (hm : (s.life u).mode = .unconfigured) (hc : s.check u = .noError) :
      ExecEffect s (.commit u.number) (s.setLife u { s.life u with mode := .running })
  /-- COMMIT whose checks fail (R112). -/
  | failed (u : UnitId) (hm : (s.life u).mode = .unconfigured) (hc : s.check u ≠ .noError) :
      ExecEffect s (.commit u.number) (s.setLife u { mode := .failed, err := s.check u })
  /-- RESET (R119). -/
  | reset : ExecEffect s .reset (resetCore s)
  /-- CFG_RD, HAM and QAM only emit. -/
  | emitted (i : Instr) (items : List OutItem)
      (hi : i.op ∈ [.cfgRd, .hamEnc, .hamDec, .qamMap, .qamDemap]) : ExecEffect s i (s.emit items)
  /-- ILV_FWD, ILV_INV (R155, R156). -/
  | ilvItem (d : Dir) (x : IlvItem) (tag : Tag) (hm : s.ilv.life.mode = .running)
      (hw : tooWide x s.ilv.w = false) :
      ExecEffect s (Machine.ilvItem d x tag)
        (s.putIlv d ((s.ilv.ctx d).push d s.ilv.n.toNat s.ilv.cols.toNat x tag))
  /-- ILV_FLUSH_FWD, ILV_FLUSH_INV (R157, R158). -/
  | ilvFlush (d : Dir) (hm : s.ilv.life.mode = .running) :
      ExecEffect s (ilvFlushOf d) (s.putIlv d ((s.ilv.ctx d).flush d))
  /-- SCG_PUSH (R215). -/
  | scgPush (re im : Comp) (hm : s.scg.life.mode = .running) :
      ExecEffect s (.scgPush re im)
        ({ s with scg := (s.scg.push ⟨re, im⟩).1 }.emit (s.scg.push ⟨re, im⟩).2)
  /-- SCG_FLUSH (R232). -/
  | scgFlush (hm : s.scg.life.mode = .running) :
      ExecEffect s .scgFlush { s with scg := s.scg.flush }
  /-- RPKk_PUSH (R253). -/
  | rpkItem (k : RpkId) (g : Group) (tag : Tag) (hm : (s.rpk k).life.mode = .running)
      (hw : tooWide g (s.rpk k).gIn = false) :
      ExecEffect s (Machine.rpkItem k g tag)
        ((s.setRpk k ((s.rpk k).push (.repacked k) g tag).1).emit
          ((s.rpk k).push (.repacked k) g tag).2)
  /-- RPKk_FLUSH (R254). -/
  | rpkFlush (k : RpkId) (hm : (s.rpk k).life.mode = .running) :
      ExecEffect s (rpkFlushOf k) (s.setRpk k (s.rpk k).flush)

theorem ExecEffect.illegal (s : State) (i : Instr) : ExecEffect s i (raise .illegal s) :=
  .refused i _ (fun _ _ => Condition.noConfusion)

theorem ExecEffect.notrun (s : State) (i : Instr) : ExecEffect s i (raise .notrun s) :=
  .refused i _ (fun _ _ => Condition.noConfusion)

theorem ExecEffect.cfglock (s : State) (i : Instr) : ExecEffect s i (raise .cfglock s) :=
  .refused i _ (fun _ _ => Condition.noConfusion)

/-- An operation in the common frame is refused, or does what its body does (R120). -/
theorem ExecEffect.framed {s : State} {i : Instr} {u : UnitId} {wide : Bool} {body : State → State}
    (hb : (s.life u).mode = .running → wide = false → ExecEffect s i (body s)) :
    ExecEffect s i (framed u wide body s) := by
  rcases framed_cases u wide body s with ⟨-, e⟩ | ⟨-, -, e⟩ | ⟨hm, hw, e⟩ <;> rw [e]
  · exact .notrun s i
  · exact .illegal s i
  · exact hb hm hw

theorem execCfgWr_effect (addr : Addr) (value : Word32) (s : State) :
    ∃ t, execCfgWr addr value s = .next t ∧ ExecEffect s (.cfgWr addr value) t := by
  refine ⟨_, rfl, ?_⟩
  cases Reg.ofAddr addr with
  | none => exact .illegal s _
  | some r =>
    rcases writeMapped_cases r value s with ⟨-, e⟩ | ⟨u, t, hw, ⟨hm, e⟩ | ⟨-, e⟩⟩ <;> simp only [e]
    · exact .illegal s _
    · exact .wrote addr value r u t hw hm
    · exact .cfglock s _

theorem execCfgRd_effect (addr : Addr) (s : State) :
    ∃ t, execCfgRd addr s = .next t ∧ ExecEffect s (.cfgRd addr) t := by
  refine ⟨_, rfl, ?_⟩
  cases Reg.ofAddr addr with
  | none => exact .illegal s _
  | some r => exact .emitted _ _ (by simp [Instr.op])

theorem execCommit_effect (n : UnitNum) (s : State) :
    ∃ t, execCommit n s = .next t ∧ ExecEffect s (.commit n) t := by
  refine ⟨_, rfl, ?_⟩
  cases hu : UnitId.ofNumber n with
  | none => exact .illegal s _
  | some u =>
    obtain rfl := UnitId.number_of_ofNumber hu
    simp only [commitUnit]
    split_ifs with hm hc
    · exact .cfglock s _
    · exact .committed u (not_not.mp hm) hc
    · exact .failed u (not_not.mp hm) hc

/-- Every operation answers a next state, which is one of its effects. -/
theorem exec_next_effect (i : Instr) (s : State) : ∃ t, exec i s = .next t ∧ ExecEffect s i t := by
  cases i with
  | cfgWr addr value => exact execCfgWr_effect addr value s
  | cfgRd addr => exact execCfgRd_effect addr s
  | commit n => exact execCommit_effect n s
  | reset => exact ⟨_, rfl, .reset⟩
  | hamEnc d tag => exact ⟨_, rfl, .framed fun _ _ => .emitted _ _ (by simp [Instr.op])⟩
  | hamDec c tag => exact ⟨_, rfl, .framed fun _ _ => .emitted _ _ (by simp [Instr.op])⟩
  | ilvFwd x tag => exact ⟨_, rfl, .framed fun hm hw => .ilvItem .fwd x tag hm hw⟩
  | ilvInv x tag => exact ⟨_, rfl, .framed fun hm hw => .ilvItem .inv x tag hm hw⟩
  | ilvFlushFwd => exact ⟨_, rfl, .framed fun hm _ => .ilvFlush .fwd hm⟩
  | ilvFlushInv => exact ⟨_, rfl, .framed fun hm _ => .ilvFlush .inv hm⟩
  | qamMap v tag => exact ⟨_, rfl, .framed fun _ _ => .emitted _ _ (by simp [Instr.op])⟩
  | qamDemap re im tag => exact ⟨_, rfl, .framed fun _ _ => .emitted _ _ (by simp [Instr.op])⟩
  | scgPush re im => exact ⟨_, rfl, .framed fun hm _ => .scgPush re im hm⟩
  | scgFlush => exact ⟨_, rfl, .framed fun hm _ => .scgFlush hm⟩
  | rpk0Push g tag => exact ⟨_, rfl, .framed fun hm hw => .rpkItem .k0 g tag hm hw⟩
  | rpk0Flush => exact ⟨_, rfl, .framed fun hm _ => .rpkFlush .k0 hm⟩
  | rpk1Push g tag => exact ⟨_, rfl, .framed fun hm hw => .rpkItem .k1 g tag hm hw⟩
  | rpk1Flush => exact ⟨_, rfl, .framed fun hm _ => .rpkFlush .k1 hm⟩
  | rpk2Push g tag => exact ⟨_, rfl, .framed fun hm hw => .rpkItem .k2 g tag hm hw⟩
  | rpk2Flush => exact ⟨_, rfl, .framed fun hm _ => .rpkFlush .k2 hm⟩
  | rpk3Push g tag => exact ⟨_, rfl, .framed fun hm hw => .rpkItem .k3 g tag hm hw⟩
  | rpk3Flush => exact ⟨_, rfl, .framed fun hm _ => .rpkFlush .k3 hm⟩

theorem exec_effect {i : Instr} {s t : State} (h : exec i s = .next t) : ExecEffect s i t := by
  obtain ⟨t', e, he⟩ := exec_next_effect i s
  obtain rfl : t' = t := by simpa [e] using h
  exact he

/-! ### What a step does (R66) -/

/-- Everything a step can do: nothing where nothing is presented, else take one stimulus and reset,
refuse an invalid word, or perform the decoded operation. -/
inductive StepEffect (s : State) : State → Prop
  | idle (hs : s.input = []) : StepEffect s s
  | hwReset (rest : List Stimulus) (hs : s.input = .hwReset :: rest) :
      StepEffect s (resetCore { s with input := rest })
  | invalid (w : Word) (rest : List Stimulus) (hs : s.input = .word w :: rest) :
      StepEffect s (raise .illegal { s with input := rest })
  | performed (w : Word) (rest : List Stimulus) (i : Instr) (t : State)
      (hs : s.input = .word w :: rest) (hd : decode w = .ok i)
      (he : ExecEffect { s with input := rest } i t) : StepEffect s t

theorem step_effect {s t : State} (h : step s = .next t) : StepEffect s t := by
  rcases fetch_cases s with ⟨hs, hf⟩ | ⟨x, rest, hs, hf⟩ <;> simp only [step, hf] at h
  · cases h
    exact .idle hs
  · cases x with
    | hwReset => cases h; exact .hwReset rest hs
    | word w =>
      cases hd : decode w with
      | error e => simp only [hd] at h; cases h; exact .invalid w rest hs
      | ok i => simp only [hd] at h; exact .performed w rest i t hs hd (exec_effect h)

/-- A predicate that does not look at the input, and that every well-formed operation keeps, is kept by
every step: the reset input has the effect of RESET, an invalid word that of a refused operation. -/
theorem step_keeps {P : State → Prop} (hin : ∀ s rest, P s → P { s with input := rest })
    (hexec : ∀ s i t, P s → i.WellFormed → ExecEffect s i t → P t) {s t : State} (hP : P s)
    (h : step s = .next t) : P t := by
  have hreset : Instr.reset.WellFormed := by decide
  cases step_effect h with
  | idle => exact hP
  | hwReset rest => exact hexec _ .reset _ (hin s rest hP) hreset .reset
  | invalid w rest => exact hexec _ .reset _ (hin s rest hP) hreset (.illegal _ _)
  | performed w rest i t _ hd he => exact hexec _ i t (hin s rest hP) (decode_wellFormed hd) he

/-! ### The unit an update touches -/

/-- The part of the state that belongs to a unit is the same in both states (R68). -/
def SameUnit (s t : State) : UnitId → Prop
  | .ham => t.ham = s.ham
  | .ilv => t.ilv = s.ilv
  | .qam => t.qam = s.qam
  | .scg => t.scg = s.scg
  | .rpk k => t.rpk k = s.rpk k

/-- A unit's run state is what reset leaves (R116). -/
def State.Fresh (s : State) : UnitId → Prop
  | .ham => True
  | .ilv => s.ilv.Fresh
  | .qam => True
  | .scg => s.scg.Fresh
  | .rpk k => (s.rpk k).Fresh

/-- `LifeInv` unit by unit. -/
theorem lifeInv_iff (s : State) :
    LifeInv s ↔ ∀ u, LifeOk (s.life u) (s.check u) (s.Fresh u) := by
  constructor
  · rintro ⟨hham, hilv, hqam, hscg, hrpk⟩ u
    cases u with
    | ham => exact hham
    | ilv => exact hilv
    | qam => exact hqam
    | scg => exact hscg
    | rpk k => exact hrpk k
  · exact fun h => ⟨h .ham, h .ilv, h .qam, h .scg, fun k => h (.rpk k)⟩

theorem SameUnit.life_eq {s t : State} {u : UnitId} (h : SameUnit s t u) : t.life u = s.life u := by
  cases u with
  | ham | qam => exact h
  | ilv => exact congrArg Ilv.life h
  | scg => exact congrArg Scg.life h
  | rpk k => exact congrArg Rpk.life h

theorem SameUnit.check_eq {s t : State} {u : UnitId} (h : SameUnit s t u) : t.check u = s.check u := by
  cases u with
  | ham | qam => rfl
  | ilv => exact congrArg Ilv.check h
  | scg => exact congrArg (fun g => g.cfg.check) h
  | rpk k => exact congrArg Rpk.check h

theorem SameUnit.fresh_iff {s t : State} {u : UnitId} (h : SameUnit s t u) :
    t.Fresh u ↔ s.Fresh u := by
  cases u with
  | ham | qam => exact Iff.rfl
  | ilv => exact iff_of_eq (congrArg Ilv.Fresh h)
  | scg => exact iff_of_eq (congrArg Scg.Fresh h)
  | rpk k => exact iff_of_eq (congrArg Rpk.Fresh h)

/-- Emission touches no unit. -/
theorem SameUnit.emit {s t : State} {u : UnitId} (h : SameUnit s t u) (items : List OutItem) :
    SameUnit s (t.emit items) u := by
  cases u <;> exact h

/-- Raising a sticky condition touches no unit (R281). -/
theorem raise_sameUnit {s : State} {c : Condition} (hc : ∀ u e, c ≠ .cfgerr u e) (u : UnitId) :
    SameUnit s (raise c s) u := by
  rw [raise_sticky c s hc]
  cases u <;> rfl

theorem withIlv_sameUnit (s : State) (v : Ilv) {u : UnitId} (h : u ≠ .ilv) :
    SameUnit s { s with ilv := v } u := by
  cases u with
  | ilv => exact absurd rfl h
  | ham | qam | scg | rpk => rfl

theorem withScg_sameUnit (s : State) (g : Scg) {u : UnitId} (h : u ≠ .scg) :
    SameUnit s { s with scg := g } u := by
  cases u with
  | scg => exact absurd rfl h
  | ham | qam | ilv | rpk => rfl

theorem setRpk_sameUnit (s : State) (k : RpkId) (x : Rpk) {u : UnitId} (h : u ≠ .rpk k) :
    SameUnit s (s.setRpk k x) u := by
  cases u with
  | ham | ilv | qam | scg => rfl
  | rpk j => exact setRpk_rpk_other s k j x (fun e => h (congrArg _ e))

theorem setLife_sameUnit (s : State) (v : UnitId) (l : Life) {u : UnitId} (h : u ≠ v) :
    SameUnit s (s.setLife v l) u := by
  cases v with
  | ham | qam => cases u <;> first | rfl | exact absurd rfl h
  | ilv => exact withIlv_sameUnit s _ h
  | scg => exact withScg_sameUnit s _ h
  | rpk k => exact setRpk_sameUnit s k _ h

theorem putIlv_sameUnit (s : State) (d : Dir) (r : IlvCtx × List OutItem) {u : UnitId}
    (h : u ≠ .ilv) : SameUnit s (s.putIlv d r) u :=
  (withIlv_sameUnit s _ h).emit r.2

/-! ### What the checks of R114 look at -/

theorem Ilv.check_congr {v v' : Ilv} (hn : v'.n = v.n) (hc : v'.cols = v.cols) (hw : v'.w = v.w) :
    v'.check = v.check := by
  simp only [Ilv.check, hn, hc, hw]

theorem Rpk.check_congr {x x' : Rpk} (hi : x'.gIn = x.gIn) (ho : x'.gOut = x.gOut) :
    x'.check = x.check := by
  simp only [Rpk.check, hi, ho]

/-! ### Updates of MODE and CFGERR -/

/-- Replacing MODE and CFGERR leaves the registers alone. -/
@[simp] theorem setLife_check (s : State) (u v : UnitId) (l : Life) :
    (s.setLife u l).check v = s.check v := by
  by_cases h : v = u
  · subst h
    cases v with
    | ham | ilv | qam | scg => rfl
    | rpk k => exact Rpk.check_congr (by simp [State.setLife]) (by simp [State.setLife])
  · exact (setLife_sameUnit s u l h).check_eq

/-- Replacing MODE and CFGERR leaves the run states alone. -/
@[simp] theorem setLife_fresh (s : State) (u v : UnitId) (l : Life) :
    (s.setLife u l).Fresh v ↔ s.Fresh v := by
  by_cases h : v = u
  · subst h
    cases v <;> simp [State.setLife, State.Fresh]
  · exact (setLife_sameUnit s u l h).fresh_iff

@[simp] theorem setLife_scg_res (s : State) (u : UnitId) (l : Life) :
    (s.setLife u l).scg.res = s.scg.res := by
  cases u <;> rfl

/-! ### Updates of a unit's other state -/

@[simp] theorem putIlv_ilv (s : State) (d : Dir) (r : IlvCtx × List OutItem) :
    (s.putIlv d r).ilv = s.ilv.setCtx d r.1 := rfl

@[simp] theorem putIlv_check_ilv (s : State) (d : Dir) (r : IlvCtx × List OutItem) :
    (s.putIlv d r).check .ilv = s.check .ilv :=
  Ilv.check_congr (by simp) (by simp) (by simp)

@[simp] theorem putIlv_life (s : State) (d : Dir) (r : IlvCtx × List OutItem) (u : UnitId) :
    (s.putIlv d r).life u = s.life u := by
  cases u <;> simp [State.life, State.putIlv, State.rpk]

/-- A gate put back with its MODE and CFGERR leaves every unit's. -/
theorem withScg_life (s : State) (g : Scg) (h : g.life = s.scg.life) (u : UnitId) :
    State.life { s with scg := g } u = s.life u := by
  cases u with
  | scg => exact h
  | ham | ilv | qam | rpk => rfl

/-- A repacker put back with its MODE and CFGERR leaves every unit's. -/
theorem setRpk_life (s : State) (k : RpkId) (x : Rpk) (h : x.life = (s.rpk k).life) (u : UnitId) :
    (s.setRpk k x).life u = s.life u := by
  by_cases hu : u = .rpk k
  · subst hu
    simpa [State.life] using h
  · exact (setRpk_sameUnit s k x hu).life_eq

/-- A repacker put back with its registers leaves the outcome of its checks. -/
theorem setRpk_check_same (s : State) (k : RpkId) (x : Rpk) (hi : x.gIn = (s.rpk k).gIn)
    (ho : x.gOut = (s.rpk k).gOut) : (s.setRpk k x).check (.rpk k) = s.check (.rpk k) :=
  Rpk.check_congr (by simpa using hi) (by simpa using ho)

@[simp] theorem Rpk.push_life (src : Stream) (g : Group) (tag : Tag) (x : Rpk) :
    (x.push src g tag).1.life = x.life := by
  simp [Rpk.push]

@[simp] theorem Rpk.push_gIn (src : Stream) (g : Group) (tag : Tag) (x : Rpk) :
    (x.push src g tag).1.gIn = x.gIn := by
  simp [Rpk.push]

@[simp] theorem Rpk.push_gOut (src : Stream) (g : Group) (tag : Tag) (x : Rpk) :
    (x.push src g tag).1.gOut = x.gOut := by
  simp [Rpk.push]

@[simp] theorem Scg.push_life (r : Sample) (g : Scg) : (g.push r).1.life = g.life :=
  (Scg.advance_sameInput _ _).life

@[simp] theorem Scg.push_cfg (r : Sample) (g : Scg) : (g.push r).1.cfg = g.cfg :=
  (Scg.advance_sameInput _ _).cfg

/-! ### Register writes (R65) -/

/-- What a register write leaves alone: the other units, and all of its own unit but the registers. -/
structure WritesRegisterOf (s t : State) (u : UnitId) : Prop where
  others : ∀ v, v ≠ u → SameUnit s t v
  life : t.life u = s.life u
  fresh : t.Fresh u ↔ s.Fresh u
  flags : t.flags = s.flags
  input : t.input = s.input
  out : t.out = s.out
  res : t.scg.res = s.scg.res

theorem withIlv_writesRegisterOf (s : State) (n cols w : Word32) :
    WritesRegisterOf s { s with ilv := { s.ilv with n := n, cols := cols, w := w } } .ilv :=
  ⟨fun _ hv => withIlv_sameUnit s _ hv, rfl, Iff.rfl, rfl, rfl, rfl, rfl⟩

theorem withScgCfg_writesRegisterOf (s : State) (c : ScgCfg) :
    WritesRegisterOf s { s with scg := { s.scg with cfg := c } } .scg :=
  ⟨fun _ hv => withScg_sameUnit s _ hv, rfl, Iff.rfl, rfl, rfl, rfl, rfl⟩

theorem setRpk_writesRegisterOf (s : State) (k : RpkId) (a b : Word32) :
    WritesRegisterOf s (s.setRpk k { s.rpk k with gIn := a, gOut := b }) (.rpk k) where
  others _ hv := setRpk_sameUnit s k _ hv
  life := by simp [State.life]
  fresh := by simp [State.Fresh]
  flags := rfl
  input := rfl
  out := rfl
  res := rfl

theorem writeReg_writesRegisterOf {s t : State} {v : Word32} {r : Reg} {u : UnitId}
    (h : s.writeReg v r = some (u, t)) : WritesRegisterOf s t u := by
  cases r with
  | ilvN | ilvCols | ilvW => cases h; exact withIlv_writesRegisterOf s _ _ _
  | fftLen | cpLen | tLow | tHigh | scNsym | scMaxRun =>
    cases h; exact withScgCfg_writesRegisterOf s _
  | rpkGIn k | rpkGOut k => cases h; exact setRpk_writesRegisterOf s k _ _
  | _ => cases h

/-! ### Input and output of a step (R35, R66) -/

/-- Raising a condition of any kind takes nothing and emits nothing (R281). -/
theorem raise_input (c : Condition) (s : State) : (raise c s).input = s.input := by
  cases c <;> simp [raise]

theorem raise_out (c : Condition) (s : State) : (raise c s).out = s.out := by
  cases c <;> simp [raise]

theorem ExecEffect.input_eq {s t : State} {i : Instr} (h : ExecEffect s i t) : t.input = s.input := by
  cases h with
  | refused _ c hc => exact raise_input c s
  | wrote addr value r u t hw => exact (writeReg_writesRegisterOf hw).input
  | committed u | failed u => exact setLife_input s u _
  | reset => exact resetCore_input s
  | emitted | ilvItem | ilvFlush | scgPush | scgFlush | rpkItem | rpkFlush => rfl

theorem ExecEffect.out_append {s t : State} {i : Instr} (h : ExecEffect s i t) :
    ∃ items, t.out = s.out ++ items := by
  cases h with
  | emitted | ilvItem | ilvFlush | scgPush | rpkItem => exact ⟨_, rfl⟩
  | refused _ c hc => exact ⟨[], by rw [raise_out, List.append_nil]⟩
  | wrote addr value r u t hw =>
    exact ⟨[], by rw [(writeReg_writesRegisterOf hw).out, List.append_nil]⟩
  | committed u | failed u => exact ⟨[], by rw [setLife_out, List.append_nil]⟩
  | reset => exact ⟨[], by rw [resetCore_out, List.append_nil]⟩
  | scgFlush | rpkFlush => exact ⟨[], (List.append_nil _).symm⟩

/-- Settles O3: every effect leaves the input list it is given and extends the output list. -/
theorem emittedItemsStayEmitted : Obligations.EmittedItemsStayEmitted := by
  intro s t h
  cases step_effect h with
  | idle hs => exact ⟨by simp [hs], [], (List.append_nil _).symm⟩
  | hwReset rest hs => exact ⟨by simp [hs], [], (List.append_nil _).symm⟩
  | invalid w rest hs => exact ⟨by simp [hs], [], (List.append_nil _).symm⟩
  | performed w rest i t hs _ he => exact ⟨by simp [hs, he.input_eq], he.out_append⟩

/-! ### Steps that are no reset event (R300) -/

theorem not_hwReset_of_resetsNext {s : State} {rest : List Stimulus}
    (h : resetsNext s = false) : s.input ≠ .hwReset :: rest := by
  intro hs
  simp [resetsNext, hs] at h

theorem ne_reset_of_resetsNext {s : State} {w : Word} {rest : List Stimulus} {i : Instr}
    (h : resetsNext s = false) (hs : s.input = .word w :: rest) (hd : decode w = .ok i) :
    i ≠ .reset := by
  rintro rfl
  simp [resetsNext, hs, hd] at h

/-! ### The sticky bits (R22) -/

/-- Every bit set in `f` is set in `g`. -/
def Flags.Le (f g : Flags) : Prop :=
  (f.illegal = true → g.illegal = true) ∧ (f.notrun = true → g.notrun = true)
    ∧ (f.cfglock = true → g.cfglock = true)

theorem Flags.Le.of_eq {f g : Flags} (h : g = f) : f.Le g := h ▸ ⟨id, id, id⟩

/-- Raising a condition clears no sticky bit (R281, R282). -/
theorem raise_flags_le (c : Condition) (s : State) : s.flags.Le (raise c s).flags := by
  cases c with
  | illegal => exact ⟨fun _ => rfl, id, id⟩
  | notrun => exact ⟨id, fun _ => rfl, id⟩
  | cfglock => exact ⟨id, id, fun _ => rfl⟩
  | cfgerr u e => exact .of_eq (setLife_flags s u _)

/-- Only RESET clears a sticky bit. -/
theorem ExecEffect.flags_le {s t : State} {i : Instr} (hi : i ≠ .reset) (h : ExecEffect s i t) :
    s.flags.Le t.flags := by
  cases h with
  | refused _ c hc => exact raise_flags_le c s
  | wrote addr value r u t hw => exact .of_eq (writeReg_writesRegisterOf hw).flags
  | committed u | failed u => exact .of_eq (setLife_flags s u _)
  | reset => exact absurd rfl hi
  | emitted | ilvItem | ilvFlush | scgPush | scgFlush | rpkItem | rpkFlush => exact .of_eq rfl

/-- Settles O16: conditions only set bits, and nothing else but RESET touches them. -/
theorem stickyBitsClearedOnlyByReset : Obligations.StickyBitsClearedOnlyByReset := by
  intro s t h hr
  cases step_effect h with
  | idle => exact Flags.Le.of_eq rfl
  | hwReset rest hs => exact absurd hs (not_hwReset_of_resetsNext hr)
  | invalid w rest => exact raise_flags_le .illegal { s with input := rest }
  | performed w rest i t hs hd he =>
    have hle := he.flags_le (ne_reset_of_resetsNext hr hs hd)
    exact hle

/-! ### MODE and CFGERR (R24, R25) -/

/-- Only RESET, and COMMIT of the unit itself while it is UNCONFIGURED, change a unit's MODE or CFGERR. -/
theorem ExecEffect.life_cases {s t : State} {i : Instr} (hi : i ≠ .reset) (h : ExecEffect s i t)
    (u : UnitId) :
    t.life u = s.life u
    ∨ ((s.life u).mode = .unconfigured ∧ (t.life u).mode ≠ .unconfigured ∧ i = .commit u.number) := by
  cases h with
  | refused _ c hc => exact .inl (raise_sameUnit hc u).life_eq
  | wrote addr value r v t hw =>
    have hwrites := writeReg_writesRegisterOf hw
    by_cases hu : u = v
    · exact .inl (hu ▸ hwrites.life)
    · exact .inl (hwrites.others u hu).life_eq
  | committed v hm | failed v hm =>
    by_cases hu : u = v
    · subst hu
      exact .inr ⟨hm, by simp, rfl⟩
    · exact .inl (setLife_life_other s v u _ hu)
  | reset => exact absurd rfl hi
  | emitted _ items => exact .inl (emit_life s items u)
  | ilvItem | ilvFlush => exact .inl (putIlv_life s _ _ u)
  | scgPush re im => exact .inl ((emit_life _ _ u).trans (withScg_life s _ (Scg.push_life _ _) u))
  | scgFlush => exact .inl (withScg_life s _ rfl u)
  | rpkItem k g tag =>
    exact .inl ((emit_life _ _ u).trans (setRpk_life s k _ (Rpk.push_life _ _ _ _) u))
  | rpkFlush k => exact .inl (setRpk_life s k (s.rpk k).flush rfl u)

/-- Settles O17. -/
theorem modeLeavesByCommitOrReset : Obligations.ModeLeavesByCommitOrReset := by
  intro s t u h hr
  cases step_effect h with
  | idle => exact .inl rfl
  | hwReset rest hs => exact absurd hs (not_hwReset_of_resetsNext hr)
  | invalid w rest => exact .inl (by cases u <;> rfl)
  | performed w rest i t hs hd he =>
    have hlife : State.life { s with input := rest } u = s.life u := by cases u <;> rfl
    rcases he.life_cases (ne_reset_of_resetsNext hr hs hd) u with hsame | ⟨hm, hm', rfl⟩
    · exact .inl (hsame.trans hlife)
    · exact .inr ⟨hlife ▸ hm, hm', w, rest, hs, hd⟩

/-! ### The result registers (R32, R222) -/

/-- The results are as before, or a metadata item is among what was emitted. -/
def ResultsReported (g : Scg) (r : Scg × List OutItem) : Prop :=
  r.1.res = g.res ∨ ∃ o ∈ r.2, o.src = .metadata

theorem Scg.searchStep_res (g : Scg) (p : Corr) (r : Nat) : (g.searchStep p r).res = g.res := by
  unfold Scg.searchStep
  split <;> rfl

theorem Scg.emitStep_res (g : Scg) : g.emitStep.1.res = g.res := by
  simp only [Scg.emitStep]
  split <;> rfl

/-- A run that ends writes the results only where it is confirmed, and then reports (R221 to R223). -/
theorem Scg.runEnd_reported (g : Scg) : ResultsReported g g.runEnd := by
  unfold Scg.runEnd
  split
  · exact .inr ⟨_, List.mem_singleton.mpr rfl, rfl⟩
  · exact .inl rfl

theorem Scg.candidateStep_reported (g : Scg) (p : Corr) (r : Nat) :
    ResultsReported g (g.candidateStep p r) := by
  unfold Scg.candidateStep
  split_ifs
  · exact .inl rfl
  · exact .inl rfl
  · exact g.runEnd_reported

theorem Scg.pass_reported {g : Scg} {r : Scg × List OutItem} (h : g.pass = some r) :
    ResultsReported g r := by
  rcases g.pass_cases with ⟨_, _, e⟩ | ⟨_, _, e⟩ | ⟨_, _, e⟩ | ⟨_, _, e⟩ | ⟨_, _, e⟩ <;>
    rw [e] at h <;> cases h
  · exact .inl g.emitStep_res
  · exact .inl (g.searchStep_res _ _)
  · exact g.candidateStep_reported _ _

theorem Scg.advance_reported (fuel : Nat) (g : Scg) : ResultsReported g (g.advance fuel) := by
  induction fuel generalizing g with
  | zero => exact .inl rfl
  | succ f ih =>
    unfold Scg.advance
    split
    · exact .inl rfl
    · next r h =>
      rcases Scg.pass_reported h with hpass | ⟨o, ho, hsrc⟩
      · rcases ih r.1 with hrest | ⟨o, ho, hsrc⟩
        · exact .inl (hrest.trans hpass)
        · exact .inr ⟨o, List.mem_append_right _ ho, hsrc⟩
      · exact .inr ⟨o, List.mem_append_left _ ho, hsrc⟩

theorem Scg.push_reported (r : Sample) (g : Scg) : ResultsReported g (g.push r) :=
  Scg.advance_reported _ { g with run := _ }

/-- Only RESET, and SCG_PUSH with a metadata item, write the result registers. -/
theorem ExecEffect.res_cases {s t : State} {i : Instr} (hi : i ≠ .reset) (h : ExecEffect s i t) :
    t.scg.res = s.scg.res
    ∨ ((∃ re im, i = .scgPush re im) ∧ ∃ o ∈ t.out.drop s.out.length, o.src = .metadata) := by
  cases h with
  | refused _ c hc => exact .inl (congrArg Scg.res (raise_sameUnit hc .scg))
  | wrote addr value r u t hw => exact .inl (writeReg_writesRegisterOf hw).res
  | committed u | failed u => exact .inl (setLife_scg_res s u _)
  | reset => exact absurd rfl hi
  | emitted | ilvItem | ilvFlush | scgFlush | rpkItem | rpkFlush => exact .inl rfl
  | scgPush re im =>
    rcases s.scg.push_reported ⟨re, im⟩ with hres | ⟨o, ho, hsrc⟩
    · exact .inl hres
    · exact .inr ⟨⟨re, im, rfl⟩, o, by simpa using ho, hsrc⟩

/-- Settles O56. -/
theorem resultsWrittenOnlyAtDetection : Obligations.ResultsWrittenOnlyAtDetection := by
  intro s t h hr
  cases step_effect h with
  | idle => exact .inl rfl
  | hwReset rest hs => exact absurd hs (not_hwReset_of_resetsNext hr)
  | invalid w rest => exact .inl rfl
  | performed w rest i t hs hd he =>
    rcases he.res_cases (ne_reset_of_resetsNext hr hs hd) with hres | ⟨⟨re, im, rfl⟩, ho⟩
    · exact .inl hres
    · exact .inr ⟨⟨w, rest, re, im, hs, hd⟩, ho⟩

/-! ### The life cycle (R24, R25, R114, R116, R117) -/

theorem LifeInv.unconfigured {s : State} (h : LifeInv s) {u : UnitId}
    (hm : (s.life u).mode = .unconfigured) : (s.life u).err = .noError ∧ s.Fresh u := by
  obtain ⟨hunc, -, -⟩ := (lifeInv_iff s).mp h u
  exact hunc hm

theorem LifeInv.running {s : State} (h : LifeInv s) {u : UnitId}
    (hm : (s.life u).mode = .running) : (s.life u).err = .noError ∧ s.check u = .noError := by
  obtain ⟨-, hrun, -⟩ := (lifeInv_iff s).mp h u
  exact hrun hm

/-- While no unit but `u` is touched, the life cycle is in order once that of `u` is. -/
theorem lifeInv_of_touched {s t : State} (h : LifeInv s) (u : UnitId)
    (hsame : ∀ v, v ≠ u → SameUnit s t v) (hu : LifeOk (t.life u) (t.check u) (t.Fresh u)) :
    LifeInv t := by
  rw [lifeInv_iff] at h ⊢
  intro v
  by_cases hv : v = u
  · exact hv ▸ hu
  · rw [(hsame v hv).life_eq, (hsame v hv).check_eq, (hsame v hv).fresh_iff]
    exact h v

/-- A RUNNING unit may change its run state. -/
theorem lifeInv_of_running {s t : State} (h : LifeInv s) (u : UnitId)
    (hm : (s.life u).mode = .running) (hsame : ∀ v, v ≠ u → SameUnit s t v)
    (hlife : t.life u = s.life u) (hcheck : t.check u = s.check u) : LifeInv t := by
  refine lifeInv_of_touched h u hsame ?_
  rw [hlife, hcheck]
  simpa [LifeOk, hm] using LifeInv.running h hm

/-- An UNCONFIGURED unit may change its registers. -/
theorem lifeInv_of_unconfigured {s t : State} (h : LifeInv s) (u : UnitId)
    (hm : (s.life u).mode = .unconfigured) (hw : WritesRegisterOf s t u) : LifeInv t := by
  refine lifeInv_of_touched h u hw.others ?_
  rw [hw.life, hw.fresh]
  simpa [LifeOk, hm] using LifeInv.unconfigured h hm

/-- COMMIT moves an UNCONFIGURED unit on, and its checks decide where to (R112). -/
theorem lifeInv_of_setLife {s : State} (h : LifeInv s) (u : UnitId) (l : Life)
    (hl : LifeOk l (s.check u) (s.Fresh u)) : LifeInv (s.setLife u l) := by
  refine lifeInv_of_touched h u (fun v hv => setLife_sameUnit s u l hv) ?_
  rw [setLife_life_same, setLife_check, setLife_fresh]
  exact hl

@[simp] theorem resetCore_rpk (s : State) (k : RpkId) : (resetCore s).rpk k = .reset := by
  simp [State.rpk, State.reset]

theorem resetCore_life (s : State) (u : UnitId) : (resetCore s).life u = .reset := by
  cases u with
  | ham | ilv | qam | scg => rfl
  | rpk k => simp [State.life, Rpk.reset]

theorem resetCore_fresh (s : State) (u : UnitId) : (resetCore s).Fresh u := by
  cases u with
  | ham | qam => exact True.intro
  | ilv | scg => exact ⟨rfl, rfl⟩
  | rpk k => simp only [State.Fresh, resetCore_rpk]; exact ⟨rfl, rfl, rfl⟩

theorem lifeInv_resetCore (s : State) : LifeInv (resetCore s) := by
  rw [lifeInv_iff]
  intro u
  simp [LifeOk, resetCore_life, Life.reset, resetCore_fresh]

/-- Every operation keeps the life cycle in order. -/
theorem ExecEffect.lifeInv {s t : State} {i : Instr} (h : LifeInv s) (he : ExecEffect s i t) :
    LifeInv t := by
  cases he with
  | refused _ c hc => rw [raise_sticky c s hc]; exact h
  | wrote addr value r u t hw hm => exact lifeInv_of_unconfigured h u hm (writeReg_writesRegisterOf hw)
  | committed u hm hc =>
    obtain ⟨herr, -⟩ := LifeInv.unconfigured h hm
    exact lifeInv_of_setLife h u _ (by simp [LifeOk, herr, hc])
  | failed u hm hc =>
    obtain ⟨-, hfresh⟩ := LifeInv.unconfigured h hm
    exact lifeInv_of_setLife h u _ (by simp [LifeOk, hfresh, hc])
  | reset => exact lifeInv_resetCore s
  | emitted => exact h
  | ilvItem d x tag hm | ilvFlush d hm =>
    exact lifeInv_of_running h .ilv hm (fun v hv => putIlv_sameUnit s _ _ hv) (by simp) (by simp)
  | scgPush re im hm =>
    exact lifeInv_of_running h .scg hm (fun v hv => (withScg_sameUnit s _ hv).emit _)
      (Scg.push_life _ _) (congrArg ScgCfg.check (Scg.push_cfg _ _))
  | scgFlush hm => exact lifeInv_of_running h .scg hm (fun v hv => withScg_sameUnit s _ hv) rfl rfl
  | rpkItem k g tag hm =>
    exact lifeInv_of_running h (.rpk k) hm (fun v hv => (setRpk_sameUnit s k _ hv).emit _)
      ((emit_life _ _ _).trans (setRpk_life s k _ (by simp) _)) (setRpk_check_same s k _ (by simp) (by simp))
  | rpkFlush k hm =>
    exact lifeInv_of_running h (.rpk k) hm (fun v hv => setRpk_sameUnit s k _ hv)
      (setRpk_life s k (s.rpk k).flush rfl _) (setRpk_check_same s k (s.rpk k).flush rfl rfl)

/-- Settles O25: an operation touches one unit, and what it may change of it depends on its MODE. -/
theorem lifeCycleKeptByStep : Obligations.LifeCycleKeptByStep := by
  intro s t h hstep
  exact step_keeps (fun _ _ => id) (fun _ _ _ h _ he => he.lifeInv h) h hstep

/-! ### The interleaver contexts (R29, R153, R155, R157) -/

/-- Legal registers give a block of at least one item (R114). -/
theorem Ilv.n_pos_of_check {v : Ilv} (h : v.check = .noError) : 0 < v.n.toNat := by
  by_contra hn
  simp [Ilv.check, show v.n.toNat = 0 by omega] at h

/-- A context just after a packet may have been opened and before the item is taken: as `IlvCtxOk`, but a
pending tag may still wait for the first item of its block. -/
structure IlvCtx.Ready (n : Nat) (w : Word32) (x : IlvCtx) : Prop where
  short : x.buf.length < n
  fits : ∀ v ∈ x.buf, tooWide v w = false
  inside : x.rem ≠ 0 → x.buf ≠ [] → n ≤ x.rem.toNat + x.buf.length
  pend : x.pend = none ∨ (x.rem ≠ 0 ∧ x.rem.toNat + x.buf.length = (x.pend.getD 0).toNat)

/-- A context with nothing buffered and no pending tag is in order, whatever is left of its packet. -/
theorem ilvCtxOk_of_empty {n : Nat} {w : Word32} {x : IlvCtx} (hn : 0 < n) (hb : x.buf = [])
    (hp : x.pend = none) : IlvCtxOk n w x := by
  simp [IlvCtxOk, hb, hp, hn]

theorem IlvCtx.release_pend_none (src : Stream) {items : List IlvItem} (x : IlvCtx) (h : items ≠ []) :
    (x.release src items).1.pend = none := by
  simp [IlvCtx.release, pendAfter, h]

theorem IlvCtx.openPacket_ready {n : Nat} {w : Word32} {x : IlvCtx} (src : Stream) {tag : Tag}
    (htag : Tag.WellFormed tag) (h : IlvCtxOk n w x) : (x.openPacket src tag).1.Ready n w := by
  obtain ⟨hshort, hfits, hinside, hpend⟩ := h
  cases tag with
  | none => exact ⟨hshort, hfits, hinside, hpend.imp_right (fun ⟨_, hr, hl⟩ => ⟨hr, hl⟩)⟩
  | some l =>
    have hl : l ≠ 0 := fun e => htag (congrArg some e)
    exact ⟨by simp [IlvCtx.openPacket]; omega, by simp [IlvCtx.openPacket],
      by simp [IlvCtx.openPacket], .inr ⟨hl, rfl⟩⟩

theorem IlvCtx.count_rem_toNat (x : IlvCtx) : x.count.rem.toNat = x.rem.toNat - 1 := by
  unfold IlvCtx.count
  split <;> bv_omega

/-- An item that joins its block without filling it: the rest of the block still lies in the packet. -/
theorem ilvCtxOk_of_buffered {n : Nat} {w : Word32} {x : IlvCtx} {v : IlvItem} (h : x.Ready n w)
    (hv : tooWide v w = false) (htail : ¬ (x.buf = [] ∧ 0 < x.rem.toNat ∧ x.rem.toNat < n))
    (hfull : x.buf.length + 1 ≠ n) : IlvCtxOk n w { x with buf := x.buf ++ [v] }.count := by
  obtain ⟨hshort, hfits, hinside, hpend⟩ := h
  have hne : ∀ r : TagLen, r ≠ 0 ↔ 0 < r.toNat := by intro r; bv_omega
  have hblock : 0 < x.rem.toNat → n ≤ x.rem.toNat + x.buf.length := by
    intro hr
    by_cases hb : x.buf = []
    · by_contra hlt
      exact htail ⟨hb, hr, by omega⟩
    · exact hinside ((hne _).mpr hr) hb
  simp only [IlvCtxOk, hne, IlvCtx.count_buf, IlvCtx.count_pend, IlvCtx.count_rem_toNat,
    List.length_append, List.length_singleton]
  refine ⟨by omega, ?_, fun hr _ => by omega, hpend.imp_right fun ⟨hr, hl⟩ => ?_⟩
  · simpa [or_imp, forall_and] using ⟨hfits, hv⟩
  · have hr' := (hne _).mp hr
    exact ⟨by simp, by omega, by omega⟩

theorem IlvCtx.take_count_ok {n c : Nat} {w : Word32} {x : IlvCtx} {v : IlvItem} (d : Dir)
    (h : x.Ready n w) (hv : tooWide v w = false) : IlvCtxOk n w (x.take d n c v).1.count := by
  have hn : 0 < n := by have := h.short; omega
  rcases x.take_cases d n c v with ⟨hb, -, -, e⟩ | ⟨-, -, e⟩ | ⟨htail, hfull, e⟩ <;> rw [e]
  · refine ilvCtxOk_of_empty hn (by simpa using hb) ?_
    rw [IlvCtx.count_pend, IlvCtx.release_pend_none _ _ (by simp)]
  · refine ilvCtxOk_of_empty hn (by simp) ?_
    rw [IlvCtx.count_pend, IlvCtx.release_pend_none]
    exact List.ne_nil_of_length_pos (by simpa using hn)
  · exact ilvCtxOk_of_buffered h hv htail hfull

/-- ILV_FWD and ILV_INV keep their context in order (R155). -/
theorem IlvCtx.push_ok {n c : Nat} {w : Word32} {x : IlvCtx} {v : IlvItem} (d : Dir) {tag : Tag}
    (htag : Tag.WellFormed tag) (hv : tooWide v w = false) (h : IlvCtxOk n w x) :
    IlvCtxOk n w (x.push d n c v tag).1 :=
  IlvCtx.take_count_ok d (IlvCtx.openPacket_ready d.stream htag h) hv

/-- `IlvInv` direction by direction. -/
theorem ilvInv_iff (s : State) :
    IlvInv s ↔ (s.ilv.life.mode = .running → ∀ d, IlvCtxOk s.ilv.n.toNat s.ilv.w (s.ilv.ctx d)) :=
  imp_congr_right fun _ =>
    ⟨fun ⟨hf, hi⟩ d => by cases d <;> assumption, fun h => ⟨h .fwd, h .inv⟩⟩

theorem SameUnit.ilvInv {s t : State} (h : SameUnit s t .ilv) (hi : IlvInv s) : IlvInv t := by
  have e : t.ilv = s.ilv := h
  simpa only [IlvInv, e] using hi

/-- A direction's context put back in order leaves both in order. -/
theorem ilvInv_putIlv {s : State} (hi : IlvInv s) (hm : s.ilv.life.mode = .running) (d : Dir)
    (r : IlvCtx × List OutItem) (hr : IlvCtxOk s.ilv.n.toNat s.ilv.w r.1) : IlvInv (s.putIlv d r) := by
  rw [ilvInv_iff] at hi ⊢
  intro _ d'
  rw [putIlv_ilv, setCtx_n, setCtx_w]
  by_cases hd : d' = d
  · rw [hd, setCtx_ctx_same]; exact hr
  · rw [setCtx_ctx_other _ _ _ _ hd]; exact hi hm d'

/-- The contexts reset leaves are in order for every legal block length (R116). -/
theorem ilvInv_of_fresh {s : State} (hf : s.ilv.Fresh) (hn : 0 < s.ilv.n.toNat) : IlvInv s := by
  obtain ⟨hfwd, hinv⟩ := hf
  exact fun _ => ⟨ilvCtxOk_of_empty hn (by rw [hfwd]; rfl) (by rw [hfwd]; rfl),
    ilvCtxOk_of_empty hn (by rw [hinv]; rfl) (by rw [hinv]; rfl)⟩

@[simp] theorem ilvItem_tag (d : Dir) (x : IlvItem) (tag : Tag) : (ilvItem d x tag).tag = tag := by
  cases d <;> rfl

/-- Every well-formed operation keeps the interleaver contexts in order. -/
theorem ExecEffect.ilvInv {s t : State} {i : Instr} (hl : LifeInv s) (hi : IlvInv s)
    (hwf : i.WellFormed) (he : ExecEffect s i t) : IlvInv t := by
  cases he with
  | refused _ c hc => exact (raise_sameUnit hc .ilv).ilvInv hi
  | wrote addr value r u t hw hm =>
    have hwrites := writeReg_writesRegisterOf hw
    by_cases hu : .ilv = u
    · subst hu
      intro hrun
      have := hwrites.life
      simp_all [State.life]
    · exact (hwrites.others .ilv hu).ilvInv hi
  | committed u hm hc =>
    by_cases hu : .ilv = u
    · subst hu
      obtain ⟨-, hfresh⟩ := LifeInv.unconfigured hl hm
      exact ilvInv_of_fresh ((setLife_fresh s .ilv .ilv _).mpr hfresh) (Ilv.n_pos_of_check hc)
    · exact (setLife_sameUnit s u _ hu).ilvInv hi
  | failed u hm hc =>
    by_cases hu : .ilv = u
    · subst hu
      exact fun hrun => Mode.noConfusion hrun
    · exact (setLife_sameUnit s u _ hu).ilvInv hi
  | reset => exact fun hrun => Mode.noConfusion hrun
  | emitted | scgPush | scgFlush | rpkItem | rpkFlush => exact hi
  | ilvItem d x tag hm hw =>
    refine ilvInv_putIlv hi hm d _ (IlvCtx.push_ok d (by simpa [Instr.WellFormed] using hwf) hw ?_)
    exact (ilvInv_iff s).mp hi hm d
  | ilvFlush d hm =>
    obtain ⟨-, hcheck⟩ := LifeInv.running hl (u := .ilv) hm
    exact ilvInv_putIlv hi hm d _ (ilvCtxOk_of_empty (Ilv.n_pos_of_check hcheck) rfl rfl)

/-- Settles O26, with the life cycle carried along: COMMIT needs its fresh contexts, a flush its legal
block length. -/
theorem ilvContextsKeptByStep : Obligations.IlvContextsKeptByStep := by
  intro s t hl hi hstep
  exact (step_keeps (P := fun s => LifeInv s ∧ IlvInv s) (fun _ _ => id)
    (fun _ _ _ ⟨hl, hi⟩ hwf he => ⟨he.lifeInv hl, he.ilvInv hl hi hwf⟩) ⟨hl, hi⟩ hstep).2

/-! ### The repackers (R34, R256) -/

/-- Legal registers give an output group of at least one bit (R114). -/
theorem Rpk.gOut_pos_of_check {x : Rpk} (h : x.check = .noError) : 0 < x.gOut.toNat := by
  by_contra hn
  simp [Rpk.check, show x.gOut.toNat = 0 by omega] at h

/-- A repacker with no bits and no pending tag is in order, whatever is left of its packet. -/
theorem rpkOk_of_empty {x : Rpk} (hpos : 0 < x.gOut.toNat) (ha : x.acc = []) (hp : x.pend = none) :
    RpkOk x := by
  intro _
  simp [ha, hp, hpos]

theorem rpkOk_flush {x : Rpk} (hpos : 0 < x.gOut.toNat) : RpkOk x.flush :=
  rpkOk_of_empty hpos rfl rfl

/-- The clause of `RpkOk` on the pending tag. -/
def Rpk.PendOk (x : Rpk) : Prop := x.pend = none ∨ (x.rem ≠ 0 ∧ x.pend ≠ some 0)

/-- A tag on a packet of no groups converts to a length of 0, which leaves no tag (R253, R255). -/
theorem rpkConv_zero (gIn gOut : Nat) : rpkConv gIn gOut 0 = 0 := by
  simp [rpkConv]

theorem Rpk.openPacket_pendOk {x : Rpk} (tag : Tag) (h : x.PendOk) : (x.openPacket tag).PendOk := by
  cases tag with
  | none => exact h
  | some l =>
    simp only [Rpk.openPacket, Rpk.PendOk]
    split_ifs with hc
    · exact .inl rfl
    · exact .inr ⟨fun hl => hc (by rw [hl, rpkConv_zero]), fun e => hc (Option.some.inj e)⟩

theorem pendAfter_eq (p : Tag) (items : List Data) : pendAfter p items = p ∨ pendAfter p items = none := by
  cases items with
  | nil => exact .inl rfl
  | cons => exact .inr rfl

theorem Rpk.take_pendOk {x : Rpk} (src : Stream) (g : Group) (h : x.PendOk) :
    (x.take src g).1.PendOk := by
  have hpend : (x.take src g).1.pend = x.pend ∨ (x.take src g).1.pend = none := pendAfter_eq _ _
  rcases hpend with e | e
  · rw [Rpk.PendOk, e]; exact h
  · exact .inl e

/-- Fewer than `G_OUT` bits are left when every complete group has gone (R256 item 1). -/
theorem Rpk.take_acc_length {x : Rpk} (src : Stream) (g : Group) (hpos : 0 < x.gOut.toNat) :
    (x.take src g).1.acc.length < x.gOut.toNat := by
  obtain ⟨-, -, hlen⟩ := cutGroups_spec x.gOut.toNat hpos _ (x.acc ++ groupBits g x.gIn.toNat) le_rfl
  exact hlen

/-- Counting a group of the packet: at its end the residue and the tag go, before it they stay (R253). -/
theorem rpkOk_count {x : Rpk} (hlen : x.acc.length < x.gOut.toNat) (hp : x.PendOk) : RpkOk x.count := by
  unfold Rpk.count
  split_ifs with h0 h1
  · exact fun _ => ⟨hlen, hp⟩
  · exact rpkOk_flush (by omega)
  · exact fun _ => ⟨hlen, hp.imp_right fun ⟨_, hne⟩ => ⟨by simp only; bv_omega, hne⟩⟩

/-- RPKk_PUSH keeps its repacker in order (R253). -/
theorem Rpk.push_ok {x : Rpk} (src : Stream) (g : Group) (tag : Tag) (hpos : 0 < x.gOut.toNat)
    (h : x.PendOk) : RpkOk (x.push src g tag).1 := by
  refine rpkOk_count ?_ (Rpk.take_pendOk src g (Rpk.openPacket_pendOk tag h))
  simpa using Rpk.take_acc_length (x := x.openPacket tag) src g (by simpa using hpos)

theorem SameUnit.rpkOk {s t : State} {k : RpkId} (h : SameUnit s t (.rpk k)) (hr : RpkOk (s.rpk k)) :
    RpkOk (t.rpk k) := by
  have e : t.rpk k = s.rpk k := h
  rwa [e]

/-- While only repacker `k` is touched, all are in order once that one is. -/
theorem rpkInv_setRpk {s : State} (h : RpkInv s) (k : RpkId) (x : Rpk) (hx : RpkOk x) :
    RpkInv (s.setRpk k x) := by
  intro j
  by_cases hj : j = k
  · rw [hj, setRpk_rpk_same]; exact hx
  · rw [setRpk_rpk_other _ _ _ _ hj]; exact h j

/-- Every operation keeps the repackers in order. -/
theorem ExecEffect.rpkInv {s t : State} {i : Instr} (hl : LifeInv s) (hi : RpkInv s)
    (he : ExecEffect s i t) : RpkInv t := by
  cases he with
  | refused _ c hc => exact fun k => (raise_sameUnit hc (.rpk k)).rpkOk (hi k)
  | wrote addr value r u t hw hm =>
    have hwrites := writeReg_writesRegisterOf hw
    intro k
    by_cases hu : .rpk k = u
    · subst hu
      intro hrun
      have hlife : (t.rpk k).life = (s.rpk k).life := hwrites.life
      have hm : (s.rpk k).life.mode = .unconfigured := hm
      simp [hlife, hm] at hrun
    · exact (hwrites.others _ hu).rpkOk (hi k)
  | committed u hm hc =>
    intro k
    by_cases hu : .rpk k = u
    · subst hu
      obtain ⟨-, hacc, -, hpend⟩ := LifeInv.unconfigured hl hm
      simp only [State.setLife, setRpk_rpk_same]
      exact rpkOk_of_empty (Rpk.gOut_pos_of_check hc) hacc hpend
    · exact (setLife_sameUnit s u _ hu).rpkOk (hi k)
  | failed u hm hc =>
    intro k
    by_cases hu : .rpk k = u
    · subst hu
      simp only [State.setLife, setRpk_rpk_same]
      exact fun hrun => Mode.noConfusion hrun
    · exact (setLife_sameUnit s u _ hu).rpkOk (hi k)
  | reset =>
    intro k
    rw [resetCore_rpk]
    exact fun hrun => Mode.noConfusion hrun
  | emitted | ilvItem | ilvFlush | scgPush | scgFlush => exact hi
  | rpkItem k g tag hm =>
    obtain ⟨hlen, hpend⟩ := hi k hm
    exact rpkInv_setRpk hi k _ (Rpk.push_ok _ g tag (by omega) hpend)
  | rpkFlush k hm =>
    obtain ⟨hlen, -⟩ := hi k hm
    exact rpkInv_setRpk hi k _ (rpkOk_flush (by omega))

/-- Settles O27, with the life cycle carried along: COMMIT needs its fresh run state. -/
theorem repackersKeptByStep : Obligations.RepackersKeptByStep := by
  intro s t hl hi hstep
  exact (step_keeps (P := fun s => LifeInv s ∧ RpkInv s) (fun _ _ => id)
    (fun _ _ _ ⟨hl, hi⟩ _ he => ⟨he.lifeInv hl, he.rpkInv hl hi⟩) ⟨hl, hi⟩ hstep).2

/-! ### The status registers (R22, R24 to R26) -/

/-- CFG_RD of a register's address returns the register (R111). -/
theorem readsAs_addr (s : State) (r : Reg) : ReadsAs s r.addr (s.readReg r) := by
  simp [ReadsAs, exec, execCfgRd, State.emit, regData_eq]

theorem showsMode_code (m : Mode) : ShowsMode m.code m := by
  cases m <;> simp [ShowsMode, Mode.code]

theorem showsErr_code (e : CfgErr) : ShowsErr e.code e := by
  cases e <;> simp [ShowsErr, CfgErr.code]

/-- A field is read where it was placed. -/
theorem extractLsb'_place_same {w n : Nat} (lo : Nat) (x : BitVec w) (h : lo + w ≤ n) :
    (place lo x : BitVec n).extractLsb' lo w = x := by
  apply BitVec.eq_of_getLsbD_eq
  intro i hi
  rw [BitVec.getLsbD_extractLsb', getLsbD_place]
  simp [hi, show lo + i < n by omega]

/-- Outside a placed field only zeros are read. -/
theorem extractLsb'_place_disjoint {w n : Nat} (lo : Nat) (x : BitVec w) (start len : Nat)
    (h : start + len ≤ lo ∨ lo + w ≤ start) : (place lo x : BitVec n).extractLsb' start len = 0 := by
  apply BitVec.eq_of_getLsbD_eq
  intro i hi
  rw [BitVec.getLsbD_extractLsb', getLsbD_place]
  rcases h with h | h
  · simp [show start + i < lo by omega]
  · simp [BitVec.getLsbD_of_ge x (start + i - lo) (by omega)]

theorem foldl_or_of_forall_zero {α : Type} {n : Nat} (l : List α) (g : α → BitVec n) (acc : BitVec n)
    (h : ∀ v ∈ l, g v = 0) : l.foldl (fun w v => w ||| g v) acc = acc := by
  induction l generalizing acc with
  | nil => rfl
  | cons v l ih =>
    rw [List.foldl_cons, ih _ (fun y hy => h y (List.mem_cons_of_mem v hy)), h v List.mem_cons_self]
    simp

/-- Where only the summand of `u` is not zero, it is the whole of an or over a list that has `u`. -/
theorem foldl_or_of_mem {α : Type} {n : Nat} {l : List α} (g : α → BitVec n) {u : α}
    (acc : BitVec n) (hu : u ∈ l) (h : ∀ v ∈ l, v ≠ u → g v = 0) :
    l.foldl (fun w v => w ||| g v) acc = acc ||| g u := by
  induction l generalizing acc with
  | nil => cases hu
  | cons v l ih =>
    have htail : ∀ y ∈ l, y ≠ u → g y = 0 := fun y hy => h y (List.mem_cons_of_mem v hy)
    rw [List.foldl_cons]
    by_cases hul : u ∈ l
    · rw [ih _ hul htail, BitVec.or_assoc]
      by_cases hv : v = u
      · rw [hv, BitVec.or_self]
      · simp [h v List.mem_cons_self hv]
    · obtain rfl : u = v := (List.mem_cons.mp hu).resolve_right hul
      exact foldl_or_of_forall_zero l g _ fun y hy => htail y hy (fun e => hul (e ▸ hy))

theorem extractLsb'_foldl_or {α : Type} {n : Nat} (l : List α) (g : α → BitVec n) (acc : BitVec n)
    (start len : Nat) : (l.foldl (fun w v => w ||| g v) acc).extractLsb' start len
      = l.foldl (fun w v => w ||| (g v).extractLsb' start len) (acc.extractLsb' start len) := by
  induction l generalizing acc with
  | nil => rfl
  | cons v l ih => rw [List.foldl_cons, ih, BitVec.extractLsb'_or, List.foldl_cons]

theorem UnitId.mem_all (u : UnitId) : u ∈ UnitId.all :=
  List.mem_of_find?_eq_some (UnitId.ofNumber_number u)

theorem UnitId.number_injective {u v : UnitId} (h : u.number = v.number) : u = v :=
  Option.some.inj (by rw [← UnitId.ofNumber_number u, h, UnitId.ofNumber_number])

/-- Unit numbers are 1 to 8 (R23). -/
theorem UnitId.number_bounds (u : UnitId) : 1 ≤ u.number.toNat ∧ u.number.toNat ≤ 8 := by
  cases u with
  | ham | ilv | qam | scg => decide
  | rpk k => revert k; decide

/-- Any bits of SYS_MODES are the or of those bits of every unit's field (R26). -/
theorem modesWord_extract (s : State) (start len : Nat) :
    s.modesWord.extractLsb' start len = UnitId.all.foldl (fun w v =>
      w ||| (place (2 * v.number.toNat) (s.life v).mode.code : Word32).extractLsb' start len) 0 := by
  rw [State.modesWord, extractLsb'_foldl_or]
  simp

/-- The field of a unit in SYS_MODES is its MODE: the fields of two units do not meet (R26). -/
theorem modesWord_field (s : State) (u : UnitId) :
    s.modesWord.extractLsb' (2 * u.number.toNat) 2 = (s.life u).mode.code := by
  have hbounds := u.number_bounds
  rw [modesWord_extract, foldl_or_of_mem _ _ u.mem_all]
  · rw [extractLsb'_place_same _ _ (by omega)]
    simp
  · intro v _ hv
    have hne : v.number.toNat ≠ u.number.toNat := fun e =>
      hv (UnitId.number_injective (BitVec.eq_of_toNat_eq e))
    exact extractLsb'_place_disjoint _ _ _ _ (by omega)

/-- Outside the fields of units 1 to 8, SYS_MODES reads 0 (R26). -/
theorem modesWord_zeros (s : State) (start len : Nat) (h : start + len ≤ 2 ∨ 18 ≤ start) :
    s.modesWord.extractLsb' start len = 0 := by
  rw [modesWord_extract]
  refine foldl_or_of_forall_zero _ _ _ fun v _ => ?_
  have hbounds := v.number_bounds
  exact extractLsb'_place_disjoint _ _ _ _ (by omega)

/-! The status registers with the places of their fields as numbers. -/

theorem Flags.word_eq_or (f : Flags) :
    f.word = place 0 (BitVec.ofBool f.illegal) ||| place 1 (BitVec.ofBool f.notrun)
      ||| place 2 (BitVec.ofBool f.cfglock) := rfl

theorem Life.word_eq_or (l : Life) : l.word = place 0 l.mode.code ||| place 4 l.err.code := rfl

theorem Scg.statusWord_eq_or (g : Scg) : g.statusWord = g.life.word ||| place 8 g.run.fsm.code := rfl

theorem Flags.word_bits (f : Flags) :
    f.word.getLsbD 0 = f.illegal ∧ f.word.getLsbD 1 = f.notrun ∧ f.word.getLsbD 2 = f.cfglock := by
  simp only [Flags.word_eq_or, BitVec.getLsbD_or, getLsbD_place]
  simp

theorem Flags.word_high (f : Flags) : f.word.extractLsb' 3 29 = 0 := by
  simp (disch := omega) only [Flags.word_eq_or, BitVec.extractLsb'_or, extractLsb'_place_disjoint]
  simp

theorem Life.word_mode (l : Life) : l.word.extractLsb' 0 2 = l.mode.code := by
  simp (disch := omega) only [Life.word_eq_or, BitVec.extractLsb'_or, extractLsb'_place_same,
    extractLsb'_place_disjoint]
  simp

theorem Life.word_gap (l : Life) : l.word.extractLsb' 2 2 = 0 := by
  simp (disch := omega) only [Life.word_eq_or, BitVec.extractLsb'_or, extractLsb'_place_disjoint,
    BitVec.or_self]

theorem Life.word_err (l : Life) : l.word.extractLsb' 4 4 = l.err.code := by
  simp (disch := omega) only [Life.word_eq_or, BitVec.extractLsb'_or, extractLsb'_place_same,
    extractLsb'_place_disjoint]
  simp

theorem Life.word_high (l : Life) (start len : Nat) (h : 8 ≤ start) :
    l.word.extractLsb' start len = 0 := by
  simp (disch := omega) only [Life.word_eq_or, BitVec.extractLsb'_or, extractLsb'_place_disjoint,
    BitVec.or_self]

/-- Below FSM, SCG_STATUS is as the other status registers (R26). -/
theorem Scg.statusWord_low (g : Scg) (start len : Nat) (h : start + len ≤ 8) :
    g.statusWord.extractLsb' start len = g.life.word.extractLsb' start len := by
  simp (disch := omega) only [Scg.statusWord_eq_or, BitVec.extractLsb'_or, extractLsb'_place_disjoint]
  simp

theorem Scg.statusWord_fsm (g : Scg) : g.statusWord.extractLsb' 8 2 = g.run.fsm.code := by
  simp (disch := omega) only [Scg.statusWord_eq_or, BitVec.extractLsb'_or, Life.word_high,
    extractLsb'_place_same]
  simp

theorem Scg.statusWord_high (g : Scg) : g.statusWord.extractLsb' 10 22 = 0 := by
  simp (disch := omega) only [Scg.statusWord_eq_or, BitVec.extractLsb'_or, Life.word_high,
    extractLsb'_place_disjoint, BitVec.or_self]

/-- The status register of a unit. -/
def UnitId.statusReg : UnitId → Reg
  | .ham => .hamStatus
  | .ilv => .ilvStatus
  | .qam => .qamStatus
  | .scg => .scgStatus
  | .rpk k => .rpkStatus k

/-- A status register stands at index 0 of its unit (R23, R26). -/
theorem UnitId.statusReg_addr (u : UnitId) : u.statusReg.addr = u.number ++ 0#4 := by
  cases u with
  | ham | ilv | qam | scg => decide
  | rpk k => exact (Reg.addr_rpk k).1

theorem readReg_statusReg (s : State) {u : UnitId} (h : u ≠ .scg) :
    s.readReg u.statusReg = (s.life u).word := by
  cases u with
  | scg => exact absurd rfl h
  | ham | ilv | qam | rpk => rfl

/-- SYS_STATUS shows the sticky bits (R22). -/
theorem readsAs_sysStatus (s : State) : ∃ v, ReadsAs s 0x00 v
    ∧ v.getLsbD 0 = s.flags.illegal ∧ v.getLsbD 1 = s.flags.notrun ∧ v.getLsbD 2 = s.flags.cfglock
    ∧ v.extractLsb' 3 29 = 0 := by
  obtain ⟨hillegal, hnotrun, hcfglock⟩ := s.flags.word_bits
  exact ⟨_, readsAs_addr s .sysStatus, hillegal, hnotrun, hcfglock, s.flags.word_high⟩

/-- SYS_MODES shows the MODE of every unit (R24). -/
theorem readsAs_sysModes (s : State) : ∃ v, ReadsAs s 0x01 v
    ∧ (∀ u : UnitId, ShowsMode (v.extractLsb' (2 * u.number.toNat) 2) (s.life u).mode)
    ∧ v.extractLsb' 0 2 = 0 ∧ v.extractLsb' 18 14 = 0 :=
  ⟨_, readsAs_addr s .sysModes, fun u => (modesWord_field s u).symm ▸ showsMode_code _,
    modesWord_zeros s 0 2 (by omega), modesWord_zeros s 18 14 (by omega)⟩

/-- A unit's status register shows its MODE and CFGERR (R24, R25). -/
theorem readsAs_unitStatus (s : State) (u : UnitId) (hu : u ≠ .scg) :
    ∃ v, ReadsAs s (u.number ++ 0#4) v
      ∧ ShowsMode (v.extractLsb' 0 2) (s.life u).mode ∧ v.extractLsb' 2 2 = 0
      ∧ ShowsErr (v.extractLsb' 4 4) (s.life u).err ∧ v.extractLsb' 8 24 = 0 := by
  have hread : ReadsAs s (u.number ++ 0#4) (s.life u).word := by
    rw [← readReg_statusReg s hu, ← u.statusReg_addr]
    exact readsAs_addr s _
  refine ⟨_, hread, ?_, Life.word_gap _, ?_, Life.word_high _ _ _ le_rfl⟩
  · rw [Life.word_mode]
    exact showsMode_code _
  · rw [Life.word_err]
    exact showsErr_code _

/-- SCG_STATUS shows MODE and CFGERR, and the detector's state as FSM (R26). -/
theorem readsAs_scgStatus (s : State) : ∃ v, ReadsAs s 0x40 v
    ∧ ShowsMode (v.extractLsb' 0 2) s.scg.life.mode ∧ v.extractLsb' 2 2 = 0
    ∧ ShowsErr (v.extractLsb' 4 4) s.scg.life.err
    ∧ (s.scg.run.fsm = .searching → v.extractLsb' 8 2 = 0)
    ∧ (s.scg.run.fsm = .candidate → v.extractLsb' 8 2 = 1)
    ∧ (s.scg.run.fsm = .emitting → v.extractLsb' 8 2 = 2)
    ∧ v.extractLsb' 10 22 = 0 := by
  refine ⟨s.scg.statusWord, readsAs_addr s .scgStatus, ?_, ?_, ?_, ?_, ?_, ?_, s.scg.statusWord_high⟩
  · rw [Scg.statusWord_low _ _ _ (by omega), Life.word_mode]
    exact showsMode_code _
  · rw [Scg.statusWord_low _ _ _ (by omega), Life.word_gap]
  · rw [Scg.statusWord_low _ _ _ (by omega), Life.word_err]
    exact showsErr_code _
  all_goals
    intro h
    rw [Scg.statusWord_fsm, h]
    rfl

/-- Settles O13, register by register. -/
theorem statusRegistersShowState : Obligations.StatusRegistersShowState :=
  ⟨readsAs_sysStatus, readsAs_sysModes, readsAs_unitStatus, readsAs_scgStatus⟩

end Sys2Proof.Machine
end

section
/-! The proofs of the family 20_memory.md: a step performs the word it takes, and a data or flush
operation applies one effect of its port, decided by what that port sees alone (`ActsOnPort`). The frame
of R68 and the commutation of independent operations follow from that. -/

namespace Sys2Proof.Machine

/-! ### A step performs the word it takes (R66) -/

theorem step_of_word {s : State} {w : Word} {rest : List Stimulus} {i : Instr}
    (hs : s.input = .word w :: rest) (hd : decode w = .ok i) :
    step s = exec i { s with input := rest } := by
  simp only [step, fetch, hs, hd]

theorem decode_tableWord_of_some {nbits w : Nat} {i : Instr} (h : decodeTableWord nbits w = some i) :
    decode (tableWord nbits w) = .ok i := by
  unfold decodeTableWord at h
  cases hd : decode (tableWord nbits w) with
  | ok j => simpa [hd] using h
  | error e => simp [hd] at h

/-- Settles O1: a word placed by `withFetchWord` is a word that stands first in the input. -/
theorem stepPerformsDecodedWord : Obligations.StepPerformsDecodedWord :=
  ⟨fun _ _ _ _ hs hd => step_of_word hs hd,
    fun s _ _ _ h => step_of_word (s := s.withFetchWord _ _) rfl (decode_tableWord_of_some h)⟩

/-! ### Ports: a unit, or one direction of ILV (R68) -/

/-- Two ports that share no run state: of different units, or the two directions of ILV (R68). -/
def PortsApart (p q : UnitId × Dir) : Prop := p.1 ≠ q.1 ∨ (p.1 = .ilv ∧ p.2 ≠ q.2)

theorem PortsApart.symm {p q : UnitId × Dir} (h : PortsApart p q) : PortsApart q p := by
  by_cases hu : q.1 = p.1
  · obtain hne | ⟨hp, hd⟩ := h
    · exact absurd hu.symm hne
    · exact .inr ⟨hu.trans hp, hd.symm⟩
  · exact .inl hu

theorem PortsApart.ne {p q : UnitId × Dir} (h : PortsApart p q) : p ≠ q := by
  rintro rfl
  obtain hne | ⟨-, hne⟩ := h <;> exact hne rfl

/-- Only ILV's operations stand at `.inv`. -/
theorem dataPort_dir {i : Instr} {p : UnitId × Dir} (h : dataPort i = some p) (hp : p.1 ≠ .ilv) :
    p.2 = .fwd := by
  cases i with
  | cfgWr | cfgRd | commit | reset => cases h
  | ilvFwd | ilvInv | ilvFlushFwd | ilvFlushInv => cases h; exact absurd rfl hp
  | _ => cases h; rfl

theorem portsApart_of_dataPort {i j : Instr} {p q : UnitId × Dir} (hi : dataPort i = some p)
    (hj : dataPort j = some q) (hne : p ≠ q) : PortsApart p q := by
  by_cases hu : p.1 = q.1
  · by_cases hp : p.1 = .ilv
    · exact .inr ⟨hp, fun hd => hne (Prod.ext hu hd)⟩
    · have hd : p.2 = q.2 := (dataPort_dir hi hp).trans (dataPort_dir hj (hu ▸ hp)).symm
      exact absurd (Prod.ext hu hd) hne
  · exact .inl hu

/-- The port whose operations emit on a stream; register reads are no port's (R88). -/
def Stream.port : Stream → Option (UnitId × Dir)
  | .regData => none
  | .codewords | .nibbles => some (.ham, .fwd)
  | .interleaved => some (.ilv, .fwd)
  | .deinterleaved => some (.ilv, .inv)
  | .symbols | .groups => some (.qam, .fwd)
  | .gated | .metadata => some (.scg, .fwd)
  | .repacked k => some (.rpk k, .fwd)

theorem Dir.stream_port (d : Dir) : d.stream.port = some (.ilv, d) := by
  cases d <;> rfl

/-- Every item is on a stream of the port. -/
def EmittedAt (p : UnitId × Dir) (items : List OutItem) : Prop := ∀ o ∈ items, o.src.port = some p

theorem EmittedAt.nil (p : UnitId × Dir) : EmittedAt p [] := List.forall_mem_nil _

theorem EmittedAt.append {p : UnitId × Dir} {l m : List OutItem} (hl : EmittedAt p l)
    (hm : EmittedAt p m) : EmittedAt p (l ++ m) :=
  List.forall_mem_append.mpr ⟨hl, hm⟩

theorem emittedAt_singleton {p : UnitId × Dir} {o : OutItem} (h : o.src.port = some p) :
    EmittedAt p [o] :=
  List.forall_mem_singleton.mpr h

theorem emittedAt_tagFirst {p : UnitId × Dir} {src : Stream} (h : src.port = some p) (pend : Tag)
    (vs : List Data) : EmittedAt p (tagFirst src pend vs) :=
  fun o ho => tagFirst_src src pend vs o ho ▸ h

/-- A stream of another port shows none of the items. -/
theorem EmittedAt.filter_eq_nil {p : UnitId × Dir} {items : List OutItem} (h : EmittedAt p items)
    {src : Stream} (hs : src.port ≠ some p) : items.filter (fun o => o.src == src) = [] := by
  rw [List.filter_eq_nil_iff]
  intro o ho hsrc
  exact hs (eq_of_beq hsrc ▸ h o ho)

/-! ### What a port sees -/

/-- ILV as one direction sees it: life cycle, registers and that direction's context (R29). -/
structure Ilv.SameSide (v v' : Ilv) (d : Dir) : Prop where
  life : v'.life = v.life
  n : v'.n = v.n
  cols : v'.cols = v.cols
  w : v'.w = v.w
  ctx : v'.ctx d = v.ctx d

theorem Ilv.SameSide.of_eq {v v' : Ilv} (h : v' = v) (d : Dir) : v.SameSide v' d := by
  subst h
  exact ⟨rfl, rfl, rfl, rfl, rfl⟩

/-- The part of the state a port reads is the same in both states (R68). -/
structure SamePort (s t : State) (p : UnitId × Dir) : Prop where
  unit : p.1 ≠ .ilv → SameUnit s t p.1
  side : p.1 = .ilv → s.ilv.SameSide t.ilv p.2

theorem SamePort.of_sameUnit {s t : State} {p : UnitId × Dir} (h : SameUnit s t p.1) :
    SamePort s t p where
  unit _ := h
  side hp := .of_eq (by rwa [hp] at h) p.2

theorem SamePort.refl (s : State) (p : UnitId × Dir) : SamePort s s p :=
  .of_sameUnit (by cases p.1 <;> rfl)

theorem SamePort.life_eq {s t : State} {p : UnitId × Dir} (h : SamePort s t p) :
    t.life p.1 = s.life p.1 := by
  by_cases hp : p.1 = .ilv
  · rw [hp]
    exact (h.side hp).life
  · exact (h.unit hp).life_eq

/-! ### What a port's operation writes -/

theorem emit_nil (s : State) : s.emit [] = s := by
  simp [State.emit]

/-- The run state an operation of a port leaves there. HAM and QAM have none. Of a gate and of a repacker
the life cycle and the registers are no part of it. -/
inductive PortWrite : UnitId × Dir → Type
  | keep (p : UnitId × Dir) : PortWrite p
  | ilv (d : Dir) (c : IlvCtx) : PortWrite (.ilv, d)
  | scg (g : Scg) : PortWrite (.scg, .fwd)
  | rpk (k : RpkId) (x : Rpk) : PortWrite (.rpk k, .fwd)

def State.write {p : UnitId × Dir} (s : State) : PortWrite p → State
  | .keep _ => s
  | .ilv d c => { s with ilv := s.ilv.setCtx d c }
  | .scg g => { s with scg := { s.scg with res := g.res, run := g.run } }
  | .rpk k x => s.setRpk k { s.rpk k with acc := x.acc, rem := x.rem, pend := x.pend }

theorem withScg_eq_write {s : State} {g : Scg} (hl : g.life = s.scg.life) (hc : g.cfg = s.scg.cfg) :
    { s with scg := g } = s.write (.scg g) := by
  simp only [State.write, ← hl, ← hc]

theorem setRpk_eq_write {s : State} {k : RpkId} {x : Rpk} (hl : x.life = (s.rpk k).life)
    (hi : x.gIn = (s.rpk k).gIn) (ho : x.gOut = (s.rpk k).gOut) :
    s.setRpk k x = s.write (.rpk k x) := by
  simp only [State.write, ← hl, ← hi, ← ho]

section
variable {p : UnitId × Dir} (s : State) (w : PortWrite p)

@[simp] theorem write_flags : (s.write w).flags = s.flags := by cases w <;> rfl

@[simp] theorem write_out : (s.write w).out = s.out := by cases w <;> rfl

/-- A write does not look at the flags and the output. -/
theorem write_withFlagsOut (f : Flags) (o : List OutItem) :
    State.write { s with flags := f, out := o } w = { s.write w with flags := f, out := o } := by
  cases w <;> rfl

theorem write_sameUnit {v : UnitId} (h : v ≠ p.1) : SameUnit s (s.write w) v := by
  cases w with
  | keep => cases v <;> rfl
  | ilv d c => exact withIlv_sameUnit s _ h
  | scg g => exact withScg_sameUnit s _ h
  | rpk k x => exact setRpk_sameUnit s k _ h

theorem write_life (v : UnitId) : (s.write w).life v = s.life v := by
  by_cases hv : v = p.1
  · subst hv
    cases w <;> simp [State.write, State.life]
  · exact (write_sameUnit s w hv).life_eq

/-- A write on one side of ILV, or elsewhere, leaves what the other side sees. -/
theorem write_sameSide {d : Dir} (h : p.1 = .ilv → d ≠ p.2) :
    s.ilv.SameSide (s.write w).ilv d := by
  cases w with
  | ilv d' c =>
    exact ⟨setCtx_life .., setCtx_n .., setCtx_cols .., setCtx_w .., setCtx_ctx_other _ _ _ _ (h rfl)⟩
  | keep | scg | rpk => exact .of_eq rfl d

theorem write_ilvRegs : (s.write w).ilv.n = s.ilv.n ∧ (s.write w).ilv.cols = s.ilv.cols
    ∧ (s.write w).ilv.w = s.ilv.w := by
  cases w <;> simp [State.write]

theorem write_scgCfg : (s.write w).scg.cfg = s.scg.cfg := by cases w <;> rfl

theorem write_rpkRegs (j : RpkId) :
    ((s.write w).rpk j).gIn = (s.rpk j).gIn ∧ ((s.write w).rpk j).gOut = (s.rpk j).gOut := by
  cases w with
  | keep | ilv | scg => exact ⟨rfl, rfl⟩
  | rpk k x =>
    by_cases hj : j = k
    · subst hj
      simp [State.write]
    · simp [State.write, setRpk_rpk_other s k j _ hj]

end

theorem setCtx_comm (v : Ilv) {d d' : Dir} (c c' : IlvCtx) (h : d ≠ d') :
    (v.setCtx d c).setCtx d' c' = (v.setCtx d' c').setCtx d c := by
  cases d with
  | fwd => cases d' with
    | fwd => exact absurd rfl h
    | inv => rfl
  | inv => cases d' with
    | fwd => rfl
    | inv => exact absurd rfl h

/-- Writes of ports that are apart can be swapped. -/
theorem write_comm {p q : UnitId × Dir} (h : PortsApart p q) (s : State) (w : PortWrite p)
    (w' : PortWrite q) : (s.write w).write w' = (s.write w').write w := by
  cases w with
  | keep => rfl
  | ilv d c =>
    cases w' with
    | keep | scg | rpk => rfl
    | ilv d' c' =>
      have hd : d ≠ d' := fun e => h.ne (congrArg _ e)
      simp only [State.write, setCtx_comm s.ilv c c' hd]
  | scg g =>
    cases w' with
    | keep | ilv | rpk => rfl
    | scg g' => exact absurd rfl h.ne
  | rpk k x =>
    cases w' with
    | keep | ilv | scg => rfl
    | rpk j y =>
      have hj : j ≠ k := by
        rintro rfl
        exact h.ne rfl
      simp only [State.write, setRpk_rpk_other s k j _ hj, setRpk_rpk_other s j k _ hj.symm,
        setRpk_comm s k j _ _ hj]

/-! ### The effect of a port's operation -/

/-- All a data or flush operation does: a write to its port's run state, ILLEGAL or NOTRUN raised, items
on its port's streams (R68, R120). -/
structure PortEffect (p : UnitId × Dir) where
  write : PortWrite p
  illegal : Bool
  notrun : Bool
  items : List OutItem
  emittedAt : EmittedAt p items

def State.apply {p : UnitId × Dir} (s : State) (e : PortEffect p) : State :=
  { s.write e.write with
    flags := { s.flags with
      illegal := s.flags.illegal || e.illegal, notrun := s.flags.notrun || e.notrun }
    out := s.out ++ e.items }

def PortEffect.raiseIllegal (p : UnitId × Dir) : PortEffect p :=
  { write := .keep p, illegal := true, notrun := false, items := [], emittedAt := .nil p }

def PortEffect.raiseNotrun (p : UnitId × Dir) : PortEffect p :=
  { write := .keep p, illegal := false, notrun := true, items := [], emittedAt := .nil p }

def PortEffect.done {p : UnitId × Dir} (w : PortWrite p) (items : List OutItem)
    (h : EmittedAt p items) : PortEffect p :=
  { write := w, illegal := false, notrun := false, items := items, emittedAt := h }

theorem apply_raiseIllegal (s : State) (p : UnitId × Dir) :
    s.apply (.raiseIllegal p) = raise .illegal s := by
  simp [State.apply, PortEffect.raiseIllegal, State.write, raise]

theorem apply_raiseNotrun (s : State) (p : UnitId × Dir) :
    s.apply (.raiseNotrun p) = raise .notrun s := by
  simp [State.apply, PortEffect.raiseNotrun, State.write, raise]

theorem apply_done {p : UnitId × Dir} (s : State) (w : PortWrite p) (items : List OutItem)
    (h : EmittedAt p items) : s.apply (.done w items h) = (s.write w).emit items := by
  simp only [State.apply, PortEffect.done, State.emit, write_out, Bool.or_false]
  rw [← write_flags s w]

theorem apply_sameUnit {p : UnitId × Dir} (s : State) (e : PortEffect p) {v : UnitId} (h : v ≠ p.1) :
    SameUnit s (s.apply e) v := by
  have hw := write_sameUnit s e.write h
  cases v <;> exact hw

theorem apply_life {p : UnitId × Dir} (s : State) (e : PortEffect p) (v : UnitId) :
    (s.apply e).life v = s.life v := by
  rw [← write_life s e.write v]
  cases v <;> rfl

/-- A port sees nothing of an effect at a port apart from it. -/
theorem apply_samePort {p q : UnitId × Dir} (h : PortsApart p q) (s : State) (e : PortEffect p) :
    SamePort s (s.apply e) q where
  unit hq := apply_sameUnit s e (h.symm.elim id fun hilv => absurd hilv.1 hq)
  side hq := write_sameSide s e.write (h.symm.elim (fun hne hp => absurd (hq.trans hp.symm) hne)
    fun hilv _ => hilv.2)

theorem apply_write {p q : UnitId × Dir} (s : State) (e : PortEffect p) (w : PortWrite q) :
    (s.apply e).write w
      = { (s.write e.write).write w with flags := (s.apply e).flags, out := (s.apply e).out } :=
  write_withFlagsOut (s.write e.write) w _ _

/-- Two effects one after the other, field by field. -/
theorem apply_apply {p q : UnitId × Dir} (s : State) (e : PortEffect p) (e' : PortEffect q) :
    (s.apply e).apply e' = { (s.write e.write).write e'.write with
      flags := { s.flags with
        illegal := s.flags.illegal || e.illegal || e'.illegal
        notrun := s.flags.notrun || e.notrun || e'.notrun }
      out := s.out ++ e.items ++ e'.items } := by
  rw [State.apply, apply_write]
  rfl

/-- Effects at ports apart can be swapped, but for the order of the items. -/
theorem apply_comm {p q : UnitId × Dir} (h : PortsApart p q) (s : State) (e : PortEffect p)
    (e' : PortEffect q) :
    { (s.apply e).apply e' with out := [] } = { (s.apply e').apply e with out := [] } := by
  simp only [apply_apply, write_comm h, Bool.or_right_comm _ e.illegal, Bool.or_right_comm _ e.notrun]

/-- No stream shows the order of items of ports apart. -/
theorem apply_stream_comm {p q : UnitId × Dir} (h : PortsApart p q) (s : State) (e : PortEffect p)
    (e' : PortEffect q) (src : Stream) :
    ((s.apply e).apply e').stream src = ((s.apply e').apply e).stream src := by
  simp only [apply_apply, State.stream, List.filter_append]
  by_cases hp : src.port = some p
  · have hq : src.port ≠ some q := fun hq => h.ne (Option.some.inj (hp.symm.trans hq))
    simp [e'.emittedAt.filter_eq_nil hq]
  · simp [e.emittedAt.filter_eq_nil hp]

/-! ### The operations act on their ports -/

/-- Applies an effect that depends only on what the port sees. -/
def ActsOnPort (p : UnitId × Dir) (f : State → State) : Prop :=
  ∀ s, ∃ e : PortEffect p, ∀ t, SamePort s t p → f t = t.apply e

/-- An operation in the common frame acts on its port where the width check and the body do (R120). -/
theorem actsOnPort_framed {u : UnitId} {d : Dir} {wide : State → Bool} {body : State → State}
    (w : State → PortWrite (u, d)) (items : State → List OutItem)
    (hitems : ∀ s, EmittedAt (u, d) (items s))
    (hwide : ∀ s t, SamePort s t (u, d) → wide t = wide s)
    (hbody : ∀ s t, SamePort s t (u, d) → body t = (t.write (w s)).emit (items s)) :
    ActsOnPort (u, d) (fun s => framed u (wide s) body s) := by
  intro s
  rcases framed_cases u (wide s) body s with ⟨hm, -⟩ | ⟨hm, hw, -⟩ | ⟨hm, hw, -⟩
  · refine ⟨.raiseNotrun (u, d), fun t h => ?_⟩
    beta_reduce
    rw [apply_raiseNotrun, framed_of_not_running (h.life_eq ▸ hm)]
  · refine ⟨.raiseIllegal (u, d), fun t h => ?_⟩
    beta_reduce
    rw [apply_raiseIllegal, hwide s t h, hw, framed_of_wide (h.life_eq ▸ hm)]
  · refine ⟨.done (w s) (items s) (hitems s), fun t h => ?_⟩
    beta_reduce
    rw [apply_done, hwide s t h, hw, framed_of_running (h.life_eq ▸ hm), hbody s t h]

/-- HAM and QAM: one item, which depends on the operands alone. -/
theorem actsOnPort_emit {u : UnitId} {d : Dir} (o : OutItem) (h : o.src.port = some (u, d)) :
    ActsOnPort (u, d) (fun s => framed u false (fun s => s.emit [o]) s) :=
  actsOnPort_framed (fun _ => .keep (u, d)) (fun _ => [o]) (fun _ => emittedAt_singleton h)
    (fun _ _ _ => rfl) (fun _ _ _ => rfl)

theorem IlvCtx.release_emittedAt (d : Dir) (items : List IlvItem) (x : IlvCtx) :
    EmittedAt (.ilv, d) (x.release d.stream items).2 :=
  emittedAt_tagFirst d.stream_port _ _

theorem IlvCtx.openPacket_emittedAt (d : Dir) (tag : Tag) (x : IlvCtx) :
    EmittedAt (.ilv, d) (x.openPacket d.stream tag).2 := by
  cases tag with
  | none => exact .nil _
  | some l => exact x.release_emittedAt d _

theorem IlvCtx.take_emittedAt (d : Dir) (n c : Nat) (v : IlvItem) (x : IlvCtx) :
    EmittedAt (.ilv, d) (x.take d n c v).2 := by
  rcases x.take_cases d n c v with ⟨-, -, -, e⟩ | ⟨-, -, e⟩ | ⟨-, -, e⟩ <;> rw [e]
  · exact x.release_emittedAt d _
  · exact IlvCtx.release_emittedAt d _ _
  · exact .nil _

theorem IlvCtx.push_emittedAt (d : Dir) (n c : Nat) (v : IlvItem) (tag : Tag) (x : IlvCtx) :
    EmittedAt (.ilv, d) (x.push d n c v tag).2 :=
  (x.openPacket_emittedAt d tag).append (IlvCtx.take_emittedAt d n c v _)

theorem ilvData_actsOnPort (d : Dir) (v : IlvItem) (tag : Tag) :
    ActsOnPort (.ilv, d) (ilvData d v tag) :=
  actsOnPort_framed (wide := fun s => tooWide v s.ilv.w)
    (fun s => .ilv d ((s.ilv.ctx d).push d s.ilv.n.toNat s.ilv.cols.toNat v tag).1)
    (fun s => ((s.ilv.ctx d).push d s.ilv.n.toNat s.ilv.cols.toNat v tag).2)
    (fun s => IlvCtx.push_emittedAt d _ _ v tag _)
    (fun s t h => by rw [(h.side rfl).w])
    (fun s t h => by
      obtain ⟨-, hn, hc, -, hctx⟩ := h.side rfl
      rw [hn, hc, hctx]
      rfl)

theorem ilvFlush_actsOnPort (d : Dir) : ActsOnPort (.ilv, d) (ilvFlush d) :=
  actsOnPort_framed
    (fun s => .ilv d ((s.ilv.ctx d).flush d).1) (fun s => ((s.ilv.ctx d).flush d).2)
    (fun s => IlvCtx.release_emittedAt d _ _) (fun _ _ _ => rfl)
    (fun s t h => by
      rw [(h.side rfl).ctx]
      rfl)

theorem Scg.runEnd_emittedAt (g : Scg) : EmittedAt (.scg, .fwd) g.runEnd.2 := by
  unfold Scg.runEnd
  split
  · exact emittedAt_singleton rfl
  · exact .nil _

theorem Scg.candidateStep_emittedAt (g : Scg) (p : Corr) (r : Nat) :
    EmittedAt (.scg, .fwd) (g.candidateStep p r).2 := by
  unfold Scg.candidateStep
  split
  · split <;> exact .nil _
  · exact g.runEnd_emittedAt

theorem Scg.emitStep_emittedAt (g : Scg) : EmittedAt (.scg, .fwd) g.emitStep.2 := by
  simp only [Scg.emitStep]
  cases g.cfg.gateAt (g.run.e - g.run.start) with
  | none => split <;> exact .nil _
  | some first => split <;> exact emittedAt_singleton rfl

theorem Scg.pass_emittedAt {g : Scg} {r : Scg × List OutItem} (h : g.pass = some r) :
    EmittedAt (.scg, .fwd) r.2 := by
  rcases g.pass_cases with ⟨_, _, e⟩ | ⟨_, _, e⟩ | ⟨_, _, e⟩ | ⟨_, _, e⟩ | ⟨_, _, e⟩ <;>
    rw [e] at h <;> cases h
  · exact g.emitStep_emittedAt
  · exact .nil _
  · exact g.candidateStep_emittedAt _ _

theorem Scg.advance_emittedAt (fuel : Nat) (g : Scg) : EmittedAt (.scg, .fwd) (g.advance fuel).2 := by
  induction fuel generalizing g with
  | zero => exact .nil _
  | succ fuel ih =>
    unfold Scg.advance
    split
    · exact .nil _
    · next r h => exact (Scg.pass_emittedAt h).append (ih r.1)

theorem scgPush_actsOnPort (r : Sample) :
    ActsOnPort (.scg, .fwd) (fun s => framed .scg false
      (fun s => { s with scg := (s.scg.push r).1 }.emit (s.scg.push r).2) s) :=
  actsOnPort_framed (fun s => .scg (s.scg.push r).1) (fun s => (s.scg.push r).2)
    (fun s => Scg.advance_emittedAt _ _) (fun _ _ _ => rfl)
    (fun s t h => by
      have hg : t.scg = s.scg := h.unit (by decide)
      rw [← hg, ← withScg_eq_write (Scg.push_life r _) (Scg.push_cfg r _)])

theorem scgFlush_actsOnPort :
    ActsOnPort (.scg, .fwd) (fun s => framed .scg false (fun s => { s with scg := s.scg.flush }) s) :=
  actsOnPort_framed (fun s => .scg s.scg.flush) (fun _ => []) (fun _ => .nil _) (fun _ _ _ => rfl)
    (fun s t h => by
      have hg : t.scg = s.scg := h.unit (by decide)
      rw [← hg, emit_nil]
      exact withScg_eq_write rfl rfl)

theorem rpkPush_actsOnPort (k : RpkId) (g : Group) (tag : Tag) :
    ActsOnPort (.rpk k, .fwd) (rpkPush k g tag) :=
  actsOnPort_framed (wide := fun s => tooWide g (s.rpk k).gIn)
    (fun s => .rpk k ((s.rpk k).push (.repacked k) g tag).1)
    (fun s => ((s.rpk k).push (.repacked k) g tag).2)
    (fun s => emittedAt_tagFirst rfl _ _)
    (fun s t h => by
      have hx : t.rpk k = s.rpk k := h.unit UnitId.noConfusion
      rw [hx])
    (fun s t h => by
      have hx : t.rpk k = s.rpk k := h.unit UnitId.noConfusion
      rw [← hx, ← setRpk_eq_write (Rpk.push_life ..) (Rpk.push_gIn ..) (Rpk.push_gOut ..)])

theorem rpkFlush_actsOnPort (k : RpkId) : ActsOnPort (.rpk k, .fwd) (rpkFlush k) :=
  actsOnPort_framed (fun s => .rpk k (s.rpk k).flush) (fun _ => []) (fun _ => .nil _)
    (fun _ _ _ => rfl)
    (fun s t h => by
      have hx : t.rpk k = s.rpk k := h.unit UnitId.noConfusion
      rw [← hx, emit_nil]
      exact setRpk_eq_write rfl rfl rfl)

/-- Every data and flush operation acts on its port (R68). -/
theorem exec_actsOnPort {i : Instr} {p : UnitId × Dir} (h : dataPort i = some p) :
    ∃ f, ActsOnPort p f ∧ ∀ s, exec i s = .next (f s) := by
  cases i with
  | cfgWr | cfgRd | commit | reset => cases h
  | hamEnc | hamDec | qamMap | qamDemap => cases h; exact ⟨_, actsOnPort_emit _ rfl, fun _ => rfl⟩
  | ilvFwd x tag | ilvInv x tag => cases h; exact ⟨_, ilvData_actsOnPort _ x tag, fun _ => rfl⟩
  | ilvFlushFwd | ilvFlushInv => cases h; exact ⟨_, ilvFlush_actsOnPort _, fun _ => rfl⟩
  | scgPush re im => cases h; exact ⟨_, scgPush_actsOnPort ⟨re, im⟩, fun _ => rfl⟩
  | scgFlush => cases h; exact ⟨_, scgFlush_actsOnPort, fun _ => rfl⟩
  | rpk0Push g tag | rpk1Push g tag | rpk2Push g tag | rpk3Push g tag =>
    cases h; exact ⟨_, rpkPush_actsOnPort _ g tag, fun _ => rfl⟩
  | rpk0Flush | rpk1Flush | rpk2Flush | rpk3Flush =>
    cases h; exact ⟨_, rpkFlush_actsOnPort _, fun _ => rfl⟩

/-- An operation has one effect on all states that look the same from its port. -/
theorem exec_eq_apply {i : Instr} {p : UnitId × Dir} (h : dataPort i = some p) (s : State) :
    ∃ e : PortEffect p, ∀ t, SamePort s t p → exec i t = .next (t.apply e) := by
  obtain ⟨f, hf, hexec⟩ := exec_actsOnPort h
  obtain ⟨e, he⟩ := hf s
  exact ⟨e, fun t ht => by rw [hexec, he t ht]⟩

/-! ### The frame and commutation (R68) -/

/-- Settles O21: the frame of the one effect the operation has. -/
theorem dataOpTouchesOnlyItsUnit : Obligations.DataOpTouchesOnlyItsUnit := by
  intro i u d s t hi ht
  obtain ⟨e, he⟩ := exec_eq_apply hi s
  obtain rfl : s.apply e = t := by simpa [he s (.refl s _)] using ht
  have hunit : ∀ v, u ≠ v → SameUnit s (s.apply e) v := fun v hv => apply_sameUnit s e hv.symm
  exact ⟨apply_life s e, hunit .ilv, write_ilvRegs s e.write,
    fun d' hd => (write_sameSide s e.write fun _ => hd).ctx,
    hunit .scg, write_scgCfg s e.write, fun k => hunit (.rpk k), write_rpkRegs s e.write,
    rfl, fun h => Bool.or_eq_true_iff.mpr (.inl h), fun h => Bool.or_eq_true_iff.mpr (.inl h)⟩

/-- One operation after another of a port apart: each has the effect it has alone. -/
theorem performAll_pair {i j : Instr} {p q : UnitId × Dir} {s : State} {e : PortEffect p}
    {e' : PortEffect q} (h : PortsApart p q)
    (hi : ∀ t, SamePort s t p → exec i t = .next (t.apply e))
    (hj : ∀ t, SamePort s t q → exec j t = .next (t.apply e')) :
    performAll [i, j] s = some ((s.apply e).apply e') := by
  simp only [performAll, hi s (.refl s p), hj _ (apply_samePort h s e)]

/-- Settles O22: each operation has the same effect in either order, and effects at ports apart can be
swapped. -/
theorem independentOperationsCommute : Obligations.IndependentOperationsCommute := by
  intro i j p q s hi hj hne
  have hapart := portsApart_of_dataPort hi hj hne
  obtain ⟨e, he⟩ := exec_eq_apply hi s
  obtain ⟨e', he'⟩ := exec_eq_apply hj s
  exact ⟨_, _, performAll_pair hapart he he', performAll_pair hapart.symm he' he,
    apply_comm hapart s e e', apply_stream_comm hapart s e e'⟩

end Sys2Proof.Machine
end

section
/-! The proofs of the family 30_encoding.md. An operation's word is its row's opcode, its tag and its DATA;
decoding reads them back because a row's `build` and `data` undo each other up to the row's DATA mask
(`Op.build_op_tag_data`, `Op.data_build`). The words that decode then follow row by row. -/

namespace Sys2Proof

/-! ### Reading a word back (R95) -/

/-- A word that passes the four steps decodes to its row's operation. -/
theorem decode_of_passes {w : Word} {op : Op} (hop : Op.ofCode (opcOf w) = some op) (hz : zeroOf w = 0)
    (ht : tagFieldsOk op.takesTag (tagBitOf w) (tagLenOf w) = true)
    (hd : dataOf w &&& ~~~op.dataMask = 0) : decode w = .ok (op.build (tagOf w) (dataOf w)) := by
  simp only [decode, hop, ne_eq, hz, not_true_eq_false, if_false, ht, Bool.true_eq_false, hd]

/-- A word is its four fields, where ZERO is zero (R80). -/
theorem packWord_fields {w : Word} (hz : zeroOf w = 0) :
    packWord (opcOf w) (tagBitOf w) (tagLenOf w) (dataOf w) = w := by
  apply BitVec.eq_of_getLsbD_eq
  intro i hi
  rw [getLsbD_packWord]
  split_ifs with hdata hlen hzero htag
  · simp [dataOf_eq, hdata]
  · simp [tagLenOf_eq, show i - 48 < 32 by omega, show 48 + (i - 48) = i by omega]
  · have hbit := congrArg (fun z => z.getLsbD (i - 80)) hz
    simpa [zeroOf, show i - 80 < 7 by omega, show 80 + (i - 80) = i by omega] using hbit.symm
  · obtain rfl : i = 87 := by omega
    simp [tagBitOf_eq]
  · simp [opcOf_eq, show i - 88 < 8 by omega, show 88 + (i - 88) = i by omega]

/-! ### The tag fields (R95 step 3) -/

@[simp] theorem tagFieldsOk_false (takes : Bool) (l : TagLen) :
    tagFieldsOk takes false l = true ↔ l = 0 := beq_iff_eq

@[simp] theorem tagFieldsOk_true (takes : Bool) (l : TagLen) :
    tagFieldsOk takes true l = true ↔ takes = true ∧ l ≠ 0 := by
  simp [tagFieldsOk]

/-- Where the tag fields pass, they are those of the tag they stand for. -/
theorem tagFields_of_tagOf {w : Word} {takes : Bool}
    (h : tagFieldsOk takes (tagBitOf w) (tagLenOf w) = true) :
    (tagOf w).isSome = tagBitOf w ∧ (tagOf w).len = tagLenOf w := by
  unfold tagOf
  cases ht : tagBitOf w with
  | false =>
    rw [ht, tagFieldsOk_false] at h
    exact ⟨rfl, h.symm⟩
  | true => exact ⟨rfl, rfl⟩

/-- A row that takes no tag passes only words without one. -/
theorem tagOf_eq_none {w : Word} (h : tagFieldsOk false (tagBitOf w) (tagLenOf w) = true) :
    tagOf w = none := by
  unfold tagOf
  cases ht : tagBitOf w with
  | false => rfl
  | true => simp [ht] at h

/-- The tag fields of a well-formed tag pass, where the row takes a tag or there is none. -/
theorem tagFieldsOk_of_wellFormed {takes : Bool} {t : Tag} (hw : Tag.WellFormed t)
    (hn : takes = false → t = none) : tagFieldsOk takes t.isSome t.len = true := by
  cases t with
  | none => exact (tagFieldsOk_false takes _).mpr rfl
  | some l =>
    cases takes with
    | false => cases hn rfl
    | true => exact (tagFieldsOk_true true l).mpr ⟨rfl, fun hl => hw (congrArg some hl)⟩

/-! ### The fields of DATA (R81 to R83, R87) -/

@[simp] theorem itemOf_itemData {w : Nat} (x : BitVec w) (h : w ≤ 48) : itemOf (itemData x) = x := by
  apply BitVec.eq_of_getLsbD_eq
  intro i hi
  rw [itemOf_eq, BitVec.getLsbD_extractLsb', getLsbD_itemData]
  simp [hi, show i < 48 by omega]

@[simp] theorem unitOf_unitData (u : UnitNum) : unitOf (unitData u) = u :=
  itemOf_itemData u (by decide)

@[simp] theorem addrOf_regData (a : Addr) (v : Word32) : addrOf (regData a v) = a := by
  apply BitVec.eq_of_getLsbD_eq
  intro i hi
  rw [addrOf_eq, BitVec.getLsbD_extractLsb', getLsbD_regData]
  simp [hi, show ¬ 40 + i < 32 by omega]

@[simp] theorem valueOf_regData (a : Addr) (v : Word32) : valueOf (regData a v) = v := by
  apply BitVec.eq_of_getLsbD_eq
  intro i hi
  rw [valueOf_eq, BitVec.getLsbD_extractLsb', getLsbD_regData]
  simp [hi]

/-- A field keeps the bits of DATA that it keeps of all ones. -/
theorem getLsbD_extractLsb'_allOnes (d : Data) (lo len j : Nat) :
    (d.extractLsb' lo len).getLsbD j
      = (d.getLsbD (lo + j) && ((BitVec.allOnes 48).extractLsb' lo len).getLsbD j) := by
  rw [BitVec.getLsbD_extractLsb', BitVec.getLsbD_extractLsb', BitVec.getLsbD_allOnes]
  by_cases h : lo + j < 48
  · simp [h, Bool.and_comm]
  · simp [h, BitVec.getLsbD_of_ge d (lo + j) (by omega)]

/-- What an item's field keeps of DATA. -/
theorem itemData_itemOf (w : Nat) (d : Data) :
    itemData (itemOf d : BitVec w) = d &&& itemData (itemOf (BitVec.allOnes 48) : BitVec w) := by
  apply BitVec.eq_of_getLsbD_eq
  intro i hi
  rw [BitVec.getLsbD_and, getLsbD_itemData, getLsbD_itemData, itemOf_eq, itemOf_eq,
    getLsbD_extractLsb'_allOnes d, Nat.zero_add, Bool.and_left_comm]

/-- What ADDR and VALUE keep of DATA. -/
theorem regData_addrOf_valueOf (d : Data) :
    regData (addrOf d) (valueOf d)
      = d &&& regData (addrOf (BitVec.allOnes 48)) (valueOf (BitVec.allOnes 48)) := by
  apply BitVec.eq_of_getLsbD_eq
  intro i hi
  rw [BitVec.getLsbD_and, getLsbD_regData, getLsbD_regData]
  split_ifs with hvalue hgap
  · rw [valueOf_eq, valueOf_eq, getLsbD_extractLsb'_allOnes d, Nat.zero_add]
  · simp
  · rw [addrOf_eq, addrOf_eq, getLsbD_extractLsb'_allOnes d, show 40 + (i - 40) = i by omega]

/-- What ADDR alone keeps of DATA. -/
theorem regData_addrOf_zero (d : Data) :
    regData (addrOf d) 0 = d &&& regData (addrOf (BitVec.allOnes 48)) 0 := by
  apply BitVec.eq_of_getLsbD_eq
  intro i hi
  rw [BitVec.getLsbD_and, getLsbD_regData, getLsbD_regData]
  split_ifs with hvalue hgap
  · simp
  · simp
  · rw [addrOf_eq, addrOf_eq, getLsbD_extractLsb'_allOnes d, show 40 + (i - 40) = i by omega]

/-- What the two components of a sample keep of DATA. -/
theorem packSample_reOf_imOf (d : Data) :
    packSample (reOf d) (imOf d)
      = d &&& packSample (reOf (BitVec.allOnes 48)) (imOf (BitVec.allOnes 48)) := by
  apply BitVec.eq_of_getLsbD_eq
  intro i hi
  rw [BitVec.getLsbD_and, getLsbD_packSample, getLsbD_packSample]
  split_ifs with hre
  · rw [reOf_eq, reOf_eq, getLsbD_extractLsb'_allOnes d, Nat.zero_add]
  · rw [imOf_eq, imOf_eq, getLsbD_extractLsb'_allOnes d, show 24 + (i - 24) = i by omega]

/-! ### A row's operation and its DATA (R90, R95 step 4) -/

@[simp] theorem Op.build_op (o : Op) (tag : Tag) (data : Data) : (o.build tag data).op = o := by
  cases o <;> rfl

/-- Operand assembly undoes an operation's tag and DATA. -/
theorem Op.build_op_tag_data (i : Instr) : i.op.build i.tag i.data = i := by
  cases i with
  | cfgWr a v => exact congrArg₂ Instr.cfgWr (addrOf_regData a v) (valueOf_regData a v)
  | cfgRd a => exact congrArg Instr.cfgRd (addrOf_regData a 0)
  | commit u => exact congrArg Instr.commit (unitOf_unitData u)
  | hamEnc | hamDec | ilvFwd | ilvInv | qamMap | rpk0Push | rpk1Push | rpk2Push | rpk3Push =>
    simp [Instr.op, Instr.tag, Instr.data, Op.build]
  | qamDemap | scgPush => simp [Instr.op, Instr.tag, Instr.data, Op.build]
  | reset | ilvFlushFwd | ilvFlushInv | scgFlush | rpk0Flush | rpk1Flush | rpk2Flush | rpk3Flush => rfl

/-- The DATA of what a row builds is the DATA it is given, less the bits outside the row's mask. -/
theorem Op.data_build (o : Op) (tag : Tag) (d : Data) : (o.build tag d).data = d &&& o.dataMask := by
  cases o with
  | cfgWr => exact regData_addrOf_valueOf d
  | cfgRd => exact regData_addrOf_zero d
  | commit => exact itemData_itemOf 4 d
  | hamEnc => exact itemData_itemOf 4 d
  | hamDec => exact itemData_itemOf 7 d
  | ilvFwd | ilvInv | rpk0Push | rpk1Push | rpk2Push | rpk3Push => exact itemData_itemOf 8 d
  | qamMap => exact itemData_itemOf 2 d
  | qamDemap | scgPush => exact packSample_reOf_imOf d
  | reset | ilvFlushFwd | ilvFlushInv | scgFlush | rpk0Flush | rpk1Flush | rpk2Flush | rpk3Flush =>
    exact BitVec.and_zero.symm

/-- DATA has no bit outside a mask exactly where the mask keeps all of it. -/
theorem and_not_eq_zero_iff_and_eq (d m : Data) : d &&& ~~~m = 0 ↔ d &&& m = d := by
  simp only [BitVec.eq_of_getLsbD_eq_iff]
  refine forall₂_congr fun i hi => ?_
  have hzero : (0 : Data).getLsbD i = false := BitVec.getLsbD_zero
  rw [BitVec.getLsbD_and, BitVec.getLsbD_and, BitVec.getLsbD_not, hzero]
  cases d.getLsbD i <;> simp [hi]

/-- No operation's DATA has a bit outside its row's mask. -/
theorem Instr.data_and_not_dataMask (i : Instr) : i.data &&& ~~~i.op.dataMask = 0 := by
  rw [and_not_eq_zero_iff_and_eq, ← Op.data_build i.op i.tag, Op.build_op_tag_data]

/-! ### The round trips (R95, R98) -/

@[simp] theorem opcOf_encode (i : Instr) : opcOf (encode i) = i.op.code := opcOf_packWord ..
@[simp] theorem zeroOf_encode (i : Instr) : zeroOf (encode i) = 0 := zeroOf_packWord ..
@[simp] theorem tagBitOf_encode (i : Instr) : tagBitOf (encode i) = i.tag.isSome := tagBitOf_packWord ..
@[simp] theorem tagLenOf_encode (i : Instr) : tagLenOf (encode i) = i.tag.len := tagLenOf_packWord ..
@[simp] theorem dataOf_encode (i : Instr) : dataOf (encode i) = i.data := dataOf_packWord ..

@[simp] theorem tagOf_encode (i : Instr) : tagOf (encode i) = i.tag := by
  cases ht : i.tag <;> simp [tagOf, ht, Tag.len]

/-- Settles O5: the encoder's word passes the four steps, and its row builds the operation back. -/
theorem decodeEncodeAgree : Obligations.DecodeEncodeAgree := by
  intro i hwf
  have htag : tagFieldsOk i.op.takesTag i.tag.isSome i.tag.len = true :=
    tagFieldsOk_of_wellFormed hwf i.tag_of_not_takesTag
  have h := decode_of_passes (w := encode i) (op := i.op) (by simp) (by simp) (by simpa using htag)
    (by simpa using i.data_and_not_dataMask)
  rwa [tagOf_encode, dataOf_encode, Op.build_op_tag_data] at h

/-- The tag of what a word decodes to is the tag its fields stand for. -/
theorem Op.build_tag_tagOf {o : Op} {w : Word} (d : Data)
    (h : tagFieldsOk o.takesTag (tagBitOf w) (tagLenOf w) = true) :
    (o.build (tagOf w) d).tag = tagOf w := by
  rw [Op.build_tag]
  cases ho : o.takesTag with
  | true => rfl
  | false => exact (tagOf_eq_none (ho ▸ h)).symm

/-- Settles O6: opcode, tag and DATA of what a word decodes to are the word's own fields. -/
theorem decodedWordIsItsEncoding : Obligations.DecodedWordIsItsEncoding := by
  intro w i h
  refine ⟨?_, decode_wellFormed h⟩
  obtain ⟨o, hcode, hz, htag, hdata, rfl⟩ := decode_eq_ok h
  obtain ⟨hbit, hlen⟩ := tagFields_of_tagOf htag
  rw [encode, Op.build_op, Op.build_tag_tagOf _ htag, Op.data_build,
    (and_not_eq_zero_iff_and_eq _ _).mp hdata, Op.code_of_ofCode hcode, packTagged, hbit, hlen,
    packWord_fields hz]

/-! ### The words that decode, row by row (R95) -/

/-- The tag fields of R95 step 3 as numbers. -/
theorem tagFieldsOk_iff (takes : Bool) (w : Word) :
    tagFieldsOk takes (tagBitOf w) (tagLenOf w) = true ↔
      (w.extractLsb' 87 1 = 0 ∧ w.extractLsb' 48 32 = 0)
      ∨ (takes = true ∧ w.extractLsb' 87 1 = 1 ∧ 1 ≤ (w.extractLsb' 48 32).toNat) := by
  have hbit : w.extractLsb' 87 1 = BitVec.ofBool (tagBitOf w) := by
    apply BitVec.eq_of_getLsbD_eq
    intro i hi
    obtain rfl : i = 0 := by omega
    simp [tagBitOf_eq]
  rw [hbit, ← tagLenOf_eq]
  cases tagBitOf w with
  | false => simp
  | true => simp [Nat.one_le_iff_ne_zero, BitVec.toNat_eq]

/-- The DATA bits a row wants zero: their lowest bit and their number (R82, R83, widths of R86). -/
def Op.dataZeros : Op → Nat × Nat
  | .cfgWr => (32, 8)
  | .cfgRd => (0, 40)
  | .commit | .hamEnc => (4, 44)
  | .hamDec => (7, 41)
  | .ilvFwd | .ilvInv | .rpk0Push | .rpk1Push | .rpk2Push | .rpk3Push => (8, 40)
  | .qamMap => (2, 46)
  | .qamDemap | .scgPush => (48, 0)
  | .reset | .ilvFlushFwd | .ilvFlushInv | .scgFlush | .rpk0Flush | .rpk1Flush | .rpk2Flush
  | .rpk3Flush => (0, 48)

theorem Op.not_dataMask_eq (o : Op) :
    ~~~o.dataMask = place o.dataZeros.1 (BitVec.allOnes o.dataZeros.2) := by
  cases o <;> decide

/-- A range of DATA's bits is masked away exactly where the range is zero. -/
theorem and_place_allOnes_eq_zero_iff (d : Data) (lo len : Nat) :
    d &&& place lo (BitVec.allOnes len) = 0 ↔ d.extractLsb' lo len = 0 := by
  have hmask : ∀ i, (d &&& place lo (BitVec.allOnes len)).getLsbD i
      = (decide (lo ≤ i ∧ i < lo + len) && d.getLsbD i) := by
    intro i
    rw [BitVec.getLsbD_and, getLsbD_place, BitVec.getLsbD_allOnes]
    by_cases hw : i < 48
    · by_cases hl : lo ≤ i
      · simp [hw, hl, show ¬ i < lo by omega, show i - lo < len ↔ i < lo + len by omega, Bool.and_comm]
      · simp [hl, show i < lo by omega]
    · simp [BitVec.getLsbD_of_ge d i (by omega)]
  constructor <;> intro h <;> apply BitVec.eq_of_getLsbD_eq <;> intro i hi
  · have hbit := hmask (lo + i)
    rw [h] at hbit
    simpa [hi] using hbit.symm
  · rw [hmask]
    by_cases hl : lo ≤ i ∧ i < lo + len
    · have hbit := congrArg (fun x => x.getLsbD (i - lo)) h
      simpa [show i - lo < len by omega, show lo + (i - lo) = i by omega] using fun _ _ => hbit
    · simp [hl]

/-- Step 4 of R95, as a row's zero bits. -/
theorem Op.data_fits_iff (o : Op) (d : Data) :
    d &&& ~~~o.dataMask = 0 ↔ d.extractLsb' o.dataZeros.1 o.dataZeros.2 = 0 := by
  rw [Op.not_dataMask_eq, and_place_allOnes_eq_zero_iff]

/-- The words that decode, by the row their opcode names, with steps 3 and 4 of R95 as numbers. -/
theorem exists_decode_iff (w : Word) :
    (∃ i, decode w = .ok i) ↔ ∃ o : Op, opcOf w = o.code ∧ zeroOf w = 0
      ∧ ((w.extractLsb' 87 1 = 0 ∧ w.extractLsb' 48 32 = 0)
        ∨ (o.takesTag = true ∧ w.extractLsb' 87 1 = 1 ∧ 1 ≤ (w.extractLsb' 48 32).toNat))
      ∧ (dataOf w).extractLsb' o.dataZeros.1 o.dataZeros.2 = 0 := by
  constructor
  · rintro ⟨i, h⟩
    obtain ⟨o, hcode, hz, htag, hdata, -⟩ := decode_eq_ok h
    exact ⟨o, (Op.code_of_ofCode hcode).symm, hz, (tagFieldsOk_iff _ w).mp htag,
      (o.data_fits_iff _).mp hdata⟩
  · rintro ⟨o, hcode, hz, htag, hdata⟩
    exact ⟨_, decode_of_passes (hcode ▸ o.ofCode_code) hz ((tagFieldsOk_iff _ w).mpr htag)
      ((o.data_fits_iff _).mpr hdata)⟩

/-- The opcodes whose DATA is zero (RESET and the flushes) name rows that want all 48 bits zero. -/
theorem zeroDataCodes_rows : ∀ c ∈ ([0x04, 0x28, 0x29, 0x48, 0x58, 0x68, 0x78, 0x88] : List Opcode),
    ∃ o ∈ Op.all, c = o.code ∧ o.dataZeros = (0, 48) := by decide

/-- The opcodes with an item of at most eight bits name rows that take a tag and want the rest zero. -/
theorem byteItemCodes_rows : ∀ c ∈ ([0x20, 0x21, 0x50, 0x60, 0x70, 0x80] : List Opcode),
    ∃ o ∈ Op.all, c = o.code ∧ o.takesTag = true ∧ o.dataZeros = (8, 40) := by decide

/-- Settles O4: the clauses of `ValidWord` are the rows of the table, those of one shape together. -/
theorem wordsThatDecode : Obligations.WordsThatDecode := by
  intro w
  rw [exists_decode_iff]
  constructor
  · rintro ⟨o, hc, hz, ht, hd⟩
    refine ⟨hz, ?_⟩
    rw [opcOf_eq, Op.code_eq] at hc
    rw [Op.takesTag_eq] at ht
    cases o with
    | cfgWr => exact .inl ⟨hc, by simpa using ht, hd⟩
    | cfgRd => exact .inr (.inl ⟨hc, by simpa using ht, hd⟩)
    | commit => exact .inr (.inr (.inl ⟨hc, by simpa using ht, hd⟩))
    | reset | ilvFlushFwd | ilvFlushInv | scgFlush | rpk0Flush | rpk1Flush | rpk2Flush | rpk3Flush =>
      exact .inr (.inr (.inr (.inl ⟨hc ▸ by decide, by simpa using ht,
        BitVec.extractLsb'_eq_self.symm.trans hd⟩)))
    | hamEnc => exact .inr (.inr (.inr (.inr (.inl ⟨hc, by simpa using ht, hd⟩))))
    | hamDec => exact .inr (.inr (.inr (.inr (.inr (.inl ⟨hc, by simpa using ht, hd⟩)))))
    | ilvFwd | ilvInv | rpk0Push | rpk1Push | rpk2Push | rpk3Push =>
      exact .inr (.inr (.inr (.inr (.inr (.inr (.inl ⟨hc ▸ by decide, by simpa using ht, hd⟩))))))
    | qamMap =>
      exact .inr (.inr (.inr (.inr (.inr (.inr (.inr (.inl ⟨hc, by simpa using ht, hd⟩)))))))
    | qamDemap =>
      exact .inr (.inr (.inr (.inr (.inr (.inr (.inr (.inr (.inl ⟨hc, by simpa using ht⟩))))))))
    | scgPush =>
      exact .inr (.inr (.inr (.inr (.inr (.inr (.inr (.inr (.inr ⟨hc, by simpa using ht⟩))))))))
  · rintro ⟨hz, h⟩
    rcases h with ⟨hc, ht, hd⟩ | ⟨hc, ht, hd⟩ | ⟨hc, ht, hd⟩ | ⟨hc, ht, hd⟩ | ⟨hc, ht, hd⟩ | ⟨hc, ht, hd⟩
      | ⟨hc, ht, hd⟩ | ⟨hc, ht, hd⟩ | ⟨hc, ht⟩ | ⟨hc, ht⟩
    · exact ⟨.cfgWr, hc, hz, .inl ht, hd⟩
    · exact ⟨.cfgRd, hc, hz, .inl ht, hd⟩
    · exact ⟨.commit, hc, hz, .inl ht, hd⟩
    · obtain ⟨o, -, hco, hzeros⟩ := zeroDataCodes_rows _ hc
      exact ⟨o, hco, hz, .inl ht, by rw [hzeros, dataOf_eq, hd]; rfl⟩
    · exact ⟨.hamEnc, hc, hz, ht.imp_right (.intro rfl), hd⟩
    · exact ⟨.hamDec, hc, hz, ht.imp_right (.intro rfl), hd⟩
    · obtain ⟨o, -, hco, htakes, hzeros⟩ := byteItemCodes_rows _ hc
      exact ⟨o, hco, hz, ht.imp_right (.intro htakes), by rw [hzeros]; exact hd⟩
    · exact ⟨.qamMap, hc, hz, ht.imp_right (.intro rfl), hd⟩
    · exact ⟨.qamDemap, hc, hz, ht.imp_right (.intro rfl), BitVec.eq_of_zero_length rfl⟩
    · exact ⟨.scgPush, hc, hz, .inl ht, BitVec.eq_of_zero_length rfl⟩

/-- Settles O7: eight closed words, each evaluated. -/
theorem workedEncodingsDecode : Obligations.WorkedEncodingsDecode := by
  unfold Obligations.WorkedEncodingsDecode
  decide

end Sys2Proof

namespace Sys2Proof.Machine

/-! ### Output items as words (R88) -/

@[simp] theorem opcOf_outWord (o : OutItem) : opcOf o.word = o.src.code := opcOf_packWord ..
@[simp] theorem zeroOf_outWord (o : OutItem) : zeroOf o.word = 0 := zeroOf_packWord ..
@[simp] theorem tagBitOf_outWord (o : OutItem) : tagBitOf o.word = o.tag.isSome := tagBitOf_packWord ..
@[simp] theorem tagLenOf_outWord (o : OutItem) : tagLenOf o.word = o.tag.len := tagLenOf_packWord ..
@[simp] theorem dataOf_outWord (o : OutItem) : dataOf o.word = o.data := dataOf_packWord ..

/-- Settles O9: an output word is packed as an input word is. -/
theorem outputItemWordLayout : Obligations.OutputItemWordLayout := by
  refine ⟨fun o => ⟨opcOf_outWord o, zeroOf_outWord o, dataOf_outWord o, fun h => ?_, fun l h => ?_⟩, ?_⟩
  · rw [tagBitOf_outWord, tagLenOf_outWord, h]
    exact ⟨rfl, rfl⟩
  · rw [tagBitOf_outWord, tagLenOf_outWord, h]
    exact ⟨rfl, rfl⟩
  · simp only [List.map, Stream.code_eq]
    decide

/-! ### Over-wide items (R97) -/

/-- In the common frame an over-wide item is dropped: ILLEGAL where the unit is RUNNING, else NOTRUN. -/
theorem framed_of_overWide {x : BitVec 8} {w : Word32} (h : OverWide x w) (u : UnitId)
    (body : State → State) (s : State) :
    ((s.life u).mode = .running → framed u (tooWide x w) body s = withIllegal s)
    ∧ ((s.life u).mode ≠ .running → framed u (tooWide x w) body s = withNotrun s) := by
  rw [(tooWide_iff_overWide x w).mpr h]
  exact ⟨framed_of_wide, framed_of_not_running⟩

/-- Settles O20: ILV's two item operations and the repackers' stand in the one frame. -/
theorem overWideItemDropped : Obligations.OverWideItemDropped := by
  refine ⟨fun d x tag s hwide => ?_, fun k g tag s hwide => ?_⟩
  · rw [exec_ilvItem]
    exact (framed_of_overWide hwide .ilv _ s).imp (congrArg _ ∘ ·) (congrArg _ ∘ ·)
  · rw [exec_rpkItem]
    exact (framed_of_overWide hwide (.rpk k) _ s).imp (congrArg _ ∘ ·) (congrArg _ ∘ ·)

end Sys2Proof.Machine
end

section
/-! The proofs of the family 40_system.md: CFG_WR and CFG_RD by the register an address names
(`Reg.ofAddr_eq_none_iff`, `Reg.owner`), COMMIT by the outcome of its unit's checks, and the configuration
that only CFG_WR of an UNCONFIGURED unit and RESET change. -/

namespace Sys2Proof

/-! ### The words of the system operations (R82, R85) -/

/-- The word of an operation without a tag decodes to it. -/
theorem decode_packWord_untagged (i : Instr) (h : i.tag = none) :
    decode (packWord i.op.code false 0 i.data) = .ok i := by
  have hdec := decodeEncodeAgree i (by simp [Instr.WellFormed, Tag.WellFormed, h])
  rw [encode, packTagged, h] at hdec
  exact hdec

/-- CFG_RD's DATA has zeros below ADDR (R82). -/
theorem regData_zero (a : Addr) : regData a 0 = a ++ 0#40 := by
  apply BitVec.eq_of_getLsbD_eq
  intro i _
  rw [getLsbD_regData, BitVec.getLsbD_append]
  by_cases h : i < 40
  · simp [h]
  · simp [h, show ¬ i < 32 by omega]

end Sys2Proof

namespace Sys2Proof.Machine

/-! ### The register an address names (R23, R26) -/

theorem Reg.addr_of_ofAddr {a : Addr} {r : Reg} (h : Reg.ofAddr a = some r) : r.addr = a := by
  simpa using List.find?_some h

/-- The unit whose configuration a register is part of; `none` for a read-only register (R26). -/
def Reg.owner : Reg → Option UnitId
  | .ilvN | .ilvCols | .ilvW => some .ilv
  | .fftLen | .cpLen | .tLow | .tHigh | .scNsym | .scMaxRun => some .scg
  | .rpkGIn k | .rpkGOut k => some (.rpk k)
  | _ => none

/-- A register can be written exactly where it has an owner, as part of that unit. -/
theorem writeReg_map_fst (s : State) (v : Word32) (r : Reg) :
    (s.writeReg v r).map Prod.fst = r.owner := by
  cases r <;> rfl

theorem writeReg_eq_none {r : Reg} (h : r.owner = none) (v : Word32) (s : State) :
    s.writeReg v r = none := by
  rwa [← writeReg_map_fst s v, Option.map_eq_none_iff] at h

theorem exists_writeReg {r : Reg} {u : UnitId} (h : r.owner = some u) (v : Word32) (s : State) :
    ∃ t, s.writeReg v r = some (u, t) := by
  rw [← writeReg_map_fst s v, Option.map_eq_some_iff] at h
  obtain ⟨⟨u, t⟩, hw, rfl⟩ := h
  exact ⟨t, hw⟩

/-- A writable register's address starts with its owner's number (R23). -/
theorem Reg.owner_number {r : Reg} {u : UnitId} (h : r.owner = some u) :
    u.number = r.addr.extractLsb' 4 4 := by
  cases r with
  | ilvN | ilvCols | ilvW | fftLen | cpLen | tLow | tHigh | scNsym | scMaxRun => cases h; decide
  | rpkGIn k | rpkGOut k => cases h; revert k; decide
  | _ => cases h

/-- Column Access of R26 for the mapped registers. -/
theorem Reg.addr_access (r : Reg) :
    (r.owner ≠ none ∧ r.addr ∈ writableAddrs) ∨ (r.owner = none ∧ r.addr ∈ readOnlyAddrs) := by
  cases r with
  | rpkStatus k | rpkGIn k | rpkGOut k => revert k; decide
  | _ => decide

theorem writableAddrs_owned : ∀ a ∈ writableAddrs, ∃ r ∈ Reg.all, r.addr = a ∧ r.owner ≠ none := by
  decide

theorem readOnlyAddrs_mapped : ∀ a ∈ readOnlyAddrs, ∃ r ∈ Reg.all, r.addr = a := by
  decide

/-- The writable addresses are those of the registers with an owner. -/
theorem exists_reg_of_writable {a : Addr} (h : a ∈ writableAddrs) :
    ∃ r u, Reg.addr r = a ∧ r.owner = some u := by
  obtain ⟨r, -, ha, ho⟩ := writableAddrs_owned a h
  obtain ⟨u, hu⟩ := Option.ne_none_iff_exists'.mp ho
  exact ⟨r, u, ha, hu⟩

/-- The mapped addresses are the writable and the read-only ones. -/
theorem exists_reg_of_mapped {a : Addr} (h : a ∈ writableAddrs ∨ a ∈ readOnlyAddrs) :
    ∃ r, Reg.addr r = a := by
  rcases h with h | h
  · obtain ⟨r, -, ha, -⟩ := writableAddrs_owned a h
    exact ⟨r, ha⟩
  · obtain ⟨r, -, ha⟩ := readOnlyAddrs_mapped a h
    exact ⟨r, ha⟩

theorem Reg.ofAddr_eq_none {a : Addr} (hw : a ∉ writableAddrs) (hr : a ∉ readOnlyAddrs) :
    Reg.ofAddr a = none := by
  rw [Option.eq_none_iff_forall_ne_some]
  intro r h
  obtain rfl := Reg.addr_of_ofAddr h
  rcases r.addr_access with ⟨-, ha⟩ | ⟨-, ha⟩
  · exact hw ha
  · exact hr ha

/-! ### CFG_WR (R110) -/

theorem exec_cfgWr_addr (r : Reg) (v : Word32) (s : State) :
    exec (.cfgWr r.addr v) s = .next (writeMapped r v s) := by
  simp only [exec, execCfgWr, Reg.ofAddr_addr]

theorem exec_cfgWr_unconfigured {r : Reg} {v : Word32} {s t : State} {u : UnitId}
    (hw : s.writeReg v r = some (u, t)) (hm : (s.life u).mode = .unconfigured) :
    exec (.cfgWr r.addr v) s = .next t := by
  simp only [exec_cfgWr_addr, writeMapped, hw, hm, if_true]

theorem exec_cfgWr_locked {r : Reg} {u : UnitId} {s : State} (v : Word32) (ho : r.owner = some u)
    (hm : (s.life u).mode ≠ .unconfigured) : exec (.cfgWr r.addr v) s = .next (withCfglock s) := by
  obtain ⟨t, hw⟩ := exists_writeReg ho v s
  simp only [exec_cfgWr_addr, writeMapped, hw, hm, if_false]
  rfl

/-- CFG_WR of an address that is unmapped or read-only is illegal. -/
theorem exec_cfgWr_not_writable {a : Addr} (h : a ∉ writableAddrs) (v : Word32) (s : State) :
    exec (.cfgWr a v) s = .next (withIllegal s) := by
  cases hr : Reg.ofAddr a with
  | none => simp only [exec, execCfgWr, hr]; rfl
  | some r =>
    obtain rfl := Reg.addr_of_ofAddr hr
    rcases r.addr_access with ⟨-, ha⟩ | ⟨ho, -⟩
    · exact absurd ha h
    · simp only [exec_cfgWr_addr, writeMapped, writeReg_eq_none ho]
      rfl

/-- Settles O11: the address decides the register, the register its owner, and the owner's MODE whether
the register is written. -/
theorem cfgWrRule : Obligations.CfgWrRule := by
  refine ⟨fun addr value => ?_, fun addr value s h => exec_cfgWr_not_writable h value s,
    fun addr value s u ha hu hm => ?_, fun v s hm => ?_, fun v s hm => ?_, fun v s k hm => ?_⟩
  · rw [← regData_eq]
    exact decode_packWord_untagged (.cfgWr addr value) rfl
  · obtain ⟨r, u', rfl, ho⟩ := exists_reg_of_writable ha
    obtain rfl : u = u' := UnitId.number_injective (hu.trans (Reg.owner_number ho).symm)
    exact exec_cfgWr_locked value ho hm
  · exact ⟨exec_cfgWr_unconfigured (r := .ilvN) rfl hm, exec_cfgWr_unconfigured (r := .ilvCols) rfl hm,
      exec_cfgWr_unconfigured (r := .ilvW) rfl hm⟩
  · exact ⟨exec_cfgWr_unconfigured (r := .fftLen) rfl hm, exec_cfgWr_unconfigured (r := .cpLen) rfl hm,
      exec_cfgWr_unconfigured (r := .tLow) rfl hm, exec_cfgWr_unconfigured (r := .tHigh) rfl hm,
      exec_cfgWr_unconfigured (r := .scNsym) rfl hm, exec_cfgWr_unconfigured (r := .scMaxRun) rfl hm⟩
  · obtain ⟨-, hin, hout⟩ := Reg.addr_rpk k
    rw [← hin, ← hout]
    exact ⟨exec_cfgWr_unconfigured rfl hm, exec_cfgWr_unconfigured rfl hm⟩

/-! ### CFG_RD (R111) -/

theorem exec_cfgRd_unmapped {a : Addr} (hw : a ∉ writableAddrs) (hr : a ∉ readOnlyAddrs) (s : State) :
    exec (.cfgRd a) s = .next (withIllegal s) := by
  simp only [exec, execCfgRd, Reg.ofAddr_eq_none hw hr]
  rfl

/-- Settles O12: a mapped address reads as its register, and a result pair's halves make up the pair. -/
theorem cfgRdReturnsRegister : Obligations.CfgRdReturnsRegister := by
  refine ⟨fun addr => ?_, fun addr s hw hr => exec_cfgRd_unmapped hw hr s, fun addr s h => ?_,
    fun s => ?_, fun s => ?_, fun s k => ?_⟩
  · rw [← regData_zero]
    exact decode_packWord_untagged (.cfgRd addr) rfl
  · obtain ⟨r, rfl⟩ := exists_reg_of_mapped h
    exact ⟨_, readsAs_addr s r⟩
  · exact ⟨readsAs_addr s .ilvN, readsAs_addr s .ilvCols, readsAs_addr s .ilvW, readsAs_addr s .fftLen,
      readsAs_addr s .cpLen, readsAs_addr s .tLow, readsAs_addr s .tHigh, readsAs_addr s .scNsym,
      readsAs_addr s .scMaxRun, readsAs_addr s .scFrames, readsAs_addr s .scStart, readsAs_addr s .scCfo⟩
  · exact ⟨_, _, _, _, _, _,
      readsAs_addr s .scPReLo, readsAs_addr s .scPReHi, pairHi_append_pairLo _,
      readsAs_addr s .scPImLo, readsAs_addr s .scPImHi, pairHi_append_pairLo _,
      readsAs_addr s .scRLo, readsAs_addr s .scRHi, pairHi_append_pairLo _⟩
  · obtain ⟨-, hin, hout⟩ := Reg.addr_rpk k
    rw [← hin, ← hout]
    exact ⟨readsAs_addr s (.rpkGIn k), readsAs_addr s (.rpkGOut k)⟩

/-! ### COMMIT's checks (R113, R114) -/

/-- The checks of ILV with R114's limits as numbers. -/
theorem Ilv.check_eq (v : Ilv) :
    v.check = if v.n.toNat = 0 ∨ v.cols.toNat = 0 ∨ v.w.toNat = 0 then .zeroSize
      else if v.n.toNat > 4096 ∨ v.cols.toNat > v.n.toNat ∨ v.w.toNat > 8 then .range
      else if ¬ v.cols.toNat ∣ v.n.toNat then .ilvShape else .noError := by
  simp [Ilv.check, Nat.dvd_iff_mod_eq_zero]

/-- The checks of SCG with R114's limits as numbers. -/
theorem ScgCfg.check_eq (g : ScgCfg) :
    g.check = if g.fftLen.toNat = 0 ∨ g.cpLen.toNat = 0 ∨ g.nsym.toNat = 0 ∨ g.maxRun.toNat = 0
        then .zeroSize
      else if g.fftLen.toNat > 4096 ∨ g.cpLen.toNat > g.fftLen.toNat ∨ g.tLow.toNat > 65535
          ∨ g.tHigh.toNat > 65535 ∨ g.nsym.toNat > 65535 ∨ g.maxRun.toNat > g.fftLen.toNat then .range
      else if ¬ 2 ∣ g.fftLen.toNat then .fftOdd
      else if g.tLow.toNat ≥ g.tHigh.toNat then .threshOrder else .noError := by
  simp [ScgCfg.check, Nat.dvd_iff_mod_eq_zero]

/-- The checks of a repacker with R114's limits as numbers. -/
theorem Rpk.check_eq (x : Rpk) :
    x.check = if x.gIn.toNat = 0 ∨ x.gOut.toNat = 0 then .zeroSize
      else if x.gIn.toNat > 8 ∨ x.gOut.toNat > 8 then .range else .noError := by
  simp [Rpk.check]

/-- Settles O15: each unit's chain of checks, taken at the branch its clause names. -/
theorem commitChecksDecideCode : Obligations.CommitChecksDecideCode := by
  refine ⟨fun _ => ⟨rfl, rfl⟩, fun s => ?_, fun s => ?_, fun s k => ?_⟩
  · simp only [State.check, Ilv.check_eq]
    refine ⟨fun hz => if_pos hz, fun hz hr => ?_, fun hz hr hd => ?_, fun hz hr hd => ?_⟩
    · rw [if_neg hz, if_pos hr]
    · rw [if_neg hz, if_neg hr, if_pos hd]
    · rw [if_neg hz, if_neg hr, if_neg (not_not.mpr hd)]
  · simp only [State.check, ScgCfg.check_eq]
    refine ⟨fun hz => if_pos hz, fun hz hr => ?_, fun hz hr hd => ?_, fun hz hr hd hlo => ?_,
      fun hz hr hd hlo => ?_⟩
    · rw [if_neg hz, if_pos hr]
    · rw [if_neg hz, if_neg hr, if_pos hd]
    · rw [if_neg hz, if_neg hr, if_neg (not_not.mpr hd), if_pos hlo]
    · rw [if_neg hz, if_neg hr, if_neg (not_not.mpr hd), if_neg (not_le.mpr hlo)]
  · simp only [State.check, Rpk.check_eq]
    refine ⟨fun hz => if_pos hz, fun hz hr => ?_, fun hz hr => ?_⟩
    · rw [if_neg hz, if_pos hr]
    · rw [if_neg hz, if_neg hr]

/-! ### COMMIT (R112, R116) -/

/-- UNIT 0 and UNIT above 8 name no unit. -/
theorem UnitId.ofNumber_eq_none {n : UnitNum} (h : n = 0 ∨ 8 < n.toNat) : UnitId.ofNumber n = none := by
  rw [Option.eq_none_iff_forall_ne_some]
  intro u hu
  obtain rfl := UnitId.number_of_ofNumber hu
  have hbounds := u.number_bounds
  rcases h with h | h
  · simp [h] at hbounds
  · omega

theorem exec_commit_number (u : UnitId) (s : State) :
    exec (.commit u.number) s = .next (commitUnit u s) := by
  simp only [exec, execCommit, UnitId.ofNumber_number]

theorem commitUnit_locked {u : UnitId} {s : State} (hm : (s.life u).mode ≠ .unconfigured) :
    commitUnit u s = withCfglock s :=
  if_pos hm

theorem commitUnit_passed {u : UnitId} {s : State} (hm : (s.life u).mode = .unconfigured)
    (hc : s.check u = .noError) : commitUnit u s = s.setLife u { s.life u with mode := .running } := by
  simp only [commitUnit, hm, hc, ne_eq, not_true_eq_false, if_false, if_true]

theorem commitUnit_failed {u : UnitId} {s : State} (hm : (s.life u).mode = .unconfigured)
    (hc : s.check u ≠ .noError) : commitUnit u s = s.setLife u { mode := .failed, err := s.check u } := by
  simp only [commitUnit, hm, hc, ne_eq, not_true_eq_false, if_false]
  rfl

/-- Settles O14. -/
theorem commitRule : Obligations.CommitRule := by
  refine ⟨fun u => ?_, fun u s h => ?_, fun u s hm => ?_, fun u s hm hc => ?_, fun u s hm hc => ?_⟩
  · rw [← unitData_eq]
    exact decode_packWord_untagged (.commit u) rfl
  · simp only [exec, execCommit, UnitId.ofNumber_eq_none h]
    rfl
  · rw [exec_commit_number, commitUnit_locked hm]
  · rw [exec_commit_number, commitUnit_passed hm hc]
  · rw [exec_commit_number, commitUnit_failed hm hc]

/-- Settles O23: the run state is fresh while the unit is UNCONFIGURED, and COMMIT changes only its MODE. -/
theorem commitStartsFromResetRunState : Obligations.CommitStartsFromResetRunState := by
  intro s t u hl he hm hrun
  have hfresh : t.Fresh u := by
    obtain ⟨-, hs⟩ := LifeInv.unconfigured hl hm
    rw [exec_commit_number] at he
    cases he
    by_cases hc : s.check u = .noError
    · rw [commitUnit_passed hm hc]
      exact (setLife_fresh s u u _).mpr hs
    · simp [commitUnit_failed hm hc] at hrun
  refine ⟨?_, ?_, fun k => ?_⟩ <;> rintro rfl <;> exact hfresh

/-! ### The configuration after COMMIT (R118) -/

/-- The writable registers of a unit are the same in both states; HAM and QAM have none (R26). -/
def SameConfig (s t : State) : UnitId → Prop
  | .ham | .qam => True
  | .ilv => t.ilv.n = s.ilv.n ∧ t.ilv.cols = s.ilv.cols ∧ t.ilv.w = s.ilv.w
  | .scg => t.scg.cfg = s.scg.cfg
  | .rpk k => (t.rpk k).gIn = (s.rpk k).gIn ∧ (t.rpk k).gOut = (s.rpk k).gOut

theorem SameUnit.sameConfig {s t : State} {u : UnitId} (h : SameUnit s t u) : SameConfig s t u := by
  cases u with
  | ham | qam => exact True.intro
  | ilv => exact ⟨congrArg Ilv.n h, congrArg Ilv.cols h, congrArg Ilv.w h⟩
  | scg => exact congrArg Scg.cfg h
  | rpk k => exact ⟨congrArg Rpk.gIn h, congrArg Rpk.gOut h⟩

/-- An update of one unit leaves every configuration alone once it leaves that unit's. -/
theorem sameConfig_of_touched {s t : State} (u : UnitId) (hsame : ∀ v, v ≠ u → SameUnit s t v)
    (hu : SameConfig s t u) (v : UnitId) : SameConfig s t v := by
  by_cases hv : v = u
  · exact hv ▸ hu
  · exact (hsame v hv).sameConfig

theorem setLife_sameConfig (s : State) (u : UnitId) (l : Life) (v : UnitId) :
    SameConfig s (s.setLife u l) v := by
  refine sameConfig_of_touched u (fun w hw => setLife_sameUnit s u l hw) ?_ v
  cases u with
  | ham | qam => exact True.intro
  | ilv => exact ⟨rfl, rfl, rfl⟩
  | scg => exact rfl
  | rpk k => simp [SameConfig, State.setLife]

theorem putIlv_sameConfig (s : State) (d : Dir) (r : IlvCtx × List OutItem) (v : UnitId) :
    SameConfig s (s.putIlv d r) v :=
  sameConfig_of_touched .ilv (fun _ hw => putIlv_sameUnit s d r hw) (by simp [SameConfig]) v

theorem withScg_sameConfig (s : State) (g : Scg) (h : g.cfg = s.scg.cfg) (v : UnitId) :
    SameConfig s { s with scg := g } v :=
  sameConfig_of_touched .scg (fun _ hw => withScg_sameUnit s g hw) h v

theorem setRpk_sameConfig (s : State) (k : RpkId) (x : Rpk) (hi : x.gIn = (s.rpk k).gIn)
    (ho : x.gOut = (s.rpk k).gOut) (v : UnitId) : SameConfig s (s.setRpk k x) v :=
  sameConfig_of_touched (.rpk k) (fun _ hw => setRpk_sameUnit s k x hw)
    (by simpa [SameConfig] using ⟨hi, ho⟩) v

theorem SameConfig.emit {s t : State} {u : UnitId} (h : SameConfig s t u) (items : List OutItem) :
    SameConfig s (t.emit items) u := by
  cases u <;> exact h

/-- Only RESET, and CFG_WR while the unit is UNCONFIGURED, change a unit's configuration. -/
theorem ExecEffect.sameConfig {s t : State} {i : Instr} (hi : i ≠ .reset) (h : ExecEffect s i t)
    {u : UnitId} (hm : (s.life u).mode ≠ .unconfigured) : SameConfig s t u := by
  cases h with
  | refused _ c hc => exact (raise_sameUnit hc u).sameConfig
  | wrote addr value r v t hw hv =>
    have huv : u ≠ v := fun e => hm (e ▸ hv)
    exact ((writeReg_writesRegisterOf hw).others u huv).sameConfig
  | committed v | failed v => exact setLife_sameConfig s v _ u
  | reset => exact absurd rfl hi
  | emitted _ items => cases u <;> simp [SameConfig]
  | ilvItem d | ilvFlush d => exact putIlv_sameConfig s d _ u
  | scgPush re im => exact (withScg_sameConfig s _ (Scg.push_cfg _ _) u).emit _
  | scgFlush => exact withScg_sameConfig s _ rfl u
  | rpkItem k g tag => exact (setRpk_sameConfig s k _ (by simp) (by simp) u).emit _
  | rpkFlush k => exact setRpk_sameConfig s k (s.rpk k).flush rfl rfl u

/-- A step that is no reset event keeps the configuration of a unit that is not UNCONFIGURED. -/
theorem step_sameConfig {s t : State} (h : step s = .next t) (hr : resetsNext s = false) {u : UnitId}
    (hm : (s.life u).mode ≠ .unconfigured) : SameConfig s t u := by
  cases step_effect h with
  | idle => cases u <;> simp [SameConfig]
  | hwReset rest hs => exact absurd hs (not_hwReset_of_resetsNext hr)
  | invalid w rest => cases u <;> simp [SameConfig, State.rpk]
  | performed w rest i t hs hd he =>
    have hlife : State.life { s with input := rest } u = s.life u := by cases u <;> rfl
    have hsame := he.sameConfig (ne_reset_of_resetsNext hr hs hd) (hlife.symm ▸ hm)
    cases u <;> exact hsame

/-- Settles O18. -/
theorem configurationFrozenAfterCommit : Obligations.ConfigurationFrozenAfterCommit :=
  fun _ _ h hr => ⟨step_sameConfig (u := .ilv) h hr, step_sameConfig (u := .scg) h hr,
    fun k => step_sameConfig (u := .rpk k) h hr⟩

end Sys2Proof.Machine
end

section
/-! The proofs of the family 41_hamming.md. The tables are checked entry by entry. The laws follow from four
facts: the syndrome is linear, it is 0 exactly on the codewords, it numbers the position of a single flip,
and the correction leaves a codeword at most one flip away. -/

namespace Sys2Proof.Machine

/-! ### The operations (R133, R134, R136) -/

/-- A RUNNING unit's operation that only emits (R120). -/
theorem framed_emit_of_running {u : UnitId} {s : State} (items : List OutItem)
    (h : (s.life u).mode = .running) :
    framed u false (fun s => s.emit items) s = { s with out := s.out ++ items } :=
  framed_of_running h

theorem exec_hamEnc_of_running (d : BitVec 4) (tag : Tag) {s : State} (h : s.ham.mode = .running) :
    exec (.hamEnc d tag) s = .next { s with out := s.out ++ [
      { src := .codewords, tag := tag, data := itemData (hamEncode d) }] } :=
  congrArg _ (framed_emit_of_running (u := .ham) _ h)

theorem exec_hamDec_of_running (c : BitVec 7) (tag : Tag) {s : State} (h : s.ham.mode = .running) :
    exec (.hamDec c tag) s = .next { s with out := s.out ++ [
      { src := .nibbles, tag := tag, data := itemData (hamDecode c) }] } :=
  congrArg _ (framed_emit_of_running (u := .ham) _ h)

/-! ### The tables (R138, R139) -/

theorem itemData_hamEncode (d : BitVec 4) : itemData (hamEncode d) = hamEncTable.getD d.toNat 0 := by
  rw [hamEncode_eq]
  revert d
  decide

theorem itemData_hamDecode (c : BitVec 7) : itemData (hamDecode c) = hamDecTable.getD c.toNat 0 := by
  revert c
  decide

theorem toNat_hamSyndrome (c : BitVec 7) : (hamSyndrome c).toNat = hamSynTable.getD c.toNat 0 := by
  revert c
  decide

/-- Settles O29. -/
theorem hamEncFollowsTable : Obligations.HamEncFollowsTable := by
  refine ⟨fun d tag ht => ?_, fun d tag s h => ?_⟩
  · rw [← itemData_eq]
    exact decodeEncodeAgree (.hamEnc d tag) ht
  · rw [exec_hamEnc_of_running d tag h, itemData_hamEncode]

/-- Settles O30. -/
theorem hamDecFollowsTable : Obligations.HamDecFollowsTable := by
  refine ⟨toNat_hamSyndrome, fun c tag ht => ?_, fun c tag s h => ?_⟩
  · rw [← itemData_eq]
    exact decodeEncodeAgree (.hamDec c tag) ht
  · rw [exec_hamDec_of_running c tag h, itemData_hamDecode]

/-! ### The syndrome and the codewords (R132, R135) -/

/-- The syndrome is linear. -/
theorem hamSyndrome_xor (c e : BitVec 7) :
    hamSyndrome (c ^^^ e) = hamSyndrome c ^^^ hamSyndrome e := by
  apply BitVec.eq_of_getLsbD_eq
  intro i _
  simp only [hamSyndrome_eq, BitVec.getLsbD_xor, BitVec.getLsbD_append, BitVec.getLsbD_ofBool]
  split_ifs <;> simp only [← Bool.and_xor_distrib_left, Bool.xor_assoc, Bool.xor_left_comm]

@[simp] theorem hamSyndrome_hamEncode (v : BitVec 4) : hamSyndrome (hamEncode v) = 0 := by
  rw [hamEncode_eq]
  revert v
  decide

@[simp] theorem hamData_hamEncode (v : BitVec 4) : hamData (hamEncode v) = v := by
  rw [hamEncode_eq]
  exact BitVec.extractLsb'_append_eq_right

/-- A septet of syndrome 0 is the codeword of its data bits. -/
theorem hamEncode_hamData {c : BitVec 7} (h : hamSyndrome c = 0) : hamEncode (hamData c) = c := by
  rw [hamEncode_eq]
  revert c
  decide

/-- The syndrome of one bit is its position. -/
theorem toNat_hamSyndrome_bit (p : Fin 7) : (hamSyndrome (1#7 <<< p.val)).toNat = p.val + 1 := by
  revert p
  decide

/-- R135. -/
theorem toNat_hamSyndrome_flip (v : BitVec 4) (p : Fin 7) :
    (hamSyndrome (hamEncode v ^^^ (1#7 <<< p.val))).toNat = p.val + 1 := by
  simp [hamSyndrome_xor, toNat_hamSyndrome_bit]

/-! ### The number of flips -/

/-- How many of the seven bits are set: the number of flips of an error, the distance of two septets. -/
abbrev flips (e : BitVec 7) : Nat := ((List.range 7).filter (fun i => e.getLsbD i)).length

theorem flips_le_one_iff (e : BitVec 7) : flips e ≤ 1 ↔ e = 0 ∨ ∃ p : Fin 7, e = 1#7 <<< p.val := by
  revert e
  decide

/-- No column of H is 0 and no two are equal, so one or two flips show in the syndrome. -/
theorem three_le_flips {e : BitVec 7} (h : hamSyndrome e = 0) (he : e ≠ 0) : 3 ≤ flips e := by
  revert e
  decide

/-! ### The correction (R134) -/

/-- All the correction can do. -/
theorem hamCorrect_cases (c : BitVec 7) :
    (hamSyndrome c = 0 ∧ hamCorrect c = c)
    ∨ ∃ p : Fin 7, (hamSyndrome c).toNat = p.val + 1 ∧ hamCorrect c = c ^^^ (1#7 <<< p.val) := by
  rw [hamCorrect_eq]
  split_ifs with h
  · exact .inl ⟨h, rfl⟩
  · have hpos : (hamSyndrome c).toNat ≠ 0 := fun h0 => h (BitVec.eq_of_toNat_eq h0)
    exact .inr ⟨⟨(hamSyndrome c).toNat - 1, by omega⟩, by simp only; omega, rfl⟩

@[simp] theorem hamCorrect_hamEncode (v : BitVec 4) : hamCorrect (hamEncode v) = hamEncode v := by
  rw [hamCorrect_eq, if_pos (hamSyndrome_hamEncode v)]

theorem hamCorrect_flip (v : BitVec 4) (p : Fin 7) :
    hamCorrect (hamEncode v ^^^ (1#7 <<< p.val)) = hamEncode v := by
  have hsyn := toNat_hamSyndrome_flip v p
  rcases hamCorrect_cases (hamEncode v ^^^ (1#7 <<< p.val)) with ⟨hzero, -⟩ | ⟨q, hq, hc⟩
  · simp [hzero] at hsyn
  · obtain rfl : q = p := Fin.ext (by omega)
    rw [hc, BitVec.xor_assoc, BitVec.xor_self, BitVec.xor_zero]

/-- A septet at most one flip away from a codeword is corrected to it. -/
theorem hamCorrect_of_flips_le_one {c : BitVec 7} {v : BitVec 4} (h : flips (c ^^^ hamEncode v) ≤ 1) :
    hamCorrect c = hamEncode v := by
  rcases (flips_le_one_iff _).mp h with he | ⟨p, he⟩
  · rw [BitVec.xor_eq_zero_iff.mp he, hamCorrect_hamEncode]
  · obtain rfl : c = hamEncode v ^^^ (1#7 <<< p.val) := by
      rw [← he, BitVec.xor_comm c, ← BitVec.xor_assoc, BitVec.xor_self, BitVec.zero_xor]
    exact hamCorrect_flip v p

theorem hamSyndrome_hamCorrect (c : BitVec 7) : hamSyndrome (hamCorrect c) = 0 := by
  rcases hamCorrect_cases c with ⟨hzero, hc⟩ | ⟨p, hp, hc⟩
  · rw [hc, hzero]
  · have hbit : hamSyndrome c = hamSyndrome (1#7 <<< p.val) :=
      BitVec.eq_of_toNat_eq (hp.trans (toNat_hamSyndrome_bit p).symm)
    rw [hc, hamSyndrome_xor, hbit, BitVec.xor_self]
    rfl

/-- The decoder lands on the codeword of the nibble it returns. -/
theorem hamCorrect_eq_hamEncode_hamDecode (c : BitVec 7) : hamCorrect c = hamEncode (hamDecode c) :=
  (hamEncode_hamData (hamSyndrome_hamCorrect c)).symm

/-- The codeword of the decoded nibble is at most one flip away. -/
theorem flips_hamDecode_le_one (c : BitVec 7) : flips (c ^^^ hamEncode (hamDecode c)) ≤ 1 := by
  rw [← hamCorrect_eq_hamEncode_hamDecode, flips_le_one_iff]
  rcases hamCorrect_cases c with ⟨-, hc⟩ | ⟨p, -, hc⟩
  · exact .inl (by rw [hc, BitVec.xor_self]; rfl)
  · exact .inr ⟨p, by rw [hc, ← BitVec.xor_assoc, BitVec.xor_self, BitVec.zero_xor]⟩

/-- The decoder inverts the encoder on the corrected septet. -/
theorem hamDecode_of_hamCorrect {c : BitVec 7} {v : BitVec 4} (h : hamCorrect c = hamEncode v) :
    hamDecode c = v := by
  rw [hamDecode, h, hamData_hamEncode]

/-- The decoder returns exactly the nibble whose codeword is at most one flip away. -/
theorem flips_le_one_iff_hamDecode_eq (c : BitVec 7) (v : BitVec 4) :
    flips (c ^^^ hamEncode v) ≤ 1 ↔ hamDecode c = v := by
  refine ⟨fun h => hamDecode_of_hamCorrect (hamCorrect_of_flips_le_one h), ?_⟩
  rintro rfl
  exact flips_hamDecode_le_one c

/-! ### The laws (R137) -/

/-- Distinct codewords are at least three flips apart: their difference has syndrome 0. -/
theorem three_le_flips_of_ne {v v' : BitVec 4} (h : v ≠ v') : 3 ≤ flips (hamEncode v ^^^ hamEncode v') := by
  refine three_le_flips (by simp [hamSyndrome_xor]) fun he => h ?_
  rw [← hamData_hamEncode v, BitVec.xor_eq_zero_iff.mp he, hamData_hamEncode]

/-- Settles O31. -/
theorem hammingLaws : Obligations.HammingLaws := by
  refine ⟨fun v => hamDecode_of_hamCorrect (hamCorrect_hamEncode v),
    fun v p => ⟨hamDecode_of_hamCorrect (hamCorrect_flip v p), toNat_hamSyndrome_flip v p⟩,
    fun v v' h => three_le_flips_of_ne h,
    fun c => ⟨hamDecode c, flips_hamDecode_le_one c, hamCorrect_eq_hamEncode_hamDecode c, fun v' h => ?_⟩,
    fun v c h hv => ?_⟩
  · exact ((flips_le_one_iff_hamDecode_eq c v').mp h).symm
  · exact absurd ((flips_le_one_iff_hamDecode_eq c v).mpr hv) (Nat.not_le.mpr h)

end Sys2Proof.Machine
end

section
/-! The proofs of the family 42_interleaver.md. A block's order is a transpose, and transposing back is the
same map with R columns (`ilvPi_ilvPi`). The laws of whole streams follow from one fact (R160): where a
context cuts its stream depends on the tags alone (`cuts`), so both directions cut alike, and every piece
is put back in order. -/

namespace Sys2Proof.Machine

/-! ### The permutation (R151, R152) -/

section Permutation

variable {n c : Nat}

theorem ilvPi_lt (hcn : c ∣ n) {i : Nat} (hi : i < n) : ilvPi n c i < n := by
  have hc : 0 < c := Nat.pos_of_dvd_of_pos hcn (Nat.zero_lt_of_lt hi)
  obtain ⟨r, rfl⟩ := hcn
  have hcol : i % c < c := Nat.mod_lt i hc
  have hrow : i / c < r := Nat.div_lt_of_lt_mul hi
  rw [ilvPi, Nat.mul_div_cancel_left r hc]
  calc i % c * r + i / c < (i % c + 1) * r := by rw [Nat.succ_mul]; omega
    _ ≤ c * r := Nat.mul_le_mul_right r hcol

/-- R152's `pi_inv` is π of the matrix with R columns. -/
theorem ilvPi_transpose (hn : 0 < n) (hcn : c ∣ n) (j : Nat) :
    ilvPi n (n / c) j = j % (n / c) * c + j / (n / c) := by
  rw [ilvPi, Nat.div_div_self hcn hn.ne']

theorem ilvPi_ilvPi (hcn : c ∣ n) {i : Nat} (hi : i < n) :
    ilvPi n (n / c) (ilvPi n c i) = i := by
  have hrow : i / c < n / c := Nat.div_lt_div_of_lt_of_dvd hcn hi
  have hmod : (i % c * (n / c) + i / c) % (n / c) = i / c := by
    rw [Nat.mul_add_mod_self_right, Nat.mod_eq_of_lt hrow]
  have hdiv : (i % c * (n / c) + i / c) / (n / c) = i % c := by
    rw [Nat.mul_comm, Nat.mul_add_div (Nat.zero_lt_of_lt hrow), Nat.div_eq_of_lt hrow, Nat.add_zero]
  rw [ilvPi_transpose (Nat.zero_lt_of_lt hi) hcn, ilvPi, hmod, hdiv, Nat.div_add_mod']

/-- The other way round: the transpose's transpose is the matrix itself. -/
theorem ilvPi_ilvPi_transpose (hcn : c ∣ n) {j : Nat} (hj : j < n) :
    ilvPi n c (ilvPi n (n / c) j) = j := by
  have h := ilvPi_ilvPi (Nat.div_dvd_of_dvd hcn) hj
  rwa [Nat.div_div_self hcn (Nat.zero_lt_of_lt hj).ne'] at h

theorem ilvPi_transpose_lt (hcn : c ∣ n) {j : Nat} (hj : j < n) :
    ilvPi n (n / c) j < n :=
  ilvPi_lt (Nat.div_dvd_of_dvd hcn) hj

theorem ilvPi_pairwise (hcn : c ∣ n) :
    (List.range n).Pairwise (fun a b => ilvPi n c a ≠ ilvPi n c b) := by
  refine List.nodup_range.imp_of_mem fun {a b} ha hb hne he => hne ?_
  rw [← ilvPi_ilvPi hcn (List.mem_range.mp ha), he, ilvPi_ilvPi hcn (List.mem_range.mp hb)]

/-! ### A full block (R155, R156) -/

variable {b : List IlvItem}

theorem getElem?_ilvPermute_fwd (hcn : c ∣ n) (hb : b.length = n) {i : Nat} (hi : i < n) :
    (ilvPermute .fwd n c b)[ilvPi n c i]? = b[i]? := by
  rw [ilvPermute_fwd_getElem? n c b (ilvPi_pairwise hcn) i hi (ilvPi_lt hcn hi)]
  simp [hb, hi]

theorem getElem?_ilvPermute_inv (hcn : c ∣ n) (hb : b.length = n) {i : Nat} (hi : i < n) :
    (ilvPermute .inv n c b)[i]? = b[ilvPi n c i]? := by
  rw [ilvPermute_inv_getElem? n c b i hi]
  simp [hb, ilvPi_lt hcn hi]

/-- R151's equivalent form of the forward block. -/
theorem getElem?_ilvPermute_fwd_transpose (hcn : c ∣ n) (hb : b.length = n) {j : Nat}
    (hj : j < n) : (ilvPermute .fwd n c b)[j]? = b[ilvPi n (n / c) j]? := by
  rw [← getElem?_ilvPermute_fwd hcn hb (ilvPi_transpose_lt hcn hj), ilvPi_ilvPi_transpose hcn hj]

theorem ilvPermute_inv_fwd (hcn : c ∣ n) (hb : b.length = n) :
    ilvPermute .inv n c (ilvPermute .fwd n c b) = b := by
  refine List.ext_getElem?_iff' .. |>.mpr fun i hi => ?_
  have hi' : i < n := by simpa [hb] using hi
  rw [getElem?_ilvPermute_inv hcn (ilvPermute_length ..) hi', getElem?_ilvPermute_fwd hcn hb hi']

theorem ilvPermute_fwd_inv (hcn : c ∣ n) (hb : b.length = n) :
    ilvPermute .fwd n c (ilvPermute .inv n c b) = b := by
  refine List.ext_getElem?_iff' .. |>.mpr fun j hj => ?_
  have hj' : j < n := by simpa [hb] using hj
  rw [getElem?_ilvPermute_fwd_transpose hcn (ilvPermute_length ..) hj',
    getElem?_ilvPermute_inv hcn hb (ilvPi_transpose_lt hcn hj'), ilvPi_ilvPi_transpose hcn hj']

/-- A permuted block holds no item that the block did not hold. -/
theorem mem_of_mem_ilvPermute (hcn : c ∣ n) (hb : b.length = n) (d : Dir) {v : IlvItem}
    (hv : v ∈ ilvPermute d n c b) : v ∈ b := by
  obtain ⟨j, hj, rfl⟩ := List.mem_iff_getElem.mp hv
  have hjn : j < n := by simpa using hj
  have hval := List.getElem?_eq_getElem hj
  cases d with
  | fwd =>
    rw [getElem?_ilvPermute_fwd_transpose hcn hb hjn] at hval
    exact List.mem_of_getElem? hval
  | inv =>
    rw [getElem?_ilvPermute_inv hcn hb hjn] at hval
    exact List.mem_of_getElem? hval

end Permutation

/-- Settles O35: π is the transpose of an R × C matrix, undone by the transpose with R columns. -/
theorem permutationIsBijection : Obligations.PermutationIsBijection := by
  intro n c hn _ hcn
  refine ⟨fun i hi => ⟨ilvPi_lt hcn hi, ?_⟩, fun j hj => ?_, fun b hb => ?_, ?_⟩
  · exact (ilvPi_transpose hn hcn _).symm.trans (ilvPi_ilvPi hcn hi)
  · rw [← ilvPi_transpose hn hcn]
    exact ⟨ilvPi_transpose_lt hcn hj, ilvPi_ilvPi_transpose hcn hj⟩
  · exact ⟨fun i hi => ⟨getElem?_ilvPermute_fwd hcn hb hi, getElem?_ilvPermute_inv hcn hb hi⟩,
      ilvPermute_inv_fwd hcn hb, ilvPermute_fwd_inv hcn hb⟩
  · rintro (rfl | rfl) i hi
    · simp [Nat.mod_one]
    · simp [Nat.mod_eq_of_lt hi, Nat.div_eq_of_lt hi, Nat.div_self hn]

/-! ### The interleaver's part of the state -/

@[simp] theorem setCtx_ctx_self (v : Ilv) (d : Dir) : v.setCtx d (v.ctx d) = v := by
  cases d <;> rfl

@[simp] theorem setCtx_setCtx (v : Ilv) (d : Dir) (x y : IlvCtx) :
    (v.setCtx d x).setCtx d y = v.setCtx d y := by
  cases d <;> rfl

theorem putIlv_putIlv (s : State) (d : Dir) (q r : IlvCtx × List OutItem) :
    (s.putIlv d q).putIlv d r = s.putIlv d (r.1, q.2 ++ r.2) := by
  simp [State.putIlv, State.emit]

/-- Legal registers give a block that the columns divide (R114). -/
theorem Ilv.cols_dvd_of_check {v : Ilv} (h : v.check = .noError) :
    v.cols.toNat ∣ v.n.toNat := by
  rw [Ilv.check_eq] at h
  split_ifs at h with hzero hrange hshape
  exact hshape

theorem exec_ilvItem_of_running (d : Dir) {x : IlvItem} (tag : Tag) {s : State}
    (hm : s.ilv.life.mode = .running) (hx : ¬ OverWide x s.ilv.w) :
    exec (ilvItem d x tag) s
      = .next (s.putIlv d ((s.ilv.ctx d).push d s.ilv.n.toNat s.ilv.cols.toNat x tag)) := by
  have hw : tooWide x s.ilv.w = false := Bool.eq_false_iff.mpr (hx ∘ (tooWide_iff_overWide x _).mp)
  rw [exec_ilvItem, ilvData, hw, framed_of_running (by exact hm)]

theorem exec_ilvFlushOf_of_running (d : Dir) {s : State} (hm : s.ilv.life.mode = .running) :
    exec (ilvFlushOf d) s = .next (s.putIlv d ((s.ilv.ctx d).flush d)) := by
  rw [exec_ilvFlushOf, ilvFlush, framed_of_running (by exact hm)]

/-! ### What one operation does to its context (R154 to R158) -/

/-- The items of the packet that are left once one more has been taken (R155). -/
def remAfter (rem : TagLen) : TagLen := if rem = 0 then 0 else rem - 1

@[simp] theorem IlvCtx.count_eq (x : IlvCtx) : x.count = { x with rem := remAfter x.rem } := by
  unfold IlvCtx.count remAfter
  split
  · next h => cases x; cases h; rfl
  · rfl

/-- ILV's items as the statements write them. -/
theorem tagFirst_itemData (src : Stream) (pend : Tag) (items : List IlvItem) :
    tagFirst src pend (items.map itemData) = firstTagged src pend (items.map (fun y => y.setWidth 48)) := by
  rw [tagFirst_eq_firstTagged]
  exact congrArg _ (List.map_congr_left fun y _ => itemData_eq y)

section Push

variable (d : Dir) {n : Nat} (c : Nat) (v : IlvItem) {x : IlvCtx}

theorem IlvCtx.push_none (n : Nat) (x : IlvCtx) :
    x.push d n c v none = ((x.take d n c v).1.count, (x.take d n c v).2) := rfl

/-- A tag cuts off what is buffered; then the item is taken as one without a tag (R155). -/
theorem IlvCtx.push_some (n : Nat) (x : IlvCtx) (l : TagLen) :
    x.push d n c v (some l)
      = ((({ buf := [], rem := l, pend := some l } : IlvCtx).push d n c v none).1,
        tagFirst d.stream x.pend (x.buf.map itemData)
          ++ (({ buf := [], rem := l, pend := some l } : IlvCtx).push d n c v none).2) := rfl

theorem IlvCtx.push_of_tail (h : x.buf = [] ∧ 0 < x.rem.toNat ∧ x.rem.toNat < n) :
    x.push d n c v none = ({ buf := [], rem := remAfter x.rem, pend := none },
      tagFirst d.stream x.pend ([v].map itemData)) := by
  rcases x.take_cases d n c v with ⟨hb, -, -, e⟩ | ⟨hno, -⟩ | ⟨hno, -⟩
  · simp [IlvCtx.push_none, e, IlvCtx.release, hb]
  · exact absurd h hno
  · exact absurd h hno

theorem IlvCtx.push_of_full (h : ¬ (x.buf = [] ∧ 0 < x.rem.toNat ∧ x.rem.toNat < n))
    (hfull : x.buf.length + 1 = n) :
    x.push d n c v none = ({ buf := [], rem := remAfter x.rem, pend := none },
      tagFirst d.stream x.pend ((ilvPermute d n c (x.buf ++ [v])).map itemData)) := by
  rcases x.take_cases d n c v with ⟨h1, h2, h3, -⟩ | ⟨-, -, e⟩ | ⟨-, hno, -⟩
  · exact absurd ⟨h1, h2, h3⟩ h
  · have hne : ilvPermute d n c (x.buf ++ [v]) ≠ [] :=
      List.ne_nil_of_length_pos (by rw [ilvPermute_length]; omega)
    simp [IlvCtx.push_none, e, IlvCtx.release, pendAfter, hne]
  · exact absurd hfull hno

theorem IlvCtx.push_of_buffered (h : ¬ (x.buf = [] ∧ 0 < x.rem.toNat ∧ x.rem.toNat < n))
    (hfull : x.buf.length + 1 ≠ n) :
    x.push d n c v none = ({ buf := x.buf ++ [v], rem := remAfter x.rem, pend := x.pend }, []) := by
  rcases x.take_cases d n c v with ⟨h1, h2, h3, -⟩ | ⟨-, hno, -⟩ | ⟨-, -, e⟩
  · exact absurd ⟨h1, h2, h3⟩ h
  · exact absurd hno hfull
  · simp [IlvCtx.push_none, e]

end Push

/-- Settles O36: the three things `IlvCtx.push` does without a tag, and a tag reduced to them. -/
theorem ilvItemRule : Obligations.IlvItemRule := by
  refine ⟨fun x tag htag => ?_, fun d x s hm hcheck hx => ?_⟩
  · rw [← itemData_eq]
    exact ⟨decodeEncodeAgree (.ilvFwd x tag) htag, decodeEncodeAgree (.ilvInv x tag) htag⟩
  have hcn := Ilv.cols_dvd_of_check hcheck
  refine ⟨fun htail => ?_, fun htail hfull => ?_, fun htail hfull => ?_, fun l => ?_⟩
  · rw [exec_ilvItem_of_running d none hm hx, IlvCtx.push_of_tail d _ x htail, tagFirst_itemData]
    rfl
  · have hlen : ((s.ilv.ctx d).buf ++ [x]).length = s.ilv.n.toNat := by simpa using hfull
    refine ⟨ilvPermute d s.ilv.n.toNat s.ilv.cols.toNat ((s.ilv.ctx d).buf ++ [x]),
      ilvPermute_length .., fun i hi => ⟨?_, ?_⟩, ?_⟩
    · rintro rfl
      exact getElem?_ilvPermute_fwd hcn hlen hi
    · rintro rfl
      exact getElem?_ilvPermute_inv hcn hlen hi
    · rw [exec_ilvItem_of_running d none hm hx, IlvCtx.push_of_full d _ x htail hfull, tagFirst_itemData]
      rfl
  · rw [exec_ilvItem_of_running d none hm hx, IlvCtx.push_of_buffered d _ x htail hfull]
    simp [State.putIlv, State.emit, remAfter]
  · rw [← tagFirst_itemData, exec_ilvItem_of_running d (some l) hm hx, IlvCtx.push_some]
    set y : IlvCtx := { buf := [], rem := l, pend := some l }
    change _ = exec (ilvItem d x none) (s.putIlv d (y, tagFirst d.stream (s.ilv.ctx d).pend _))
    rw [exec_ilvItem_of_running d none (by simpa using hm) (by simpa using hx), putIlv_putIlv]
    simp

/-- Settles O37. -/
theorem ilvFlushRule : Obligations.IlvFlushRule := by
  refine ⟨by decide, by decide, fun d s hm => ?_⟩
  intro v
  rw [exec_ilvFlushOf_of_running d hm, ← tagFirst_itemData]
  rfl

end Sys2Proof.Machine
end

section
/-! Whole streams through one direction of ILV, from a context to a flush (42_interleaver.md R159, R160). -/

namespace Sys2Proof.Machine

/-! ### A stream as operations on a context -/

/-- What a direction emits for a sequence of items ended by a flush. -/
def IlvCtx.run (d : Dir) (n c : Nat) : List (IlvItem × Tag) → IlvCtx → List OutItem
  | [], x => (x.flush d).2
  | (v, tag) :: ps, x => (x.push d n c v tag).2 ++ run d n c ps (x.push d n c v tag).1

/-- A RUNNING ILV performs the sequence on its direction's context and leaves that context fresh. -/
theorem performAll_ilvItems (d : Dir) (items : List (IlvItem × Tag)) (s : State)
    (hm : s.ilv.life.mode = .running) (hx : ∀ p ∈ items, ¬ OverWide p.1 s.ilv.w) :
    performAll (items.map (fun p => ilvItem d p.1 p.2) ++ [ilvFlushOf d]) s
      = some (s.putIlv d (.reset,
          (s.ilv.ctx d).run d s.ilv.n.toNat s.ilv.cols.toNat items)) := by
  induction items generalizing s with
  | nil =>
    rw [List.map_nil, List.nil_append, performAll, exec_ilvFlushOf_of_running d hm]
    rfl
  | cons p ps ih =>
    obtain ⟨hp, hps⟩ := List.forall_mem_cons.mp hx
    rw [List.map_cons, List.cons_append, performAll, exec_ilvItem_of_running d p.2 hm hp]
    refine (ih _ (by simpa using hm) (by simpa using hps)).trans ?_
    simp [putIlv_putIlv, IlvCtx.run]

/-- A tag passes what is buffered through; the rest is the stream of the packet it opens. -/
theorem IlvCtx.run_cons_some (d : Dir) (n c : Nat) (v : IlvItem) (l : TagLen) (ps : List (IlvItem × Tag))
    (x : IlvCtx) :
    x.run d n c ((v, some l) :: ps) = tagFirst d.stream x.pend (x.buf.map itemData)
      ++ ({ buf := [], rem := l, pend := some l } : IlvCtx).run d n c ((v, none) :: ps) := by
  simp [IlvCtx.run, IlvCtx.push_some]

theorem Stream.eq_of_port {src : Stream} {d : Dir} (h : src.port = some (.ilv, d)) : src = d.stream := by
  cases src <;> cases h <;> rfl

theorem IlvCtx.run_src (d : Dir) (n c : Nat) (items : List (IlvItem × Tag)) (x : IlvCtx) :
    ∀ o ∈ x.run d n c items, o.src = d.stream := by
  have hport : EmittedAt (.ilv, d) (x.run d n c items) := by
    induction items generalizing x with
    | nil => exact IlvCtx.release_emittedAt d _ x
    | cons p ps ih => exact (IlvCtx.push_emittedAt d n c p.1 p.2 x).append (ih _)
  exact fun o ho => Stream.eq_of_port (hport o ho)

/-! ### The tags (R159) -/

/-- The tags of an emission of `m` items. -/
def firstTag (pend : Tag) (m : Nat) : List Tag := (List.replicate m none).set 0 pend

theorem tagFirst_tags (src : Stream) (pend : Tag) (vs : List Data) :
    (tagFirst src pend vs).map OutItem.tag = firstTag pend vs.length := by
  cases vs with
  | nil => rfl
  | cons v vs => simp [firstTag, tagFirst_none, List.replicate_succ, Function.comp_def]

theorem firstTag_zero (pend : Tag) : firstTag pend 0 = [] := rfl

/-- One more item behind an emission's items carries no tag. -/
theorem firstTag_succ {pend : Tag} {m : Nat} (h : m = 0 → pend = none) :
    firstTag pend (m + 1) = firstTag pend m ++ [none] := by
  cases m with
  | zero => rw [h rfl]; rfl
  | succ m => simp [firstTag, List.replicate_succ' (n := m + 1)]

section Tags

variable (d : Dir) (n c : Nat)

/-- Emitted at once or buffered, an item's tag keeps its place behind the buffered ones (R155). -/
theorem IlvCtx.push_none_tags (v : IlvItem) (x : IlvCtx) :
    (x.push d n c v none).2.map OutItem.tag
        ++ firstTag (x.push d n c v none).1.pend (x.push d n c v none).1.buf.length
      = firstTag x.pend (x.buf.length + 1) := by
  by_cases htail : x.buf = [] ∧ 0 < x.rem.toNat ∧ x.rem.toNat < n
  · simp [IlvCtx.push_of_tail d c v htail, firstTag, htail.1]
  by_cases hfull : x.buf.length + 1 = n
  · simp [IlvCtx.push_of_full d c v htail hfull, tagFirst_tags, firstTag_zero, hfull]
  · simp [IlvCtx.push_of_buffered d c v htail hfull]

/-- Once an item has been taken, a tag is pending only with something buffered (R157). -/
theorem IlvCtx.push_none_pend (v : IlvItem) (x : IlvCtx) :
    (x.push d n c v none).1.buf.length = 0 → (x.push d n c v none).1.pend = none := by
  by_cases htail : x.buf = [] ∧ 0 < x.rem.toNat ∧ x.rem.toNat < n
  · simp [IlvCtx.push_of_tail d c v htail]
  by_cases hfull : x.buf.length + 1 = n
  · simp [IlvCtx.push_of_full d c v htail hfull]
  · simp [IlvCtx.push_of_buffered d c v htail hfull]

/-- R159: the tags of the output are those of what is buffered and then those of the input. -/
theorem IlvCtx.run_tags (items : List (IlvItem × Tag)) (x : IlvCtx)
    (h : x.buf.length = 0 → x.pend = none) :
    (x.run d n c items).map OutItem.tag = firstTag x.pend x.buf.length ++ items.map Prod.snd := by
  induction items generalizing x with
  | nil => simp [IlvCtx.run, IlvCtx.flush, IlvCtx.release, tagFirst_tags]
  | cons p ps ih =>
    obtain ⟨v, tag⟩ := p
    have huntagged : ∀ y : IlvCtx, (y.run d n c ((v, none) :: ps)).map OutItem.tag
        = firstTag y.pend (y.buf.length + 1) ++ ps.map Prod.snd := fun y => by
      rw [IlvCtx.run, List.map_append, ih _ (IlvCtx.push_none_pend d n c v y), ← List.append_assoc,
        IlvCtx.push_none_tags]
    cases tag with
    | none => rw [huntagged, firstTag_succ h]; simp
    | some l => rw [IlvCtx.run_cons_some, List.map_append, huntagged, tagFirst_tags]; simp [firstTag]

end Tags

/-- Settles O38: a fresh context has nothing buffered. -/
theorem ilvTagsKeepPosition : Obligations.IlvTagsKeepPosition := by
  intro d s items hm _ hfresh hitems
  refine ⟨_, _, performAll_ilvItems d items s hm fun p hp => (hitems p hp).1, rfl, ?_⟩
  rw [hfresh]
  exact IlvCtx.run_tags d _ _ items .reset fun _ => rfl

/-! ### The cuts (R153) -/

/-- A piece of a stream: `m` items that pass through, or a full block. -/
inductive Cut where
  | pass (m : Nat) | block

def Cut.length (n : Nat) : Cut → Nat
  | .pass m => m
  | .block => n

/-- The order in which a direction emits a piece's items. -/
def Cut.arrange (d : Dir) (n c : Nat) : Cut → List IlvItem → List IlvItem
  | .pass _, b => b
  | .block, b => ilvPermute d n c b

/-- What one item without a tag completes, where `k` items are buffered, and how many are buffered then. -/
def cutTake (n k : Nat) (rem : TagLen) : Nat × List Cut :=
  if k = 0 ∧ 0 < rem.toNat ∧ rem.toNat < n then (0, [.pass 1])
  else if k + 1 = n then (0, [.block])
  else (k + 1, [])

/-- Where a context cuts its stream up to the flush, with `k` items buffered and `rem` left of the packet:
only the tags decide (R160). -/
def cuts (n k : Nat) (rem : TagLen) : List Tag → List Cut
  | [] => [.pass k]
  | none :: ts => (cutTake n k rem).2 ++ cuts n (cutTake n k rem).1 (remAfter rem) ts
  | some l :: ts => .pass k :: ((cutTake n 0 l).2 ++ cuts n (cutTake n 0 l).1 (remAfter l) ts)

theorem cuts_cons_some (n k : Nat) (rem l : TagLen) (ts : List Tag) :
    cuts n k rem (some l :: ts) = .pass k :: cuts n 0 l (none :: ts) := rfl

/-- The items of a stream as a direction emits them, piece by piece. -/
def rearrange (d : Dir) (n c : Nat) : List Cut → List IlvItem → List IlvItem
  | [], _ => []
  | q :: qs, vs => q.arrange d n c (vs.take (q.length n)) ++ rearrange d n c qs (vs.drop (q.length n))

theorem rearrange_cons (d : Dir) (n c : Nat) (q : Cut) (qs : List Cut) (vs : List IlvItem) :
    rearrange d n c (q :: qs) vs
      = q.arrange d n c (vs.take (q.length n)) ++ rearrange d n c qs (vs.drop (q.length n)) := rfl

theorem rearrange_cons_append (d : Dir) {n : Nat} (c : Nat) {q : Cut} (qs : List Cut) {b : List IlvItem}
    (vs : List IlvItem) (h : b.length = q.length n) :
    rearrange d n c (q :: qs) (b ++ vs) = q.arrange d n c b ++ rearrange d n c qs vs := by
  rw [rearrange_cons, List.take_left' h, List.drop_left' h]

/-! ### The items of a stream (R153, R155, R156) -/

theorem tagFirst_data (src : Stream) (pend : Tag) (vs : List Data) :
    (tagFirst src pend vs).map OutItem.data = vs := by
  induction vs generalizing pend with
  | nil => rfl
  | cons v vs ih => simp [ih]

section Items

variable (d : Dir) (n c : Nat)

/-- The context buffers and counts as the cuts do. -/
theorem IlvCtx.push_none_cut (v : IlvItem) (x : IlvCtx) :
    (x.push d n c v none).1.buf.length = (cutTake n x.buf.length x.rem).1
    ∧ (x.push d n c v none).1.rem = remAfter x.rem := by
  by_cases htail : x.buf = [] ∧ 0 < x.rem.toNat ∧ x.rem.toNat < n
  · simp [IlvCtx.push_of_tail d c v htail, cutTake, htail]
  by_cases hfull : x.buf.length + 1 = n
  · simp [IlvCtx.push_of_full d c v htail hfull, cutTake, htail, hfull]
  · simp [IlvCtx.push_of_buffered d c v htail hfull, cutTake, htail, hfull]

/-- An item emits the pieces it completes, and what it leaves buffered comes before the items to come. -/
theorem IlvCtx.push_none_data (v : IlvItem) (x : IlvCtx) (qs : List Cut) (vs : List IlvItem) :
    (x.push d n c v none).2.map OutItem.data
        ++ (rearrange d n c qs ((x.push d n c v none).1.buf ++ vs)).map itemData
      = (rearrange d n c ((cutTake n x.buf.length x.rem).2 ++ qs) (x.buf ++ v :: vs)).map itemData := by
  by_cases htail : x.buf = [] ∧ 0 < x.rem.toNat ∧ x.rem.toNat < n
  · simp [IlvCtx.push_of_tail d c v htail, cutTake, htail, rearrange, Cut.length, Cut.arrange]
  by_cases hfull : x.buf.length + 1 = n
  · have hblock : (x.buf ++ [v]).length = Cut.block.length n := by simpa [Cut.length] using hfull
    have hcons := rearrange_cons_append d c qs vs hblock
    rw [List.append_assoc, List.singleton_append] at hcons
    simp [IlvCtx.push_of_full d c v htail hfull, tagFirst_data, cutTake, htail, hfull, hcons, Cut.arrange]
  · simp [IlvCtx.push_of_buffered d c v htail hfull, cutTake, htail, hfull]

/-- What a stream's output holds: the buffered items and the stream's own, rearranged at the cuts. -/
theorem IlvCtx.run_data (items : List (IlvItem × Tag)) (x : IlvCtx) :
    (x.run d n c items).map OutItem.data
      = (rearrange d n c (cuts n x.buf.length x.rem (items.map Prod.snd))
          (x.buf ++ items.map Prod.fst)).map itemData := by
  induction items generalizing x with
  | nil => simp [IlvCtx.run, IlvCtx.flush, IlvCtx.release, tagFirst_data, cuts, rearrange, Cut.arrange,
      Cut.length]
  | cons p ps ih =>
    obtain ⟨v, tag⟩ := p
    have huntagged : ∀ y : IlvCtx, (y.run d n c ((v, none) :: ps)).map OutItem.data
        = (rearrange d n c (cuts n y.buf.length y.rem (none :: ps.map Prod.snd))
            (y.buf ++ v :: ps.map Prod.fst)).map itemData := fun y => by
      obtain ⟨hlen, hrem⟩ := IlvCtx.push_none_cut d n c v y
      rw [IlvCtx.run, List.map_append, ih, hlen, hrem, IlvCtx.push_none_data, cuts]
    cases tag with
    | none => exact huntagged x
    | some l =>
      rw [IlvCtx.run_cons_some, List.map_append, huntagged, tagFirst_data, List.map_cons, cuts_cons_some,
        rearrange_cons_append d c _ _ rfl]
      simp [Cut.arrange]

end Items

/-! ### Putting the items back (R160) -/

/-- The cuts cover the stream. -/
theorem cuts_length (n k : Nat) (rem : TagLen) (ts : List Tag) :
    ((cuts n k rem ts).map (Cut.length n)).sum = k + ts.length := by
  have htake : ∀ k rem, ((cutTake n k rem).2.map (Cut.length n)).sum + (cutTake n k rem).1 = k + 1 := by
    intro k rem
    unfold cutTake
    split_ifs <;> simp_all [Cut.length]
  induction ts generalizing k rem with
  | nil => simp [cuts, Cut.length]
  | cons tag ts ih =>
    cases tag with
    | none =>
      simp only [cuts, List.map_append, List.sum_append, ih, List.length_cons]
      have := htake k rem
      omega
    | some l =>
      simp only [cuts, List.map_cons, List.map_append, List.sum_cons, List.sum_append, ih,
        List.length_cons, Cut.length]
      have := htake 0 l
      omega

section RoundTrip

variable {n c : Nat}

theorem Cut.arrange_length {q : Cut} {b : List IlvItem} (d : Dir) (c : Nat) (h : b.length = q.length n) :
    (q.arrange d n c b).length = q.length n := by
  cases q with
  | pass m => exact h
  | block => exact ilvPermute_length d n c b

theorem Cut.arrange_inv_fwd (hcn : c ∣ n) {q : Cut} {b : List IlvItem} (h : b.length = q.length n) :
    q.arrange .inv n c (q.arrange .fwd n c b) = b := by
  cases q with
  | pass m => rfl
  | block => exact ilvPermute_inv_fwd hcn h

theorem Cut.mem_of_mem_arrange (hcn : c ∣ n) {q : Cut} {b : List IlvItem} (h : b.length = q.length n)
    {d : Dir} {v : IlvItem} (hv : v ∈ q.arrange d n c b) : v ∈ b := by
  cases q with
  | pass m => exact hv
  | block => exact mem_of_mem_ilvPermute hcn h d hv

/-- What cuts of the stream's length say, piece by piece. -/
theorem length_take_drop_of_cuts {q : Cut} {qs : List Cut} {vs : List IlvItem}
    (h : ((q :: qs).map (Cut.length n)).sum = vs.length) :
    (vs.take (q.length n)).length = q.length n
    ∧ (qs.map (Cut.length n)).sum = (vs.drop (q.length n)).length := by
  simp only [List.map_cons, List.sum_cons, List.length_take, List.length_drop] at h ⊢
  omega

theorem rearrange_inv_fwd (hcn : c ∣ n) {qs : List Cut} {vs : List IlvItem}
    (h : (qs.map (Cut.length n)).sum = vs.length) :
    rearrange .inv n c qs (rearrange .fwd n c qs vs) = vs := by
  induction qs generalizing vs with
  | nil => exact (List.length_eq_zero_iff.mp h.symm).symm
  | cons q qs ih =>
    obtain ⟨hpiece, hrest⟩ := length_take_drop_of_cuts h
    rw [rearrange_cons .fwd, rearrange_cons_append _ _ _ _ (Cut.arrange_length .fwd c hpiece),
      Cut.arrange_inv_fwd hcn hpiece, ih hrest, List.take_append_drop]

theorem mem_of_mem_rearrange (hcn : c ∣ n) {d : Dir} {qs : List Cut} {vs : List IlvItem}
    (h : (qs.map (Cut.length n)).sum = vs.length) {v : IlvItem} (hv : v ∈ rearrange d n c qs vs) :
    v ∈ vs := by
  induction qs generalizing vs with
  | nil => cases hv
  | cons q qs ih =>
    obtain ⟨hpiece, hrest⟩ := length_take_drop_of_cuts h
    rcases List.mem_append.mp hv with hv | hv
    · exact List.mem_of_mem_take (Cut.mem_of_mem_arrange hcn hpiece hv)
    · exact List.mem_of_mem_drop (ih hrest hv)

/-- An output item as the host presents it to the other direction (R160). -/
def OutItem.toInput (o : OutItem) : IlvItem × Tag := (o.data.setWidth 8, o.tag)

theorem toInput_itemData (v : IlvItem) : (itemData v).setWidth 8 = v := by
  rw [itemData_eq]
  exact BitVec.setWidth_setWidth_of_le v (by decide)

/-- The forward output presented again: the same tags, and the items rearranged at the cuts. -/
theorem run_fwd_toInput (items : List (IlvItem × Tag)) :
    ((IlvCtx.reset.run .fwd n c items).map OutItem.toInput).map Prod.snd = items.map Prod.snd
    ∧ ((IlvCtx.reset.run .fwd n c items).map OutItem.toInput).map Prod.fst
      = rearrange .fwd n c (cuts n 0 0 (items.map Prod.snd)) (items.map Prod.fst) := by
  constructor
  · rw [List.map_map]
    exact IlvCtx.run_tags .fwd n c items .reset fun _ => rfl
  · have hdata := congrArg (List.map (BitVec.setWidth 8)) (IlvCtx.run_data .fwd n c items .reset)
    simpa [Function.comp_def, OutItem.toInput, toInput_itemData, IlvCtx.reset] using hdata

/-- The inverse direction gets only items the forward one took. -/
theorem run_fwd_toInput_mem (hcn : c ∣ n) {items : List (IlvItem × Tag)} {p : IlvItem × Tag}
    (hp : p ∈ (IlvCtx.reset.run .fwd n c items).map OutItem.toInput) : p.1 ∈ items.map Prod.fst := by
  obtain ⟨-, hitems⟩ := run_fwd_toInput (n := n) (c := c) items
  have hmem := List.mem_map_of_mem (f := Prod.fst) hp
  rw [hitems] at hmem
  exact mem_of_mem_rearrange hcn (by simp [cuts_length]) hmem

/-- Output items are known by their stream, their tags and their items. -/
theorem outItems_eq {src : Stream} {outs : List OutItem} {items : List (IlvItem × Tag)}
    (hsrc : ∀ o ∈ outs, o.src = src) (htag : outs.map OutItem.tag = items.map Prod.snd)
    (hdata : outs.map OutItem.data = (items.map Prod.fst).map itemData) :
    outs = items.map (fun p => { src := src, tag := p.2, data := p.1.setWidth 48 }) := by
  induction outs generalizing items with
  | nil => simpa using htag
  | cons o outs ih =>
    cases items with
    | nil => cases htag
    | cons p ps =>
      simp only [List.map_cons, List.cons.injEq] at htag hdata ⊢
      obtain ⟨ho, houts⟩ := List.forall_mem_cons.mp hsrc
      obtain ⟨htag, htags⟩ := htag
      obtain ⟨hdata, hdatas⟩ := hdata
      exact ⟨by rw [← ho, ← htag, ← itemData_eq, ← hdata], ih houts htags hdatas⟩

/-- R160 item 3 on the contexts. -/
theorem run_inv_run_fwd (hcn : c ∣ n) (items : List (IlvItem × Tag)) :
    IlvCtx.reset.run .inv n c ((IlvCtx.reset.run .fwd n c items).map OutItem.toInput)
      = items.map (fun p => { src := .deinterleaved, tag := p.2, data := p.1.setWidth 48 }) := by
  obtain ⟨htags, hitems⟩ := run_fwd_toInput (n := n) (c := c) items
  refine outItems_eq (IlvCtx.run_src .inv n c _ _) ?_ ?_
  · rw [IlvCtx.run_tags .inv n c _ .reset fun _ => rfl, htags]
    rfl
  · rw [IlvCtx.run_data, htags, hitems]
    exact congrArg _ (rearrange_inv_fwd hcn (by simp [cuts_length, IlvCtx.reset]))

end RoundTrip

/-- Settles O39: the second run is the inverse context's on the first run's output, whose items are the
input's and so fit the width. -/
theorem ilvStreamRoundTrip : Obligations.IlvStreamRoundTrip := by
  intro s items hm hcheck hfwd hinv hitems
  have hcn := Ilv.cols_dvd_of_check hcheck
  have hctxFwd : s.ilv.ctx .fwd = .reset := hfwd
  have hctxInv : s.ilv.ctx .inv = .reset := hinv
  set outs := IlvCtx.reset.run .fwd s.ilv.n.toNat s.ilv.cols.toNat items with houts
  set t := s.putIlv .fwd (.reset, outs) with ht
  have hilv : t.ilv = s.ilv := by rw [ht, putIlv_ilv, ← hctxFwd, setCtx_ctx_self]
  have hfits : ∀ p ∈ outs.map OutItem.toInput, ¬ OverWide p.1 t.ilv.w := by
    intro p hp
    obtain ⟨q, hq, he⟩ := List.mem_map.mp (run_fwd_toInput_mem hcn hp)
    rw [hilv, ← he]
    exact (hitems q hq).1
  have hfirst := performAll_ilvItems .fwd items s hm fun p hp => (hitems p hp).1
  rw [hctxFwd, ← houts] at hfirst
  have hsecond := performAll_ilvItems .inv (outs.map OutItem.toInput) t (hilv ▸ hm) hfits
  rw [hilv, hctxInv, run_inv_run_fwd hcn, List.map_map] at hsecond
  refine ⟨t, _, outs, hfirst, rfl, hsecond, rfl, ?_⟩
  rw [putIlv_ilv, hilv, ← hctxInv, setCtx_ctx_self]

end Sys2Proof.Machine
end

section
/-! The proofs of the family 43_qam.md. A sample's group is the one with the sample's signs
(`qamGroup_eq_iff`), and each component of a symbol depends on one sign alone. So the laws of R186 are
proved of one component and put together: the one with the same sign is the nearer one, and an error
below QAM_AMP does not move a component across zero. -/

namespace Sys2Proof.Machine

/-! ### The operations (R182, R183, R184) -/

theorem exec_qamMap_of_running (v : BitVec 2) (tag : Tag) {s : State} (h : s.qam.mode = .running) :
    exec (.qamMap v tag) s = .next { s with out := s.out ++ [
      { src := .symbols, tag := tag, data := sampleData (qamSymbol v) }] } :=
  congrArg _ (framed_emit_of_running (u := .qam) _ h)

theorem exec_qamDemap_of_running (re im : Comp) (tag : Tag) {s : State} (h : s.qam.mode = .running) :
    exec (.qamDemap re im tag) s = .next { s with out := s.out ++ [
      { src := .groups, tag := tag, data := itemData (qamGroup { re := re, im := im }) }] } :=
  congrArg _ (framed_emit_of_running (u := .qam) _ h)

/-- The table of R181, entry by entry. -/
theorem sampleData_qamSymbol (v : BitVec 2) : sampleData (qamSymbol v) = qamTable.getD v.toNat 0 := by
  revert v
  decide

theorem qamNegative_iff (x : Comp) : qamNegative x = true ↔ x.toInt < 0 := decide_eq_true_iff

/-- The group of R183 as DATA: 2 for the sign of re, 1 for that of im. -/
theorem itemData_qamGroup (r : Sample) :
    itemData (qamGroup r) = (if r.re.toInt < 0 then 2 else 0) + (if r.im.toInt < 0 then 1 else 0) := by
  simp only [← qamNegative_iff, qamGroup_eq]
  cases qamNegative r.re <;> cases qamNegative r.im <;> decide

/-- Settles O32. -/
theorem qamMapFollowsTable : Obligations.QamMapFollowsTable := by
  refine ⟨fun v tag ht => ?_, fun v tag s h => ?_⟩
  · rw [← itemData_eq]
    exact decodeEncodeAgree (.qamMap v tag) ht
  · rw [exec_qamMap_of_running v tag h, sampleData_qamSymbol]

/-- Settles O33. -/
theorem qamDemapTakesSigns : Obligations.QamDemapTakesSigns := by
  refine ⟨fun re im tag ht => ?_, fun re im tag s h => ?_⟩
  · rw [← packSample_eq]
    exact decodeEncodeAgree (.qamDemap re im tag) ht
  · rw [exec_qamDemap_of_running re im tag h, itemData_qamGroup]

/-! ### One component of a symbol (R181) -/

theorem toInt_qamComp (neg : Bool) : (qamComp neg).toInt = if neg then -2965821 else 2965821 := by
  cases neg <;> decide

theorem toInt_qamComp_sq (neg : Bool) : (qamComp neg).toInt ^ 2 = 2965821 ^ 2 := by
  cases neg <;> simp [toInt_qamComp]

/-- An error below QAM_AMP leaves a component its sign. -/
theorem qamNegative_of_near {x : Comp} {neg : Bool} (h : |x.toInt - (qamComp neg).toInt| < 2965821) :
    qamNegative x = neg := by
  rw [toInt_qamComp, abs_lt] at h
  rw [Bool.eq_iff_iff, qamNegative_iff]
  cases neg <;> simp only [if_true, if_false, Bool.false_eq_true, iff_true, iff_false] at h ⊢ <;> omega

/-- Off zero, the component of the same sign is strictly nearer than the other. -/
theorem qamComp_nearer {x : Comp} (h0 : x ≠ 0) {neg : Bool} (h : neg ≠ qamNegative x) :
    (x.toInt - (qamComp (qamNegative x)).toInt) ^ 2 < (x.toInt - (qamComp neg).toInt) ^ 2 := by
  obtain rfl : neg = !qamNegative x := Bool.eq_not_of_ne h
  have hx : x.toInt ≠ 0 := fun hz => h0 (BitVec.eq_of_toInt_eq hz)
  by_cases hlt : x.toInt < 0
  · have hneg : qamNegative x = true := (qamNegative_iff x).mpr hlt
    simp only [hneg, toInt_qamComp, Bool.not_true, Bool.false_eq_true, if_true, if_false]
    linarith only [hlt]
  · have hneg : qamNegative x = false := eq_false_of_ne_true (mt (qamNegative_iff x).mp hlt)
    have hpos : 0 < x.toInt := by omega
    simp only [hneg, toInt_qamComp, Bool.not_false, Bool.false_eq_true, if_true, if_false]
    linarith only [hpos]

/-- Neither component is nearer than the one of the same sign. -/
theorem qamComp_nearest {x : Comp} (h0 : x ≠ 0) (neg : Bool) :
    (x.toInt - (qamComp (qamNegative x)).toInt) ^ 2 ≤ (x.toInt - (qamComp neg).toInt) ^ 2 := by
  by_cases h : neg = qamNegative x
  · rw [h]
  · exact (qamComp_nearer h0 h).le

/-! ### The group of a sample (R183) -/

theorem qamSigns_qamGroup (r : Sample) : qamSigns (qamGroup r) = (qamNegative r.re, qamNegative r.im) := by
  rw [qamGroup_eq]
  cases qamNegative r.re <;> cases qamNegative r.im <;> rfl

theorem qamSigns_injective : Function.Injective qamSigns := by
  unfold Function.Injective
  decide

/-- The group of a sample is the one with the sample's signs. -/
theorem qamGroup_eq_iff (r : Sample) (v : BitVec 2) :
    qamGroup r = v ↔ qamNegative r.re = (qamSigns v).1 ∧ qamNegative r.im = (qamSigns v).2 := by
  rw [← qamSigns_injective.eq_iff, qamSigns_qamGroup, Prod.ext_iff]

/-! ### The laws (R186) -/

/-- The constant modulus: both squares are QAM_AMP². -/
theorem qamSymbol_sq (v : BitVec 2) :
    (qamSymbol v).re.toInt ^ 2 + (qamSymbol v).im.toInt ^ 2 = 17592188408082 := by
  simp only [qamSymbol, toInt_qamComp_sq]
  norm_num

/-- The noise margin: neither component changes its sign. -/
theorem qamGroup_of_near {v : BitVec 2} {r : Sample} (hre : |r.re.toInt - (qamSymbol v).re.toInt| < 2965821)
    (him : |r.im.toInt - (qamSymbol v).im.toInt| < 2965821) : qamGroup r = v :=
  (qamGroup_eq_iff r v).mpr ⟨qamNegative_of_near hre, qamNegative_of_near him⟩

/-- The round trip: the noise margin with no noise. -/
theorem qamGroup_qamSymbol (v : BitVec 2) : qamGroup (qamSymbol v) = v :=
  qamGroup_of_near (by simp) (by simp)

/-- The sign rule is the nearest point: another group differs in a sign, and that component is farther. -/
theorem qamGroup_nearest {r : Sample} {v : BitVec 2} (hre : r.re ≠ 0) (him : r.im ≠ 0)
    (hv : v ≠ qamGroup r) :
    (r.re.toInt - (qamSymbol (qamGroup r)).re.toInt) ^ 2
        + (r.im.toInt - (qamSymbol (qamGroup r)).im.toInt) ^ 2
      < (r.re.toInt - (qamSymbol v).re.toInt) ^ 2 + (r.im.toInt - (qamSymbol v).im.toInt) ^ 2 := by
  simp only [qamSymbol, qamSigns_qamGroup]
  rw [ne_comm, Ne, qamGroup_eq_iff, not_and_or] at hv
  rcases hv with h | h
  · exact add_lt_add_of_lt_of_le (qamComp_nearer hre (Ne.symm h)) (qamComp_nearest him _)
  · exact add_lt_add_of_le_of_lt (qamComp_nearest hre _) (qamComp_nearer him (Ne.symm h))

/-- Settles O34. -/
theorem qamLaws : Obligations.QamLaws := by
  refine ⟨fun v => ?_, qamGroup_qamSymbol, fun _ _ => qamGroup_nearest, fun _ _ => qamGroup_of_near⟩
  simp only [qamSymbol_sq]
  decide

end Sys2Proof.Machine
end

section
/-! The proofs of the family 44_schmidl_cox.md about the metric (R203 to R208) and the angle (R229). P and R
are finite sums of one term per k (`metricP_re`, `metricP_im`, `metricR_eq`); what the gate compares is the
rational `metricValue`, so that its two tests are strict inequalities of a linear order. -/

namespace Sys2Proof.Machine

/-! ### The sums (R203, R209) -/

theorem metricP_eq (hist : List Sample) (L n : Nat) :
    metricP hist L n
      = { re := ∑ k ∈ Finset.range L, (conjMul (sampleAt hist (n + k)) (sampleAt hist (n + k + L))).re
          im := ∑ k ∈ Finset.range L, (conjMul (sampleAt hist (n + k)) (sampleAt hist (n + k + L))).im } := rfl

theorem metricP_re (hist : List Sample) (L n : Nat) :
    (metricP hist L n).re
      = ∑ k ∈ Finset.range L, (conjMul (sampleAt hist (n + k)) (sampleAt hist (n + k + L))).re := rfl

theorem metricP_im (hist : List Sample) (L n : Nat) :
    (metricP hist L n).im
      = ∑ k ∈ Finset.range L, (conjMul (sampleAt hist (n + k)) (sampleAt hist (n + k + L))).im := rfl

theorem metricR_eq (hist : List Sample) (L n : Nat) :
    metricR hist L n = ∑ k ∈ Finset.range L, sampleEnergy (sampleAt hist (n + k + L)) := rfl

theorem natCast_sampleEnergy (b : Sample) : (sampleEnergy b : Int) = b.re.toInt ^ 2 + b.im.toInt ^ 2 := by
  simp [sampleEnergy]

theorem natCast_normSq (p : Corr) : (p.normSq : Int) = p.re ^ 2 + p.im ^ 2 := by
  simp [Corr.normSq]

theorem natCast_metricR (hist : List Sample) (L n : Nat) :
    (metricR hist L n : Int) = ∑ k ∈ Finset.range L,
      ((sampleAt hist (n + k + L)).re.toInt ^ 2 + (sampleAt hist (n + k + L)).im.toInt ^ 2) := by
  simp only [metricR_eq, Nat.cast_sum, natCast_sampleEnergy]

/-- Settles O44. -/
theorem metricIsTheSums : Obligations.MetricIsTheSums :=
  fun _ _ _ => ⟨rfl, rfl, natCast_metricR _ _ _⟩

/-- A window moved by one: the newest term joins the sum and the oldest leaves it. -/
theorem sum_window_succ {M : Type} [AddCommMonoid M] (f : Nat → M) (L n : Nat) :
    ∑ k ∈ Finset.range L, f (n + 1 + k) + f n = ∑ k ∈ Finset.range L, f (n + k) + f (n + L) := by
  rw [← Finset.sum_range_succ (fun k => f (n + k)), Finset.sum_range_succ' (fun k => f (n + k))]
  simp only [add_zero, add_assoc, add_comm 1]

/-- Settles O45: the three sums of R203 are sums over the window n, ..., n + L - 1. -/
theorem slidingSumsAgree : Obligations.SlidingSumsAgree := by
  intro hist L n r
  have hre := sum_window_succ (fun j => (conjMul (r j) (r (j + L))).re) L n
  have him := sum_window_succ (fun j => (conjMul (r j) (r (j + L))).im) L n
  have hR := sum_window_succ (fun j => sampleEnergy (r (j + L))) L n
  simp only [two_mul, ← add_assoc]
  exact ⟨by rw [metricP_re, metricP_re]; linarith, by rw [metricP_im, metricP_im]; linarith, hR⟩

/-! ### Samples taken later (R202) -/

/-- A sample taken keeps its index. -/
theorem sampleAt_append {hist : List Sample} (more : List Sample) {j : Nat} (h : j < hist.length) :
    sampleAt (hist ++ more) j = sampleAt hist j :=
  List.getD_append _ _ _ _ h

/-- P at an index whose samples are all taken stays what it is. -/
theorem metricP_append {hist : List Sample} (more : List Sample) {L n : Nat}
    (h : n + 2 * L ≤ hist.length) : metricP (hist ++ more) L n = metricP hist L n := by
  have hterm : ∀ k ∈ List.range L,
      conjMul (sampleAt (hist ++ more) (n + k)) (sampleAt (hist ++ more) (n + k + L))
        = conjMul (sampleAt hist (n + k)) (sampleAt hist (n + k + L)) := by
    intro k hk
    have := List.mem_range.mp hk
    rw [sampleAt_append more (by omega), sampleAt_append more (by omega)]
  unfold metricP
  congr 2 <;> exact List.map_congr_left fun k hk => by rw [hterm k hk]

/-- R at an index whose samples are all taken stays what it is. -/
theorem metricR_append {hist : List Sample} (more : List Sample) {L n : Nat}
    (h : n + 2 * L ≤ hist.length) : metricR (hist ++ more) L n = metricR hist L n := by
  unfold metricR
  congr 1
  refine List.map_congr_left fun k hk => ?_
  have := List.mem_range.mp hk
  rw [sampleAt_append more (by omega)]

/-! ### Widths (R207) -/

theorem abs_comp_le (x : Comp) : |x.toInt| ≤ 2 ^ 23 := by
  have := x.le_toInt
  have := x.toInt_lt
  rw [abs_le]
  omega

theorem abs_comp_mul_le (x y : Comp) : |x.toInt * y.toInt| ≤ 2 ^ 46 := by
  rw [abs_mul]
  exact (mul_le_mul (abs_comp_le x) (abs_comp_le y) (abs_nonneg _) (by norm_num)).trans (by norm_num)

theorem abs_conjMul_re_le (a b : Sample) : |(conjMul a b).re| ≤ 2 ^ 47 :=
  calc |(conjMul a b).re| ≤ |a.re.toInt * b.re.toInt| + |a.im.toInt * b.im.toInt| := abs_add_le _ _
    _ ≤ 2 ^ 46 + 2 ^ 46 := add_le_add (abs_comp_mul_le _ _) (abs_comp_mul_le _ _)

theorem abs_conjMul_im_le (a b : Sample) : |(conjMul a b).im| ≤ 2 ^ 47 :=
  calc |(conjMul a b).im| ≤ |a.re.toInt * b.im.toInt| + |a.im.toInt * b.re.toInt| := abs_sub _ _
    _ ≤ 2 ^ 46 + 2 ^ 46 := add_le_add (abs_comp_mul_le _ _) (abs_comp_mul_le _ _)

theorem sampleEnergy_le (b : Sample) : sampleEnergy b ≤ 2 ^ 47 := by
  have hre := abs_comp_mul_le b.re b.re
  have him := abs_comp_mul_le b.im b.im
  rw [abs_mul_self, ← sq] at hre him
  have := natCast_sampleEnergy b
  omega

/-- A sum of at most 2048 terms of magnitude at most 2^47. -/
theorem abs_sum_range_le {L : Nat} (hL : L ≤ 2048) (f : Nat → Int) (hf : ∀ k, |f k| ≤ 2 ^ 47) :
    |∑ k ∈ Finset.range L, f k| ≤ 2 ^ 58 := by
  have hsum : ∑ k ∈ Finset.range L, |f k| ≤ L • (2 ^ 47 : Int) := by
    simpa using Finset.sum_le_card_nsmul (Finset.range L) (fun k => |f k|) _ (fun k _ => hf k)
  have habs := Finset.abs_sum_le_sum_abs f (Finset.range L)
  simp only [nsmul_eq_mul] at hsum
  omega

theorem abs_metricP_re_le (hist : List Sample) {L : Nat} (n : Nat) (hL : L ≤ 2048) :
    |(metricP hist L n).re| ≤ 2 ^ 58 :=
  abs_sum_range_le hL _ fun _ => abs_conjMul_re_le _ _

theorem abs_metricP_im_le (hist : List Sample) {L : Nat} (n : Nat) (hL : L ≤ 2048) :
    |(metricP hist L n).im| ≤ 2 ^ 58 :=
  abs_sum_range_le hL _ fun _ => abs_conjMul_im_le _ _

theorem metricR_le (hist : List Sample) {L : Nat} (n : Nat) (hL : L ≤ 2048) :
    metricR hist L n ≤ 2 ^ 58 := by
  have h := abs_sum_range_le hL (fun k => (sampleEnergy (sampleAt hist (n + k + L)) : Int))
    (fun k => by simpa using Int.ofNat_le.mpr (sampleEnergy_le (sampleAt hist (n + k + L))))
  rw [← Nat.cast_sum, ← metricR_eq, Nat.abs_cast] at h
  exact_mod_cast h

theorem normSq_le {p : Corr} (hre : |p.re| ≤ 2 ^ 58) (him : |p.im| ≤ 2 ^ 58) : p.normSq ≤ 2 ^ 117 := by
  have h : ∀ x : Int, |x| ≤ 2 ^ 58 → x.natAbs ^ 2 ≤ 2 ^ 116 := fun x hx =>
    (Nat.pow_le_pow_left (show x.natAbs ≤ 2 ^ 58 by rw [Int.abs_eq_natAbs] at hx; omega) 2).trans (by norm_num)
  have := h _ hre
  have := h _ him
  unfold Corr.normSq
  omega

/-- Settles O46. -/
theorem metricFitsWidths : Obligations.MetricFitsWidths := by
  refine ⟨fun a b => ⟨abs_conjMul_re_le a b, abs_conjMul_im_le a b, sampleEnergy_le b⟩, ?_⟩
  intro hist L n m t hL ht p r r'
  have hre : |p.re| ≤ 2 ^ 58 := abs_metricP_re_le hist n hL
  have him : |p.im| ≤ 2 ^ 58 := abs_metricP_im_le hist n hL
  have hr : r ≤ 2 ^ 58 := metricR_le hist n hL
  have hr' : r' ≤ 2 ^ 58 := metricR_le hist m hL
  have hp : p.normSq ≤ 2 ^ 117 := normSq_le hre him
  refine ⟨hre, him, hr, by omega, ?_, ?_⟩
  · exact (Nat.mul_le_mul (Nat.mul_le_mul ht hr) hr).trans_lt (by norm_num)
  · exact (Nat.mul_le_mul (Nat.mul_le_mul hp hr') hr').trans_lt (by norm_num)

/-! ### The comparisons (R204 to R206) -/

theorem exceeds_iff (p : Corr) (r : Nat) (t : Word32) :
    exceeds p r t = true ↔ t.toNat * r * r < p.normSq * 2 ^ 15 := decide_eq_true_iff

/-- M as a rational number (R204). -/
def metricValue (p : Corr) (r : Nat) : ℚ := ((p.re : ℚ) ^ 2 + (p.im : ℚ) ^ 2) / (r : ℚ) ^ 2

theorem ratCast_normSq (p : Corr) : (p.normSq : ℚ) = (p.re : ℚ) ^ 2 + (p.im : ℚ) ^ 2 := by
  exact_mod_cast congrArg (Int.cast : Int → ℚ) (natCast_normSq p)

theorem exceeds_iff_lt_metricValue (p : Corr) {r : Nat} (t : Word32) (hr : 0 < r) :
    exceeds p r t = true ↔ (t.toNat : ℚ) / 32768 < metricValue p r := by
  have hr2 : (0 : ℚ) < (r : ℚ) ^ 2 := by positivity
  rw [exceeds_iff, metricValue, div_lt_div_iff₀ (by norm_num) hr2, ← ratCast_normSq, mul_assoc, ← sq]
  exact_mod_cast Iff.rfl

theorem better_iff_metricValue_lt (p q : Corr) {r r' : Nat} (hr : 0 < r) (hr' : 0 < r') :
    better p r q r' = true ↔ metricValue q r' < metricValue p r := by
  have hr2 : (0 : ℚ) < (r : ℚ) ^ 2 := by positivity
  have hr2' : (0 : ℚ) < (r' : ℚ) ^ 2 := by positivity
  rw [better, decide_eq_true_iff, metricValue, metricValue, div_lt_div_iff₀ hr2' hr2, ← ratCast_normSq,
    ← ratCast_normSq, mul_assoc, mul_assoc, ← sq, ← sq]
  exact_mod_cast Iff.rfl

theorem better_eq_false_iff (p q : Corr) {r r' : Nat} (hr : 0 < r) (hr' : 0 < r') :
    better p r q r' = false ↔ metricValue p r ≤ metricValue q r' := by
  rw [← not_lt, ← better_iff_metricValue_lt p q hr hr', Bool.not_eq_true]

/-- Where each term of P is the second half's energy times a fixed pair (u, v), so is P (R208). -/
theorem metricP_eq_of_terms {hist : List Sample} {L n : Nat} (u v : Int)
    (h : ∀ k, k < L → conjMul (sampleAt hist (n + k)) (sampleAt hist (n + k + L))
      = { re := u * sampleEnergy (sampleAt hist (n + k + L)),
          im := v * sampleEnergy (sampleAt hist (n + k + L)) }) :
    metricP hist L n = { re := u * metricR hist L n, im := v * metricR hist L n } := by
  rw [metricP_eq, Corr.mk.injEq, metricR_eq, Nat.cast_sum, Finset.mul_sum, Finset.mul_sum]
  exact ⟨Finset.sum_congr rfl fun k hk => by rw [h k (Finset.mem_range.mp hk)],
    Finset.sum_congr rfl fun k hk => by rw [h k (Finset.mem_range.mp hk)]⟩

theorem conjMul_of_silent (a : Sample) {b : Sample} (h : sampleEnergy b = 0) :
    conjMul a b = { re := 0, im := 0 } := by
  obtain ⟨hre, him⟩ : b.re.toInt = 0 ∧ b.im.toInt = 0 := by simpa [sampleEnergy] using h
  simp [conjMul, hre, him]

/-- Silence in the second half window: no term of P is left (R205). -/
theorem metricP_of_silent {hist : List Sample} {L n : Nat} (h : metricR hist L n = 0) :
    metricP hist L n = { re := 0, im := 0 } := by
  have hsilent := h
  rw [metricR_eq, Finset.sum_eq_zero_iff] at hsilent
  have hP := metricP_eq_of_terms (hist := hist) (L := L) (n := n) 0 0 fun k hk => by
    rw [conjMul_of_silent _ (hsilent k (Finset.mem_range.mpr hk)), zero_mul]
  rw [hP, zero_mul]

theorem exceeds_silence (r : Nat) (t : Word32) : exceeds { re := 0, im := 0 } r t = false := by
  simp [exceeds, Corr.normSq]

/-- Where a threshold is exceeded, the second half window is not silent (R205). -/
theorem metricR_pos_of_exceeds {hist : List Sample} {L n : Nat} {t : Word32}
    (h : exceeds (metricP hist L n) (metricR hist L n) t = true) : 0 < metricR hist L n := by
  by_contra h0
  rw [metricP_of_silent (by omega), exceeds_silence] at h
  exact Bool.noConfusion h

/-- Settles O47. -/
theorem comparisonsDecideTheMetric : Obligations.ComparisonsDecideTheMetric :=
  ⟨fun p _ t hr => exceeds_iff_lt_metricValue p t hr, fun p q _ _ hr hr' => better_iff_metricValue_lt p q hr hr',
    fun _ _ _ t => ⟨fun h => ⟨metricP_of_silent h, by rw [metricP_of_silent h, exceeds_silence]⟩,
      metricR_pos_of_exceeds⟩⟩

/-! ### Rotated halves and the Cauchy-Schwarz bound (R208) -/

/-- A sample as a complex number (R16). -/
noncomputable def sampleComplex (a : Sample) : ℂ := ⟨a.re.toInt, a.im.toInt⟩

/-- A pair of integers as a complex number. -/
noncomputable def Corr.toComplex (p : Corr) : ℂ := ⟨p.re, p.im⟩

theorem toComplex_conjMul (a b : Sample) :
    (conjMul a b).toComplex = (starRingEnd ℂ) (sampleComplex a) * sampleComplex b := by
  apply Complex.ext <;> simp [conjMul, Corr.toComplex, sampleComplex]
  ring

theorem normSq_toComplex (p : Corr) : ‖p.toComplex‖ ^ 2 = (p.normSq : ℝ) := by
  have : (p.normSq : ℝ) = (p.re : ℝ) ^ 2 + (p.im : ℝ) ^ 2 := by exact_mod_cast natCast_normSq p
  rw [Complex.sq_norm, Complex.normSq_apply, this, sq, sq]
  rfl

theorem sq_norm_sampleComplex (a : Sample) : ‖sampleComplex a‖ ^ 2 = (sampleEnergy a : ℝ) :=
  normSq_toComplex { re := a.re.toInt, im := a.im.toInt }

theorem toComplex_metricP (hist : List Sample) (L n : Nat) :
    (metricP hist L n).toComplex = ∑ k ∈ Finset.range L,
      (starRingEnd ℂ) (sampleComplex (sampleAt hist (n + k))) * sampleComplex (sampleAt hist (n + k + L)) := by
  simp only [← toComplex_conjMul]
  apply Complex.ext
  · rw [Complex.re_sum]; exact (congrArg _ (metricP_re hist L n)).trans (Int.cast_sum _ _)
  · rw [Complex.im_sum]; exact (congrArg _ (metricP_im hist L n)).trans (Int.cast_sum _ _)

/-- |P|² is at most the product of the energies of the two half windows (R208 item 4). -/
theorem normSq_metricP_le (hist : List Sample) (L n : Nat) :
    (metricP hist L n).normSq
      ≤ (∑ k ∈ Finset.range L, sampleEnergy (sampleAt hist (n + k))) * metricR hist L n := by
  let a := fun k => ‖sampleComplex (sampleAt hist (n + k))‖
  let b := fun k => ‖sampleComplex (sampleAt hist (n + k + L))‖
  have hnorm : ‖(metricP hist L n).toComplex‖ ≤ ∑ k ∈ Finset.range L, a k * b k := by
    rw [toComplex_metricP]
    exact (norm_sum_le _ _).trans_eq (Finset.sum_congr rfl fun k _ => by simp [a, b])
  have hreal : ((metricP hist L n).normSq : ℝ)
      ≤ (∑ k ∈ Finset.range L, a k ^ 2) * ∑ k ∈ Finset.range L, b k ^ 2 :=
    calc ((metricP hist L n).normSq : ℝ) = ‖(metricP hist L n).toComplex‖ ^ 2 := (normSq_toComplex _).symm
      _ ≤ (∑ k ∈ Finset.range L, a k * b k) ^ 2 := pow_le_pow_left₀ (norm_nonneg _) hnorm 2
      _ ≤ _ := Finset.sum_mul_sq_le_sq_mul_sq _ a b
  simp only [a, b, sq_norm_sampleComplex] at hreal
  rw [metricR_eq]
  exact_mod_cast hreal

/-- A sample that is another one times u + v·i, a unit, gives a term of that direction (R208 item 3). -/
theorem conjMul_of_rotated {a b : Sample} {u v : Int} (huv : u ^ 2 + v ^ 2 = 1)
    (hre : b.re.toInt = u * a.re.toInt - v * a.im.toInt)
    (him : b.im.toInt = u * a.im.toInt + v * a.re.toInt) :
    conjMul a b = { re := u * sampleEnergy b, im := v * sampleEnergy b } := by
  have henergy : (sampleEnergy b : Int) = a.re.toInt ^ 2 + a.im.toInt ^ 2 := by
    rw [natCast_sampleEnergy, hre, him]
    linear_combination (a.re.toInt ^ 2 + a.im.toInt ^ 2) * huv
  rw [henergy, conjMul, hre, him, Corr.mk.injEq]
  constructor <;> ring

theorem metricP_of_rotated {hist : List Sample} {L n : Nat} (u v : Int) (huv : u ^ 2 + v ^ 2 = 1)
    (h : ∀ k, k < L →
      (sampleAt hist (n + k + L)).re.toInt
        = u * (sampleAt hist (n + k)).re.toInt - v * (sampleAt hist (n + k)).im.toInt
      ∧ (sampleAt hist (n + k + L)).im.toInt
        = u * (sampleAt hist (n + k)).im.toInt + v * (sampleAt hist (n + k)).re.toInt) :
    metricP hist L n = { re := u * metricR hist L n, im := v * metricR hist L n } :=
  metricP_eq_of_terms u v fun k hk => conjMul_of_rotated huv (h k hk).1 (h k hk).2

/-- Settles O48: the four rotations are those by 1, i, -1 and -i. -/
theorem metricOfRotatedHalves : Obligations.MetricOfRotatedHalves := by
  intro hist L n r p e first
  refine ⟨fun h => ?_, fun h => ?_, fun h => ?_, fun h => ?_, normSq_metricP_le hist L n⟩
  · exact (metricP_of_rotated 1 0 rfl fun k hk => by simpa using h k hk).trans (by simp [e])
  · exact (metricP_of_rotated 0 1 rfl fun k hk => by simpa using h k hk).trans (by simp [e])
  · exact (metricP_of_rotated (-1) 0 rfl fun k hk => by simpa using h k hk).trans (by simp [e])
  · exact (metricP_of_rotated 0 (-1) rfl fun k hk => by simpa using h k hk).trans (by simp [e])

/-! ### The angle (R229) -/

theorem atan2Axis_eq_none {y x : Int} (hy : y ≠ 0) (hx : x ≠ 0) : Config.atan2Axis y x = none := by
  simp [Config.atan2Axis, hy, hx]

/-- ATAN2Q is its free function everywhere: the contract fixes that one on the axes too. -/
theorem atan2Q_eq (y x : Int) : atan2Q y x = Config.atan2QFn.1 y x := by
  cases h : Config.atan2Axis y x with
  | none => exact atan2Q_of_none h
  | some v => rw [atan2Q_of_axis h, Config.atan2QFn_contract.exact y x v h]

theorem atan2Q_range (y x : Int) : -2 ^ 30 ≤ atan2Q y x ∧ atan2Q y x ≤ 2 ^ 30 := by
  rw [atan2Q_eq]
  exact Config.atan2QFn_contract.range y x

/-- Settles O49. -/
theorem angleMeetsContract : Obligations.AngleMeetsContract := by
  refine ⟨atan2Q_range, atan2Q_of_axis rfl, fun x hx => ?_, fun y hy => ?_, fun x hx => ?_, fun y hy => ?_,
    fun y x hy hx => ?_⟩
  · exact atan2Q_of_axis (by simp [Config.atan2Axis, hx.le])
  · exact atan2Q_of_axis (by simp [Config.atan2Axis, hy, hy.ne'])
  · exact atan2Q_of_axis (by simp [Config.atan2Axis, hx])
  · exact atan2Q_of_axis (by simp [Config.atan2Axis, hy.ne, hy.not_gt])
  · rw [atan2Q_eq]
    exact_mod_cast Config.atan2QFn_contract.offAxes y x (atan2Axis_eq_none hy hx)

end Sys2Proof.Machine
end

section
/-! The proofs of the family 44_schmidl_cox.md about one pass of the gate (R216 to R219, R221 to R227) and
about the frame's geometry (R201, R226): one equation for each case of a pass (the lemmas `Scg.pass_of_…`),
and what R224 does with a sample of a frame (`frameItem`, `ScgCfg.gateAt_eq`). -/

namespace Sys2Proof.Machine

/-! ### The registers of a RUNNING gate (R114, R201) -/

/-- What COMMIT has checked of SCG's registers. -/
structure ScgCfg.Legal (c : ScgCfg) : Prop where
  fftLen_pos : 0 < c.fftLen.toNat
  fftLen_le : c.fftLen.toNat ≤ 4096
  cpLen_pos : 0 < c.cpLen.toNat
  nsym_pos : 0 < c.nsym.toNat
  maxRun_pos : 0 < c.maxRun.toNat
  maxRun_le : c.maxRun.toNat ≤ c.fftLen.toNat

theorem ScgCfg.legal_of_check {c : ScgCfg} (h : c.check = .noError) : c.Legal := by
  rw [ScgCfg.check_eq] at h
  split_ifs at h
  constructor <;> omega

theorem LifeInv.scgLegal {s : State} (h : LifeInv s) (hm : s.scg.life.mode = .running) :
    s.scg.cfg.Legal := by
  obtain ⟨-, hcheck⟩ := LifeInv.running h (u := .scg) hm
  exact ScgCfg.legal_of_check hcheck

theorem ScgCfg.two_mul_half_le (c : ScgCfg) : 2 * c.half ≤ c.fftLen.toNat :=
  Nat.mul_div_le _ 2

/-- A frame has at least one symbol behind the preamble, and that symbol is longer than the preamble. -/
theorem ScgCfg.Legal.two_mul_fftLen_lt {c : ScgCfg} (h : c.Legal) :
    2 * c.fftLen.toNat < c.frameLen := by
  have hone : 1 * c.symLen ≤ c.nsym.toNat * c.symLen := Nat.mul_le_mul_right _ h.nsym_pos
  have := h.cpLen_pos
  unfold ScgCfg.frameLen
  unfold ScgCfg.symLen at hone ⊢
  omega

/-! ### The item of a frame's sample (R224, R227) -/

/-- What R224 emits for the sample `x` of index `e` in a frame that begins at `start`. -/
def frameItem (c : ScgCfg) (start e : Nat) (x : Sample) : Option OutItem :=
  (c.gateAt (e - start)).map fun first =>
    { src := .gated, tag := if first then some (BitVec.ofNat 32 e) else none, data := sampleData x }

/-- R224 and R225 as one equation: the item of index `e`, and where the gate goes next. -/
theorem Scg.emitStep_eq (g : Scg) :
    g.emitStep = (if g.run.e + 1 = g.run.start + g.cfg.frameLen then
        { g with run := { g.run with fsm := .searching, n := g.run.e + 1, e := g.run.e + 1 } }
      else { g with run := { g.run with e := g.run.e + 1 } },
      (frameItem g.cfg g.run.start g.run.e (sampleAt g.run.hist g.run.e)).toList) := by
  simp only [Scg.emitStep, frameItem]
  cases g.cfg.gateAt (g.run.e - g.run.start) <;> split <;> rfl

theorem Scg.emitStep_of_ne {g : Scg} (h : g.run.e + 1 ≠ g.run.start + g.cfg.frameLen) :
    g.emitStep = ({ g with run := { g.run with e := g.run.e + 1 } },
      (frameItem g.cfg g.run.start g.run.e (sampleAt g.run.hist g.run.e)).toList) := by
  rw [Scg.emitStep_eq, if_neg h]

theorem Scg.emitStep_of_last {g : Scg} (h : g.run.e + 1 = g.run.start + g.cfg.frameLen) :
    g.emitStep = ({ g with run := { g.run with fsm := .searching, n := g.run.e + 1, e := g.run.e + 1 } },
      (frameItem g.cfg g.run.start g.run.e (sampleAt g.run.hist g.run.e)).toList) := by
  rw [Scg.emitStep_eq, if_pos h]

/-- R224's `keep` and `first` for an offset. -/
theorem ScgCfg.gateAt_eq (c : ScgCfg) (off : Nat) :
    let q := (off - c.fftLen.toNat) % (c.cpLen.toNat + c.fftLen.toNat)
    c.gateAt off = if off < c.fftLen.toNat ∨ c.cpLen.toNat ≤ q then
      some (decide (off = 0 ∨ (c.fftLen.toNat ≤ off ∧ q = c.cpLen.toNat))) else none := by
  intro q
  have hq : (off - c.fftLen.toNat) % c.symLen = q := rfl
  simp only [ScgCfg.gateAt, hq]
  by_cases hoff : off < c.fftLen.toNat
  · simp [hoff, Nat.not_le.mpr hoff]
  by_cases hkeep : c.cpLen.toNat ≤ q
  · have hzero : off = 0 → q = c.cpLen.toNat := by
      rintro rfl
      have : q = 0 := by simp [q]
      omega
    simp [hoff, hkeep, Nat.not_lt.mp hoff, or_iff_right_of_imp hzero]
  · simp [hoff, hkeep]

/-- Inside the preamble every sample is kept, and the first one is marked. -/
theorem ScgCfg.gateAt_preamble {c : ScgCfg} {i : Nat} (hi : i < c.fftLen.toNat) :
    c.gateAt i = some (decide (i = 0)) := by
  simp [ScgCfg.gateAt, hi]

/-- Inside symbol `j` the offset beyond the symbol's start decides. -/
theorem ScgCfg.gateAt_symbol (c : ScgCfg) (j : Nat) {q : Nat} (hq : q < c.symLen) :
    c.gateAt (c.fftLen.toNat + j * c.symLen + q)
      = if c.cpLen.toNat ≤ q then some (decide (q = c.cpLen.toNat)) else none := by
  have hmod : (c.fftLen.toNat + j * c.symLen + q - c.fftLen.toNat) % c.symLen = q := by
    rw [Nat.add_assoc, Nat.add_sub_cancel_left, Nat.mul_add_mod', Nat.mod_eq_of_lt hq]
  have hoff : ¬ c.fftLen.toNat + j * c.symLen + q < c.fftLen.toNat := by omega
  simp only [ScgCfg.gateAt, hoff, hmod, if_false]

/-- The offset where block `j` begins: the preamble's, or that of a symbol's body (R226). -/
def ScgCfg.blockAt (c : ScgCfg) (j : Nat) : Nat :=
  if j = 0 then 0
  else c.fftLen.toNat + (j - 1) * (c.cpLen.toNat + c.fftLen.toNat) + c.cpLen.toNat

/-- The offsets of block `j`, the first one marked. -/
def ScgCfg.block (c : ScgCfg) (j : Nat) : List (Nat × Bool) :=
  (List.range c.fftLen.toNat).map fun i => (c.blockAt j + i, decide (i = 0))

/-- An offset with its mark, where R224 keeps it. -/
def ScgCfg.keptAt (c : ScgCfg) (o : Nat) : Option (Nat × Bool) := (c.gateAt o).map fun b => (o, b)

theorem ScgCfg.kept_preamble (c : ScgCfg) : (List.range c.fftLen.toNat).filterMap c.keptAt = c.block 0 := by
  rw [ScgCfg.block, ← List.filterMap_eq_map]
  refine List.filterMap_congr fun i hi => ?_
  simp [ScgCfg.keptAt, ScgCfg.gateAt_preamble (List.mem_range.mp hi), ScgCfg.blockAt]

/-- Of a symbol, R224 keeps the body. -/
theorem ScgCfg.kept_symbol (c : ScgCfg) (j : Nat) :
    ((List.range c.symLen).map (c.fftLen.toNat + j * c.symLen + ·)).filterMap c.keptAt
      = c.block (j + 1) := by
  have hcyclic : (List.range c.cpLen.toNat).filterMap
      (fun q => c.keptAt (c.fftLen.toNat + j * c.symLen + q)) = [] := by
    refine List.filterMap_eq_nil_iff.mpr fun q hq => ?_
    have hq := List.mem_range.mp hq
    simp [ScgCfg.keptAt, ScgCfg.gateAt_symbol c j (q := q) (by unfold ScgCfg.symLen; omega), hq]
  rw [List.filterMap_map, ScgCfg.symLen, List.range_add, List.filterMap_append]
  refine (congrArg₂ _ hcyclic ?_).trans (List.nil_append _)
  rw [List.filterMap_map, ScgCfg.block, ← List.filterMap_eq_map]
  refine List.filterMap_congr fun i hi => ?_
  have hi := List.mem_range.mp hi
  have hgate : c.gateAt (c.fftLen.toNat + j * c.symLen + (c.cpLen.toNat + i)) = some (decide (i = 0)) := by
    rw [ScgCfg.gateAt_symbol c j (by unfold ScgCfg.symLen; omega)]
    simp
  refine (congrArg (Option.map _) hgate).trans ?_
  simp [ScgCfg.blockAt, Nat.add_assoc]

theorem ScgCfg.kept_frame (c : ScgCfg) (S : Nat) :
    (List.range (c.fftLen.toNat + S * c.symLen)).filterMap c.keptAt
      = (List.range (S + 1)).flatMap c.block := by
  induction S with
  | zero => simpa using c.kept_preamble
  | succ S ih =>
    rw [Nat.succ_mul, ← Nat.add_assoc, List.range_add, List.filterMap_append, ih, c.kept_symbol S,
      List.range_succ (n := S + 1), List.flatMap_append]
    simp

/-- Settles O53, symbol after symbol. -/
theorem frameOffsetsKept : Obligations.FrameOffsetsKept :=
  fun c _ => c.kept_frame c.nsym.toNat

/-! ### One pass (R216 to R219, R224) -/

/-- The metric of the gate's index can be computed (R203). -/
abbrev Scg.Avail (g : Scg) : Prop := g.run.n + g.cfg.fftLen.toNat ≤ g.run.pos

/-- The run of a CANDIDATE goes on at the gate's index (R218). -/
abbrev Scg.GoesOn (g : Scg) : Prop :=
  exceeds (g.P g.run.n) (g.R g.run.n) g.cfg.tLow = true ∧ g.run.n - g.run.nFirst < g.cfg.maxRun.toNat

/-- On to the next index. -/
def Scg.nextIndex (g : Scg) : Scg := { g with run := { g.run with n := g.run.n + 1 } }

/-- The gate's index begins a run (R217). -/
def Scg.startRun (g : Scg) : Scg :=
  { g with run := { g.run with
    fsm := .candidate, nFirst := g.run.n, nBest := g.run.n, bP := g.P g.run.n, bR := g.R g.run.n
    n := g.run.n + 1 } }

/-- The gate's index is the run's new best (R218). -/
def Scg.newBest (g : Scg) : Scg :=
  { g with run := { g.run with
    nBest := g.run.n, bP := g.P g.run.n, bR := g.R g.run.n, n := g.run.n + 1 } }

/-- A run is given up, its end searched again (R219). -/
def Scg.giveUp (g : Scg) : Scg := { g with run := { g.run with fsm := .searching } }

theorem Scg.pass_of_not_avail {g : Scg} (hf : g.run.fsm ≠ .emitting) (h : ¬ g.Avail) : g.pass = none := by
  cases hs : g.run.fsm with
  | emitting => exact absurd hs hf
  | searching | candidate => simp only [Scg.pass, hs, Nat.lt_of_not_le h, if_true]

theorem Scg.pass_searching {g : Scg} (hf : g.run.fsm = .searching) (h : g.Avail) :
    g.pass = some (g.searchStep (g.P g.run.n) (g.R g.run.n), []) := by
  simp only [Scg.pass, hf, Nat.not_lt.mpr h, if_false]

theorem Scg.searchStep_of_exceeds {g : Scg}
    (h : exceeds (g.P g.run.n) (g.R g.run.n) g.cfg.tLow = true) :
    g.searchStep (g.P g.run.n) (g.R g.run.n) = g.startRun := if_pos h

theorem Scg.searchStep_of_not_exceeds {g : Scg}
    (h : exceeds (g.P g.run.n) (g.R g.run.n) g.cfg.tLow = false) :
    g.searchStep (g.P g.run.n) (g.R g.run.n) = g.nextIndex := if_neg (by simp [h])

theorem Scg.pass_candidate {g : Scg} (hf : g.run.fsm = .candidate) (h : g.Avail) :
    g.pass = some (g.candidateStep (g.P g.run.n) (g.R g.run.n)) := by
  simp only [Scg.pass, hf, Nat.not_lt.mpr h, if_false]

theorem Scg.pass_of_best {g : Scg} (hf : g.run.fsm = .candidate) (h : g.Avail) (hgo : g.GoesOn)
    (hb : better (g.P g.run.n) (g.R g.run.n) g.run.bP g.run.bR = true) :
    g.pass = some (g.newBest, []) := by
  rw [Scg.pass_candidate hf h, Scg.candidateStep, if_pos hgo, if_pos hb]
  rfl

theorem Scg.pass_of_not_best {g : Scg} (hf : g.run.fsm = .candidate) (h : g.Avail) (hgo : g.GoesOn)
    (hb : better (g.P g.run.n) (g.R g.run.n) g.run.bP g.run.bR = false) :
    g.pass = some (g.nextIndex, []) := by
  rw [Scg.pass_candidate hf h, Scg.candidateStep, if_pos hgo, if_neg (by simp [hb])]
  rfl

theorem Scg.pass_of_givenUp {g : Scg} (hf : g.run.fsm = .candidate) (h : g.Avail) (hend : ¬ g.GoesOn)
    (hhigh : exceeds g.run.bP g.run.bR g.cfg.tHigh = false) : g.pass = some (g.giveUp, []) := by
  rw [Scg.pass_candidate hf h, Scg.candidateStep, if_neg hend, Scg.runEnd, if_neg (by simp [hhigh])]
  rfl

theorem Scg.pass_of_detected {g : Scg} (hf : g.run.fsm = .candidate) (h : g.Avail) (hend : ¬ g.GoesOn)
    (hhigh : exceeds g.run.bP g.run.bR g.cfg.tHigh = true) : g.pass = some g.detect := by
  rw [Scg.pass_candidate hf h, Scg.candidateStep, if_neg hend, Scg.runEnd, if_pos hhigh]

theorem Scg.pass_of_handled {g : Scg} (hf : g.run.fsm = .emitting) (h : g.run.pos ≤ g.run.e) :
    g.pass = none := by
  simp only [Scg.pass, hf, h, if_true]

theorem Scg.pass_emitting {g : Scg} (hf : g.run.fsm = .emitting) (h : g.run.e < g.run.pos) :
    g.pass = some g.emitStep := by
  simp only [Scg.pass, hf, Nat.not_le.mpr h, if_false]

/-- Settles O50. -/
theorem gateSearchesAndTracksRuns : Obligations.GateSearchesAndTracksRuns := by
  refine fun g => ⟨Scg.pass_of_not_avail, fun hf h hlow => ?_, fun hf h hlow => ?_, Scg.pass_of_best,
    Scg.pass_of_not_best, Scg.pass_of_givenUp⟩
  · rw [Scg.pass_searching hf h, Scg.searchStep_of_exceeds hlow]
    rfl
  · rw [Scg.pass_searching hf h, Scg.searchStep_of_not_exceeds hlow]
    rfl

/-- Settles O51. -/
theorem gateDetectionWritesResults : Obligations.GateDetectionWritesResults := by
  intro g hf h hend hhigh b cfo
  rw [Scg.pass_of_detected hf h hend hhigh, Scg.detect, cfoData, place_zero]

/-- The items of a frame's sample with R224's conditions written out. -/
theorem frameItem_toList (c : ScgCfg) (start e : Nat) (x : Sample) :
    let off := e - start
    let q := (off - c.fftLen.toNat) % (c.cpLen.toNat + c.fftLen.toNat)
    (frameItem c start e x).toList
      = if off < c.fftLen.toNat ∨ c.cpLen.toNat ≤ q then
          [{ src := .gated
             tag := if off = 0 ∨ (c.fftLen.toNat ≤ off ∧ q = c.cpLen.toNat) then some (BitVec.ofNat 32 e)
               else none
             data := x.im ++ x.re }]
        else [] := by
  intro off q
  rw [frameItem, ScgCfg.gateAt_eq, sampleData, packSample_eq]
  split <;> simp [off, q, *]

/-- Settles O52. -/
theorem gateEmitsFrameSamples : Obligations.GateEmitsFrameSamples := by
  intro g hf e f cp off q keep first r items
  have hitems : (frameItem g.cfg g.run.start e r).toList = items := frameItem_toList _ _ _ _
  refine ⟨Scg.pass_of_handled hf, fun he hlast => ?_, fun he hlast => ?_⟩
  · rw [Scg.pass_emitting hf he, Scg.emitStep_of_ne hlast, ← hitems]
    rfl
  · rw [Scg.pass_emitting hf he, Scg.emitStep_of_last hlast, ← hitems]
    rfl

/-- Settles O55. -/
theorem scgFlushRule : Obligations.ScgFlushRule :=
  ⟨by decide, fun _ hm => congrArg _ (framed_of_running (u := .scg) hm)⟩

end Sys2Proof.Machine
end

section
/-! The proofs of the family 44_schmidl_cox.md about one transaction (R215, R216, R220). Before an SCG_PUSH
every sample taken has been handled (`Scg.Handled`), so the loop makes a few passes, and only a detection
handles more than one sample. What one push does is said once, case by case (`Scg.PushEffect`). -/

namespace Sys2Proof.Machine

/-! ### What has been handled (R220) -/

/-- The run of a CANDIDATE as R218 keeps it: which indices it holds, and which of them is its best. -/
structure Scg.RunOk (g : Scg) : Prop where
  first_le : g.run.nFirst ≤ g.run.nBest
  best_lt : g.run.nBest < g.run.n
  length_le : g.run.n - g.run.nFirst ≤ g.cfg.maxRun.toNat
  bP_eq : g.run.bP = g.P g.run.nBest
  bR_eq : g.run.bR = g.R g.run.nBest
  low : ∀ m, g.run.nFirst ≤ m → m < g.run.n → exceeds (g.P m) (g.R m) g.cfg.tLow = true
  not_better : ∀ m, g.run.nFirst ≤ m → m < g.run.n → better (g.P m) (g.R m) g.run.bP g.run.bR = false
  earliest : ∀ m, g.run.nFirst ≤ m → m < g.run.nBest → better g.run.bP g.run.bR (g.P m) (g.R m) = true

/-- All that the samples below index `p` make possible has been done (R220). -/
structure Scg.Handled (g : Scg) (p : Nat) : Prop where
  searching : g.run.fsm = .searching → p < g.run.n + g.cfg.fftLen.toNat
  candidate : g.run.fsm = .candidate → g.run.n + g.cfg.fftLen.toNat = p + 1 ∧ g.RunOk
  emitting : g.run.fsm = .emitting →
    g.run.start ≤ g.run.e ∧ g.run.e = p ∧ p < g.run.start + g.cfg.frameLen

theorem Scg.RunOk.R_pos {g : Scg} (h : g.RunOk) {m : Nat} (hf : g.run.nFirst ≤ m) (hm : m < g.run.n) :
    0 < g.R m :=
  metricR_pos_of_exceeds (h.low m hf hm)

theorem Scg.RunOk.bR_pos {g : Scg} (h : g.RunOk) : 0 < g.run.bR :=
  h.bR_eq ▸ h.R_pos h.first_le h.best_lt

/-- R220's invariants say that all samples taken have been handled. -/
theorem scgOk_iff (g : Scg) : ScgOk g ↔ g.run.hist.length = g.run.pos ∧ g.Handled g.run.pos := by
  constructor
  · rintro ⟨hlen, hmetric, hcand, hemit⟩
    refine ⟨hlen, fun hf => hmetric (by simp [hf]), fun hf => ?_, hemit⟩
    obtain ⟨hfirst, hbest, hmax, hn, -, hP, hR, -, hrun⟩ := hcand hf
    refine ⟨hn, hfirst, hbest, hmax, hP, hR, fun m hm hlt => ?_, fun m hm hlt => ?_, fun m hm hlt => ?_⟩
    · obtain ⟨hlow, -, -⟩ := hrun m hlt hm
      exact hlow
    · obtain ⟨-, hnot, -⟩ := hrun m hlt hm
      exact hnot
    · obtain ⟨-, -, hearliest⟩ := hrun m (hlt.trans hbest) hm
      exact hearliest hlt
  · rintro ⟨hlen, hsearch, hcand, hemit⟩
    refine ⟨hlen, fun hf => ?_, fun hf => ?_, hemit⟩
    · cases hs : g.run.fsm with
      | searching => exact hsearch hs
      | candidate => obtain ⟨hn, -⟩ := hcand hs; omega
      | emitting => exact absurd hs hf
    · obtain ⟨hn, hrun⟩ := hcand hf
      have := hrun.first_le
      have := hrun.length_le
      exact ⟨hrun.first_le, hrun.best_lt, hrun.length_le, hn, by omega, hrun.bP_eq, hrun.bR_eq, hrun.bR_pos,
        fun m hlt hm => ⟨hrun.low m hm hlt, hrun.not_better m hm hlt, hrun.earliest m hm⟩⟩

theorem Scg.handled_of_searching {g : Scg} {p : Nat} (hf : g.run.fsm = .searching)
    (hn : p < g.run.n + g.cfg.fftLen.toNat) : g.Handled p where
  searching _ := hn
  candidate h := Fsm.noConfusion (hf.symm.trans h)
  emitting h := Fsm.noConfusion (hf.symm.trans h)

theorem Scg.handled_of_candidate {g : Scg} {p : Nat} (hf : g.run.fsm = .candidate)
    (hn : g.run.n + g.cfg.fftLen.toNat = p + 1) (hrun : g.RunOk) : g.Handled p where
  searching h := Fsm.noConfusion (hf.symm.trans h)
  candidate _ := ⟨hn, hrun⟩
  emitting h := Fsm.noConfusion (hf.symm.trans h)

theorem Scg.handled_of_emitting {g : Scg} {p : Nat} (hf : g.run.fsm = .emitting)
    (hle : g.run.start ≤ g.run.e) (he : g.run.e = p) (hlt : p < g.run.start + g.cfg.frameLen) :
    g.Handled p where
  searching h := Fsm.noConfusion (hf.symm.trans h)
  candidate h := Fsm.noConfusion (hf.symm.trans h)
  emitting _ := ⟨hle, he, hlt⟩

/-- A gate that has handled its samples has no pass left to do. -/
theorem Scg.Handled.pass_eq_none {g : Scg} (h : g.Handled g.run.pos) : g.pass = none := by
  cases hf : g.run.fsm with
  | searching => exact Scg.pass_of_not_avail (by simp [hf]) (Nat.not_le.mpr (h.searching hf))
  | candidate =>
    obtain ⟨hn, -⟩ := h.candidate hf
    exact Scg.pass_of_not_avail (by simp [hf]) (by unfold Scg.Avail; omega)
  | emitting =>
    obtain ⟨-, he, -⟩ := h.emitting hf
    exact Scg.pass_of_handled hf he.ge

/-! ### The run grows (R217, R218) -/

theorem better_self (p : Corr) (r : Nat) : better p r p r = false := by
  simp [better]

/-- The gate's first candidate index is a run of one (R217). -/
theorem Scg.runOk_startRun {g : Scg} (hmax : 0 < g.cfg.maxRun.toNat)
    (hlow : exceeds (g.P g.run.n) (g.R g.run.n) g.cfg.tLow = true) : g.startRun.RunOk := by
  have hone : ∀ m, g.run.n ≤ m → m < g.run.n + 1 → m = g.run.n := fun m _ _ => by omega
  refine ⟨le_rfl, Nat.lt_succ_self _, ?_, rfl, rfl, fun m h1 h2 => ?_, fun m h1 h2 => ?_, fun m h1 h2 => ?_⟩
  · simp only [Scg.startRun]; omega
  · obtain rfl := hone m h1 h2
    exact hlow
  · obtain rfl := hone m h1 h2
    exact better_self _ _
  · exact absurd h2 (Nat.not_lt.mpr h1)

/-- A run that goes on with no better index keeps its best (R218). -/
theorem Scg.RunOk.nextIndex {g : Scg} (h : g.RunOk) (hgo : g.GoesOn)
    (hb : better (g.P g.run.n) (g.R g.run.n) g.run.bP g.run.bR = false) : g.nextIndex.RunOk := by
  obtain ⟨hlow, hlen⟩ := hgo
  refine ⟨h.first_le, Nat.lt_succ_of_lt h.best_lt, ?_, h.bP_eq, h.bR_eq, fun m h1 h2 => ?_,
    fun m h1 h2 => ?_, h.earliest⟩
  · simp only [Scg.nextIndex]; omega
  · rcases Nat.lt_succ_iff_lt_or_eq.mp h2 with hm | rfl
    · exact h.low m h1 hm
    · exact hlow
  · rcases Nat.lt_succ_iff_lt_or_eq.mp h2 with hm | rfl
    · exact h.not_better m h1 hm
    · exact hb

/-- A run that goes on with a better index has it as its best, above all before it (R218). -/
theorem Scg.RunOk.newBest {g : Scg} (h : g.RunOk) (hgo : g.GoesOn)
    (hb : better (g.P g.run.n) (g.R g.run.n) g.run.bP g.run.bR = true) : g.newBest.RunOk := by
  obtain ⟨hlow, hlen⟩ := hgo
  have hR : 0 < g.R g.run.n := metricR_pos_of_exceeds hlow
  have hbelow : ∀ m, g.run.nFirst ≤ m → m < g.run.n →
      metricValue (g.P m) (g.R m) < metricValue (g.P g.run.n) (g.R g.run.n) := fun m h1 h2 =>
    ((better_eq_false_iff _ _ (h.R_pos h1 h2) h.bR_pos).mp (h.not_better m h1 h2)).trans_lt
      ((better_iff_metricValue_lt _ _ hR h.bR_pos).mp hb)
  refine ⟨h.first_le.trans h.best_lt.le, Nat.lt_succ_self _, ?_, rfl, rfl, fun m h1 h2 => ?_,
    fun m h1 h2 => ?_, fun m h1 h2 => ?_⟩
  · simp only [Scg.newBest]; omega
  · rcases Nat.lt_succ_iff_lt_or_eq.mp h2 with hm | rfl
    · exact h.low m h1 hm
    · exact hlow
  · rcases Nat.lt_succ_iff_lt_or_eq.mp h2 with hm | rfl
    · exact (better_eq_false_iff _ _ (h.R_pos h1 hm) hR).mpr (hbelow m h1 hm).le
    · exact better_self _ _
  · exact (better_iff_metricValue_lt _ _ hR (h.R_pos h1 h2)).mpr (hbelow m h1 h2)

/-! ### A sample joins the history (R202, R215) -/

/-- The gate with a sample taken, before any pass. -/
def Scg.taken (g : Scg) (r : Sample) : Scg :=
  { g with run := { g.run with hist := g.run.hist ++ [r], pos := g.run.pos + 1 } }

theorem Scg.P_taken {g : Scg} (r : Sample) {m : Nat} (h : m + g.cfg.fftLen.toNat ≤ g.run.hist.length) :
    (g.taken r).P m = g.P m :=
  metricP_append (L := g.cfg.half) [r] (by have := g.cfg.two_mul_half_le; omega)

theorem Scg.R_taken {g : Scg} (r : Sample) {m : Nat} (h : m + g.cfg.fftLen.toNat ≤ g.run.hist.length) :
    (g.taken r).R m = g.R m :=
  metricR_append (L := g.cfg.half) [r] (by have := g.cfg.two_mul_half_le; omega)

/-- A sample taken changes no metric of the run. -/
theorem Scg.RunOk.taken {g : Scg} (h : g.RunOk) (r : Sample)
    (hn : g.run.n + g.cfg.fftLen.toNat ≤ g.run.hist.length + 1) : (g.taken r).RunOk := by
  have hP : ∀ m, m < g.run.n → (g.taken r).P m = g.P m := fun m hm => Scg.P_taken r (by omega)
  have hR : ∀ m, m < g.run.n → (g.taken r).R m = g.R m := fun m hm => Scg.R_taken r (by omega)
  refine ⟨h.first_le, h.best_lt, h.length_le, h.bP_eq.trans (hP _ h.best_lt).symm,
    h.bR_eq.trans (hR _ h.best_lt).symm, fun m h1 h2 => ?_, fun m h1 h2 => ?_, fun m h1 h2 => ?_⟩
  · rw [hP m h2, hR m h2]; exact h.low m h1 h2
  · rw [hP m h2, hR m h2]; exact h.not_better m h1 h2
  · rw [hP m (h2.trans h.best_lt), hR m (h2.trans h.best_lt)]; exact h.earliest m h1 h2

theorem Scg.Handled.taken {g : Scg} (hlen : g.run.hist.length = g.run.pos) (h : g.Handled g.run.pos)
    (r : Sample) : (g.taken r).Handled g.run.pos where
  searching := h.searching
  candidate hf := by
    obtain ⟨hn, hrun⟩ := h.candidate hf
    exact ⟨hn, hrun.taken r (by omega)⟩
  emitting := h.emitting

/-! ### What one SCG_PUSH does (R215, R216) -/

/-- What the gate has become by a detection, the samples of the frame that are there being handled (R221,
R224). -/
def Scg.detected (g : Scg) : Scg × List OutItem :=
  ({ g.detect.1 with run := { g.detect.1.run with e := g.run.pos } },
    g.detect.2 ++ (List.range' g.run.nBest (g.run.pos - g.run.nBest)).filterMap
      fun j => frameItem g.cfg g.run.nBest j (sampleAt g.run.hist j))

/-- All that `advance()` can do with a sample just taken. -/
inductive Scg.PushEffect (g : Scg) : Scg × List OutItem → Prop
  | waits (hf : g.run.fsm = .searching) (hav : ¬ g.Avail) : PushEffect g (g, [])
  | searches (hf : g.run.fsm = .searching) (hav : g.Avail) :
      PushEffect g (g.searchStep (g.P g.run.n) (g.R g.run.n), [])
  | findsBest (hf : g.run.fsm = .candidate) (hgo : g.GoesOn)
      (hb : better (g.P g.run.n) (g.R g.run.n) g.run.bP g.run.bR = true) : PushEffect g (g.newBest, [])
  | goesOn (hf : g.run.fsm = .candidate) (hgo : g.GoesOn)
      (hb : better (g.P g.run.n) (g.R g.run.n) g.run.bP g.run.bR = false) : PushEffect g (g.nextIndex, [])
  | givesUp (hf : g.run.fsm = .candidate) (hend : ¬ g.GoesOn)
      (hhigh : exceeds g.run.bP g.run.bR g.cfg.tHigh = false) :
      PushEffect g (g.giveUp.searchStep (g.P g.run.n) (g.R g.run.n), [])
  | detects (hf : g.run.fsm = .candidate) (hend : ¬ g.GoesOn)
      (hhigh : exceeds g.run.bP g.run.bR g.cfg.tHigh = true) : PushEffect g g.detected
  | emits (hf : g.run.fsm = .emitting) : PushEffect g g.emitStep

/-- A search step handles the newest sample: the next index has to wait for another one. -/
theorem Scg.handled_searchStep {g : Scg} {p : Nat} (hc : g.cfg.Legal) (hf : g.run.fsm = .searching)
    (hn : g.run.n + g.cfg.fftLen.toNat = p + 1) :
    (g.searchStep (g.P g.run.n) (g.R g.run.n)).Handled (p + 1) := by
  have hnext : g.run.n + 1 + g.cfg.fftLen.toNat = p + 1 + 1 := by omega
  cases hlow : exceeds (g.P g.run.n) (g.R g.run.n) g.cfg.tLow with
  | true =>
    rw [Scg.searchStep_of_exceeds hlow]
    exact Scg.handled_of_candidate rfl hnext (Scg.runOk_startRun hc.maxRun_pos hlow)
  | false =>
    rw [Scg.searchStep_of_not_exceeds hlow]
    exact Scg.handled_of_searching hf (hnext ▸ Nat.lt_succ_self _)

/-- A detecting run began so late that its frame has not ended. -/
theorem Scg.RunOk.lt_frame_end {g : Scg} (hc : g.cfg.Legal) (h : g.RunOk)
    (hn : g.run.n + g.cfg.fftLen.toNat = g.run.pos) :
    g.run.nBest ≤ g.run.pos ∧ g.run.pos < g.run.nBest + g.cfg.frameLen := by
  have := h.first_le
  have := h.best_lt
  have := h.length_le
  have := hc.maxRun_le
  have := hc.two_mul_fftLen_lt
  omega

/-- A sample of a frame is handled, whether it is the frame's last one or not (R224, R225). -/
theorem Scg.Handled.emitStep {g : Scg} {p : Nat} (h : g.Handled p) (hc : g.cfg.Legal)
    (hf : g.run.fsm = .emitting) : g.emitStep.1.Handled (p + 1) := by
  obtain ⟨hle, he, hlt⟩ := h.emitting hf
  have hnext : g.run.e + 1 = p + 1 := congrArg _ he
  by_cases hlast : g.run.e + 1 = g.run.start + g.cfg.frameLen
  · rw [Scg.emitStep_of_last hlast]
    exact Scg.handled_of_searching rfl (hnext ▸ Nat.lt_add_of_pos_right hc.fftLen_pos)
  · rw [Scg.emitStep_of_ne hlast]
    exact Scg.handled_of_emitting hf (Nat.le_succ_of_le hle) hnext (by simp only; omega)

/-- After a push the newest sample has been handled too. -/
theorem Scg.PushEffect.handled {g : Scg} {r : Scg × List OutItem} {p : Nat} (he : g.PushEffect r)
    (hc : g.cfg.Legal) (hpos : g.run.pos = p + 1) (h : g.Handled p) : r.1.Handled (p + 1) := by
  cases he with
  | waits hf hav => exact Scg.handled_of_searching hf (hpos ▸ Nat.lt_of_not_le hav)
  | searches hf hav =>
    have := h.searching hf
    exact Scg.handled_searchStep hc hf (by omega)
  | findsBest hf hgo hb =>
    obtain ⟨hn, hrun⟩ := h.candidate hf
    exact Scg.handled_of_candidate hf (by simp only [Scg.newBest]; omega) (hrun.newBest hgo hb)
  | goesOn hf hgo hb =>
    obtain ⟨hn, hrun⟩ := h.candidate hf
    exact Scg.handled_of_candidate hf (by simp only [Scg.nextIndex]; omega) (hrun.nextIndex hgo hb)
  | givesUp hf hend hhigh =>
    obtain ⟨hn, -⟩ := h.candidate hf
    exact Scg.handled_searchStep (g := g.giveUp) hc rfl hn
  | detects hf hend hhigh =>
    obtain ⟨hn, hrun⟩ := h.candidate hf
    obtain ⟨hle, hlt⟩ := hrun.lt_frame_end hc (by omega)
    exact Scg.handled_of_emitting rfl hle hpos (hpos ▸ hlt)
  | emits hf => exact h.emitStep hc hf

/-! ### The loop of passes -/

theorem Scg.advance_of_stop {g : Scg} (h : g.pass = none) (fuel : Nat) : g.advance fuel = (g, []) := by
  cases fuel with
  | zero => rfl
  | succ fuel => simp only [Scg.advance, h]

theorem Scg.advance_of_pass {g : Scg} {r : Scg × List OutItem} (h : g.pass = some r) (fuel : Nat) :
    g.advance (fuel + 1) = ((r.1.advance fuel).1, r.2 ++ (r.1.advance fuel).2) := by
  simp only [Scg.advance, h]

theorem Scg.advance_of_last_pass {g : Scg} {r : Scg × List OutItem} (h : g.pass = some r)
    (hstop : r.1.pass = none) (fuel : Nat) : g.advance (fuel + 1) = r := by
  rw [Scg.advance_of_pass h, Scg.advance_of_stop hstop, List.append_nil]

/-- `m` samples of an unfinished frame are there: the loop handles them one by one and stops. -/
theorem Scg.advance_emitting (m : Nat) {g : Scg} {fuel : Nat} (hf : g.run.fsm = .emitting)
    (hm : g.run.e + m = g.run.pos) (hlt : g.run.pos < g.run.start + g.cfg.frameLen) (hfuel : m ≤ fuel) :
    g.advance fuel = ({ g with run := { g.run with e := g.run.pos } },
      (List.range' g.run.e m).filterMap
        fun j => frameItem g.cfg g.run.start j (sampleAt g.run.hist j)) := by
  induction m generalizing g fuel with
  | zero =>
    rw [Scg.advance_of_stop (Scg.pass_of_handled hf hm.ge), ← hm]
    rfl
  | succ m ih =>
    obtain ⟨fuel, rfl⟩ := Nat.exists_eq_add_of_le' (show 1 ≤ fuel by omega)
    have hstep := Scg.emitStep_of_ne (g := g) (by omega)
    have hrest := ih (g := { g with run := { g.run with e := g.run.e + 1 } }) (fuel := fuel) hf
      (by simp only; omega) hlt (by omega)
    rw [Scg.advance_of_pass (Scg.pass_emitting hf (by omega)), hstep, hrest, List.range'_succ,
      List.filterMap_eq_flatMap_toList, List.filterMap_eq_flatMap_toList, List.flatMap_cons]

/-- A detection is followed by the samples of the frame that are there. -/
theorem Scg.advance_detected {g : Scg} (hc : g.cfg.Legal) (hf : g.run.fsm = .candidate) (hrun : g.RunOk)
    (hn : g.run.n + g.cfg.fftLen.toNat = g.run.pos) (hend : ¬ g.GoesOn)
    (hhigh : exceeds g.run.bP g.run.bR g.cfg.tHigh = true) {fuel : Nat} (hfuel : g.run.pos ≤ fuel) :
    g.advance (fuel + 1) = g.detected := by
  obtain ⟨hle, hlt⟩ := hrun.lt_frame_end hc hn
  have hframe := Scg.advance_emitting (g.run.pos - g.run.nBest) (g := g.detect.1) (fuel := fuel) rfl
    (Nat.add_sub_cancel' hle) hlt (by omega)
  rw [Scg.advance_of_pass (Scg.pass_of_detected hf hn.le hend hhigh), hframe]
  rfl

/-- The loop started with a sample just taken does one of these things. -/
theorem Scg.advance_effect {g : Scg} {p : Nat} (hc : g.cfg.Legal) (hpos : g.run.pos = p + 1)
    (h : g.Handled p) (fuel : Nat) (hfuel : g.run.pos ≤ fuel) : g.PushEffect (g.advance (fuel + 2)) := by
  have hstop : ∀ {r : Scg × List OutItem}, g.PushEffect r → r.1.run.pos = g.run.pos → r.1.pass = none :=
    fun he hs => Scg.Handled.pass_eq_none (by rw [hs, hpos]; exact he.handled hc hpos h)
  have hdone : ∀ {r : Scg × List OutItem}, g.PushEffect r → g.pass = some r →
      g.PushEffect (g.advance (fuel + 2)) := by
    intro r he hp
    rw [Scg.advance_of_last_pass hp (hstop he (Scg.pass_sameInput hp).pos)]
    exact he
  cases hf : g.run.fsm with
  | searching =>
    by_cases hav : g.Avail
    · exact hdone (.searches hf hav) (Scg.pass_searching hf hav)
    · rw [Scg.advance_of_stop (Scg.pass_of_not_avail (by simp [hf]) hav)]
      exact .waits hf hav
  | candidate =>
    obtain ⟨hn, hrun⟩ := h.candidate hf
    have hav : g.Avail := by unfold Scg.Avail; omega
    by_cases hgo : g.GoesOn
    · cases hb : better (g.P g.run.n) (g.R g.run.n) g.run.bP g.run.bR with
      | true => exact hdone (.findsBest hf hgo hb) (Scg.pass_of_best hf hav hgo hb)
      | false => exact hdone (.goesOn hf hgo hb) (Scg.pass_of_not_best hf hav hgo hb)
    · cases hhigh : exceeds g.run.bP g.run.bR g.cfg.tHigh with
      | true =>
        rw [Scg.advance_detected hc hf hrun (by omega) hgo hhigh (Nat.le_succ_of_le hfuel)]
        exact .detects hf hgo hhigh
      | false =>
        have hagain : g.giveUp.pass = _ := Scg.pass_searching rfl hav
        have heffect := PushEffect.givesUp hf hgo hhigh
        rw [Scg.advance_of_pass (Scg.pass_of_givenUp hf hav hgo hhigh),
          Scg.advance_of_last_pass hagain (hstop heffect (g.giveUp.searchStep_sameInput _ _).pos)]
        exact heffect
  | emitting =>
    obtain ⟨-, he, -⟩ := h.emitting hf
    exact hdone (.emits hf) (Scg.pass_emitting hf (by omega))

theorem Scg.push_eq_advance (g : Scg) (r : Sample) :
    g.push r = (g.taken r).advance (3 * (g.taken r).run.pos + 1 + 2) := rfl

/-- The bound on the passes (log 7) is enough for one of these things. -/
theorem Scg.push_effect {g : Scg} (hc : g.cfg.Legal) (hok : ScgOk g) (r : Sample) :
    (g.taken r).PushEffect (g.push r) := by
  obtain ⟨hlen, h⟩ := (scgOk_iff g).mp hok
  rw [Scg.push_eq_advance]
  exact Scg.advance_effect (g := g.taken r) (p := g.run.pos) hc rfl (h.taken hlen r) _ (by omega)

theorem Scg.push_sameInput (g : Scg) (r : Sample) : (g.taken r).SameInput (g.push r).1 :=
  Scg.advance_sameInput _ _

@[simp] theorem Scg.push_pos (g : Scg) (r : Sample) : (g.push r).1.run.pos = g.run.pos + 1 :=
  (g.push_sameInput r).pos

@[simp] theorem Scg.push_hist (g : Scg) (r : Sample) : (g.push r).1.run.hist = g.run.hist ++ [r] :=
  (g.push_sameInput r).hist

/-- A push keeps the gate in order. -/
theorem Scg.push_ok {g : Scg} (hc : g.cfg.Legal) (hok : ScgOk g) (r : Sample) : ScgOk (g.push r).1 := by
  obtain ⟨hlen, h⟩ := (scgOk_iff g).mp hok
  refine (scgOk_iff _).mpr ⟨by simp [hlen], ?_⟩
  rw [Scg.push_pos]
  exact (Scg.push_effect hc hok r).handled hc rfl (h.taken hlen r)

end Sys2Proof.Machine
end

section
/-! The proofs of the family 44_schmidl_cox.md about steps, detections and streams (R220 to R234), read off
the cases of one push (`Scg.push_effect`). -/

namespace Sys2Proof.Machine

/-! ### The gate's invariants in every step (R220) -/

/-- A gate that has taken no sample is in order. -/
theorem scgOk_of_empty {g : Scg} (hc : g.cfg.Legal) (hpos : g.run.pos = 0) (hhist : g.run.hist = [])
    (hf : g.run.fsm = .searching) : ScgOk g :=
  (scgOk_iff g).mpr ⟨by simp [hpos, hhist], Scg.handled_of_searching hf (by have := hc.fftLen_pos; omega)⟩

theorem SameUnit.scgInv {s t : State} (h : SameUnit s t .scg) (hi : ScgInv s) : ScgInv t := by
  have e : t.scg = s.scg := h
  simpa only [ScgInv, e] using hi

/-- Every operation keeps the gate in order. -/
theorem ExecEffect.scgInv {s t : State} {i : Instr} (hl : LifeInv s) (hi : ScgInv s)
    (he : ExecEffect s i t) : ScgInv t := by
  cases he with
  | refused _ c hc => exact (raise_sameUnit hc .scg).scgInv hi
  | wrote addr value r u t hw hm =>
    have hwrites := writeReg_writesRegisterOf hw
    by_cases hu : .scg = u
    · subst hu
      intro hrun
      have hlife : t.scg.life = s.scg.life := hwrites.life
      exact absurd (hlife ▸ hrun) (by simp [show s.scg.life.mode = .unconfigured from hm])
    · exact (hwrites.others .scg hu).scgInv hi
  | committed u hm hc =>
    by_cases hu : .scg = u
    · subst hu
      obtain ⟨-, hfresh⟩ := LifeInv.unconfigured hl hm
      obtain ⟨hrun, -⟩ : s.scg.Fresh := hfresh
      exact fun _ => scgOk_of_empty (ScgCfg.legal_of_check hc) (congrArg ScgRun.pos hrun)
        (congrArg ScgRun.hist hrun) (congrArg ScgRun.fsm hrun)
    · exact (setLife_sameUnit s u _ hu).scgInv hi
  | failed u hm hc =>
    by_cases hu : .scg = u
    · subst hu
      exact fun hrun => Mode.noConfusion hrun
    · exact (setLife_sameUnit s u _ hu).scgInv hi
  | reset => exact fun hrun => Mode.noConfusion hrun
  | emitted | ilvItem | ilvFlush | rpkItem | rpkFlush => exact hi
  | scgPush re im hm => exact fun _ => Scg.push_ok (hl.scgLegal hm) (hi hm) _
  | scgFlush hm => exact fun _ => scgOk_of_empty (g := s.scg.flush) (hl.scgLegal hm) rfl rfl rfl

/-- Settles O28, with the life cycle carried along: a push and a flush need legal registers, COMMIT its
fresh run state. -/
theorem gateKeptByStep : Obligations.GateKeptByStep := by
  intro s t hl hi hstep
  exact (step_keeps (P := fun s => LifeInv s ∧ ScgInv s) (fun _ _ => id)
    (fun _ _ _ ⟨hl, hi⟩ _ he => ⟨he.lifeInv hl, he.scgInv hl hi⟩) ⟨hl, hi⟩ hstep).2

/-! ### SCG_PUSH (R215) -/

theorem exec_scgPush_of_running (r : Sample) {s : State} (hm : s.scg.life.mode = .running) :
    exec (.scgPush r.re r.im) s
      = .next { s with scg := (s.scg.push r).1, out := s.out ++ (s.scg.push r).2 } :=
  congrArg _ (framed_of_running (u := .scg) hm)

theorem decode_scgPush (re im : Comp) :
    decode (packWord 0x40 false 0 (im ++ re)) = .ok (.scgPush re im) := by
  rw [← packSample_eq]
  exact decode_packWord_untagged (.scgPush re im) rfl

/-- A loop that has no pass left to do has run as R216 says. -/
theorem gateRuns_advance (fuel : Nat) {g : Scg} (h : (g.advance fuel).1.pass = none) :
    GateRuns g (g.advance fuel).2 (g.advance fuel).1 := by
  induction fuel generalizing g with
  | zero => exact .stop g h
  | succ fuel ih =>
    cases hp : g.pass with
    | none => rw [Scg.advance_of_stop hp]; exact .stop g hp
    | some r =>
      rw [Scg.advance_of_pass hp] at h ⊢
      exact .more g r.1 _ r.2 _ hp (ih h)

theorem gateRuns_push {g : Scg} (hc : g.cfg.Legal) (hok : ScgOk g) (r : Sample) :
    GateRuns (g.taken r) (g.push r).2 (g.push r).1 := by
  obtain ⟨-, hhandled⟩ := (scgOk_iff _).mp (Scg.push_ok hc hok r)
  exact gateRuns_advance _ hhandled.pass_eq_none

/-- Settles O54. -/
theorem scgPushRunsGateToItsStop : Obligations.ScgPushRunsGateToItsStop :=
  ⟨decode_scgPush, fun re im _ hl hi hm =>
    ⟨_, _, gateRuns_push (hl.scgLegal hm) (hi hm) ⟨re, im⟩, exec_scgPush_of_running ⟨re, im⟩ hm⟩⟩

/-! ### Detection (R221, R222, R234) -/

/-- Only a detection writes the result registers. -/
theorem Scg.PushEffect.detects_of_res_ne {g : Scg} {r : Scg × List OutItem} (he : g.PushEffect r)
    (h : r.1.res ≠ g.res) : g.run.fsm = .candidate ∧ ¬ g.GoesOn
      ∧ exceeds g.run.bP g.run.bR g.cfg.tHigh = true ∧ r = g.detected := by
  cases he with
  | waits | findsBest | goesOn => exact absurd rfl h
  | searches => exact absurd (g.searchStep_res _ _) h
  | givesUp => exact absurd (g.giveUp.searchStep_res _ _) h
  | emits => exact absurd g.emitStep_res h
  | detects hf hend hhigh => exact ⟨hf, hend, hhigh, rfl⟩

/-- A sum within R207's bound is read back from its register pair. -/
theorem toInt_ofInt_of_abs_le {x : Int} (h : |x| ≤ 2 ^ 58) : (BitVec.ofInt 64 x).toInt = x := by
  have := abs_le.mp h
  exact BitVec.toInt_ofInt_eq_self (by decide) (by omega) (by omega)

theorem toInt_ofInt_atan2Q (y x : Int) : (BitVec.ofInt 32 (atan2Q y x)).toInt = atan2Q y x := by
  have := atan2Q_range y x
  exact BitVec.toInt_ofInt_eq_self (by decide) (by omega) (by omega)

theorem ScgCfg.Legal.half_le {c : ScgCfg} (h : c.Legal) : c.half ≤ 2048 := by
  have := h.fftLen_le
  unfold ScgCfg.half
  omega

/-- A run that ends without going on holds SC_MAX_RUN indices, or its end does not exceed t_low (R219). -/
theorem Scg.RunOk.end_cases {g : Scg} (h : g.RunOk) (hend : ¬ g.GoesOn) :
    exceeds (g.P g.run.n) (g.R g.run.n) g.cfg.tLow = false
      ∨ g.run.n - g.run.nFirst = g.cfg.maxRun.toNat := by
  have hlen := h.length_le
  cases hlow : exceeds (g.P g.run.n) (g.R g.run.n) g.cfg.tLow with
  | false => exact .inl rfl
  | true => exact .inr (by by_contra hne; exact hend ⟨hlow, by omega⟩)

/-- The result registers of a detection hold the metric at the run's best index exactly (R207, R222). -/
theorem Scg.RunOk.detected_res {g : Scg} (hc : g.cfg.Legal) (h : g.RunOk) :
    g.detected.1.res.cfo.toInt = atan2Q (g.P g.run.nBest).im (g.P g.run.nBest).re
      ∧ g.detected.1.res.pRe.toInt = (g.P g.run.nBest).re
      ∧ g.detected.1.res.pIm.toInt = (g.P g.run.nBest).im
      ∧ g.detected.1.res.r.toNat = g.R g.run.nBest := by
  have hR : g.R g.run.nBest ≤ 2 ^ 58 := metricR_le _ _ hc.half_le
  rw [← h.bP_eq, ← h.bR_eq]
  refine ⟨toInt_ofInt_atan2Q _ _, toInt_ofInt_of_abs_le ?_, toInt_ofInt_of_abs_le ?_,
    (BitVec.toNat_ofNat _ _).trans (Nat.mod_eq_of_lt (by rw [h.bR_eq]; omega))⟩
  · rw [h.bP_eq]; exact abs_metricP_re_le _ _ hc.half_le
  · rw [h.bP_eq]; exact abs_metricP_im_le _ _ hc.half_le

/-- Settles O57: the run, its indices and its best are those the gate had, with the sample taken. -/
theorem detectionReportsEarliestBest : Obligations.DetectionReportsEarliestBest := by
  intro s t re im hl hi hm hexec hframes g h b
  have hc : g.cfg.Legal := hl.scgLegal hm
  obtain ⟨hlen, hhandled⟩ := (scgOk_iff g).mp (hi hm)
  have hh : h = (g.push ⟨re, im⟩).1 :=
    congrArg State.scg (Host.Outcome.next.inj ((exec_scgPush_of_running ⟨re, im⟩ hm).symm.trans hexec)).symm
  obtain ⟨hf, hend, hhigh, hpush⟩ := (Scg.push_effect hc (hi hm) ⟨re, im⟩).detects_of_res_ne
    fun e => hframes (congrArg ScgRes.frames (hh ▸ e : h.res = g.res))
  obtain ⟨-, hrun⟩ := (hhandled.taken hlen ⟨re, im⟩).candidate hf
  obtain ⟨hcfo, hpRe, hpIm, hr⟩ := hrun.detected_res (g := g.taken ⟨re, im⟩) hc
  rw [hpush] at hh
  clear_value h
  subst hh
  refine ⟨hf, rfl, hrun.first_le, hrun.best_lt, hrun.end_cases hend, ?_, fun m h1 h2 => ?_, rfl, rfl,
    hcfo, hpRe, hpIm, hr⟩
  · exact hrun.bP_eq ▸ hrun.bR_eq ▸ hhigh
  · have hnot := hrun.not_better m h1 h2
    have hearliest := hrun.earliest m h1
    rw [hrun.bP_eq, hrun.bR_eq] at hnot hearliest
    exact ⟨hrun.low m h1 h2, hnot, hearliest⟩

/-! ### Streams of samples -/

/-- A sequence of pushes, with all it emits. -/
def Scg.pushAll : List Sample → Scg → Scg × List OutItem
  | [], g => (g, [])
  | r :: rs, g => ((pushAll rs (g.push r).1).1, (g.push r).2 ++ (pushAll rs (g.push r).1).2)

theorem performAll_scgPushes (rs : List Sample) {s : State} (hm : s.scg.life.mode = .running) :
    performAll (rs.map fun r => .scgPush r.re r.im) s
      = some { s with scg := (s.scg.pushAll rs).1, out := s.out ++ (s.scg.pushAll rs).2 } := by
  induction rs generalizing s with
  | nil => simp [Scg.pushAll]
  | cons r rs ih =>
    rw [List.map_cons, performAll, exec_scgPush_of_running r hm]
    refine (ih (by simpa using hm)).trans ?_
    simp [Scg.pushAll]

/-- A push in a stream without a metric above t_high is silent (R233). -/
theorem Scg.PushEffect.silent {g : Scg} {r : Scg × List OutItem} (he : g.PushEffect r)
    (hf : g.run.fsm ≠ .emitting)
    (hhigh : g.run.fsm = .candidate → exceeds g.run.bP g.run.bR g.cfg.tHigh = false) :
    r.2 = [] ∧ r.1.res = g.res ∧ r.1.run.fsm ≠ .emitting := by
  have hsearch : ∀ k : Scg, k.run.fsm = .searching → ∀ p q,
      (k.searchStep p q).run.fsm ≠ .emitting := by
    intro k hk p q
    unfold Scg.searchStep
    split <;> simp [hk]
  cases he with
  | waits | findsBest | goesOn => exact ⟨rfl, rfl, hf⟩
  | searches hs => exact ⟨rfl, g.searchStep_res _ _, hsearch g hs _ _⟩
  | givesUp => exact ⟨rfl, g.giveUp.searchStep_res _ _, hsearch g.giveUp rfl _ _⟩
  | detects hs _ h => exact absurd h (by simp [hhigh hs])
  | emits hs => exact absurd hs hf

/-- A stream in which no metric exceeds t_high, from its part already taken on (R233). -/
theorem Scg.pushAll_silent (rs : List Sample) {g : Scg} (hc : g.cfg.Legal) (hok : ScgOk g)
    (hf : g.run.fsm ≠ .emitting)
    (hsilent : ∀ m, m + g.cfg.fftLen.toNat ≤ (g.run.hist ++ rs).length →
      exceeds (metricP (g.run.hist ++ rs) g.cfg.half m) (metricR (g.run.hist ++ rs) g.cfg.half m)
        g.cfg.tHigh = false) :
    (g.pushAll rs).2 = [] ∧ (g.pushAll rs).1.res = g.res
      ∧ (g.pushAll rs).1.run.hist = g.run.hist ++ rs
      ∧ (g.pushAll rs).1.run.pos = g.run.pos + rs.length := by
  induction rs generalizing g with
  | nil => simp [Scg.pushAll]
  | cons r rs ih =>
    obtain ⟨hlen, hhandled⟩ := (scgOk_iff g).mp hok
    have hbest : g.run.fsm = .candidate → exceeds g.run.bP g.run.bR g.cfg.tHigh = false := by
      intro hcand
      obtain ⟨hn, hrun⟩ := hhandled.candidate hcand
      have := hrun.best_lt
      have := g.cfg.two_mul_half_le
      have hquiet := hsilent g.run.nBest (by rw [List.length_append]; omega)
      rwa [metricP_append _ (by omega), metricR_append _ (by omega), ← Scg.P, ← Scg.R, ← hrun.bP_eq,
        ← hrun.bR_eq] at hquiet
    obtain ⟨hout, hres, hfsm⟩ := (Scg.push_effect hc hok r).silent hf hbest
    obtain ⟨hout', hres', hhist', hpos'⟩ := ih (g := (g.push r).1) (by simpa using hc)
      (Scg.push_ok hc hok r) hfsm (by simpa using hsilent)
    refine ⟨?_, hres'.trans hres, hhist'.trans (by simp), hpos'.trans ?_⟩
    · rw [Scg.pushAll, hout, hout', List.nil_append]
    · simp only [Scg.push_pos, List.length_cons]; omega

/-- Settles O58. -/
theorem noPreambleNoOutput : Obligations.NoPreambleNoOutput := by
  intro s rs hl hm hpos hhist hf _ hsilent
  have hc := hl.scgLegal hm
  obtain ⟨hout, hres, hhist', hpos'⟩ := Scg.pushAll_silent rs hc (scgOk_of_empty hc hpos hhist hf)
    (by simp [hf]) (by simpa [hhist] using hsilent)
  exact ⟨_, performAll_scgPushes rs hm, by simp [hout], hres, rfl, by simpa [hhist] using hhist',
    by simpa [hpos] using hpos'⟩

/-! ### The samples that leave (R224 to R227, R231) -/

theorem of_mem_frameItem {c : ScgCfg} {start e : Nat} {x : Sample} {o : OutItem}
    (h : o ∈ frameItem c start e x) :
    o.data = x.im ++ x.re ∧ (o.tag = none ∨ o.tag = some (BitVec.ofNat 32 e)) := by
  obtain ⟨first, -, rfl⟩ := Option.map_eq_some_iff.mp h
  exact ⟨packSample_eq _ _, by cases first <;> simp⟩

/-- Every gated item of a push is the item of some sample taken. -/
theorem Scg.PushEffect.gated {g : Scg} {r : Scg × List OutItem} {p : Nat} (he : g.PushEffect r)
    (hpos : g.run.pos = p + 1) (h : g.Handled p) {o : OutItem} (ho : o ∈ r.2) (hsrc : o.src = .gated) :
    ∃ start j, j < g.run.pos ∧ o ∈ frameItem g.cfg start j (sampleAt g.run.hist j) := by
  cases he with
  | waits | searches | findsBest | goesOn | givesUp => exact absurd ho List.not_mem_nil
  | detects hf =>
    rcases List.mem_append.mp ho with hmeta | hframe
    · obtain rfl := List.mem_singleton.mp hmeta
      exact Stream.noConfusion hsrc
    · obtain ⟨j, hj, hitem⟩ := List.mem_filterMap.mp hframe
      have := List.mem_range'_1.mp hj
      exact ⟨g.run.nBest, j, by omega, hitem⟩
  | emits hf =>
    rw [Scg.emitStep_eq] at ho
    obtain ⟨-, hhandled, -⟩ := h.emitting hf
    exact ⟨g.run.start, g.run.e, by omega, Option.mem_toList.mp ho⟩

theorem getElem?_eq_sampleAt {hist : List Sample} {j : Nat} (h : j < hist.length) :
    hist[j]? = some (sampleAt hist j) := by
  rw [sampleAt, List.getD_eq_getElem _ _ h, List.getElem?_eq_getElem h]

/-- Settles O59. -/
theorem emittedSamplesAreInputSamples : Obligations.EmittedSamplesAreInputSamples := by
  intro s t re im hl hi hm hexec o ho hsrc
  obtain ⟨hlen, hhandled⟩ := (scgOk_iff _).mp (hi hm)
  obtain rfl := Host.Outcome.next.inj ((exec_scgPush_of_running ⟨re, im⟩ hm).symm.trans hexec)
  obtain ⟨start, j, hj, hitem⟩ := (Scg.push_effect (hl.scgLegal hm) (hi hm) ⟨re, im⟩).gated rfl
    (hhandled.taken hlen _) (by simpa using ho) hsrc
  obtain ⟨hdata, htag⟩ := of_mem_frameItem hitem
  have hhist : j < (s.scg.taken ⟨re, im⟩).run.hist.length := by
    simpa [Scg.taken, hlen] using hj
  exact ⟨j, _, (congrArg (·[j]?) (Scg.push_hist _ _)).trans (getElem?_eq_sampleAt hhist), hdata, htag⟩

/-! ### A frame that completes (R225, R226) -/

theorem Scg.PushEffect.eq_emitStep {g : Scg} {r : Scg × List OutItem} (he : g.PushEffect r)
    (hf : g.run.fsm = .emitting) : r = g.emitStep := by
  cases he with
  | emits => rfl
  | waits h | searches h | findsBest h | goesOn h | givesUp h | detects h =>
    exact absurd (h.symm.trans hf) Fsm.noConfusion

/-- While a frame is being emitted, the sample pushed is the next one of the frame. -/
theorem Scg.push_of_emitting {g : Scg} (hc : g.cfg.Legal) (hok : ScgOk g) (hf : g.run.fsm = .emitting)
    (r : Sample) :
    g.push r = (g.taken r).emitStep
      ∧ (g.taken r).emitStep.2 = (frameItem g.cfg g.run.start g.run.pos r).toList := by
  obtain ⟨hlen, hhandled⟩ := (scgOk_iff g).mp hok
  obtain ⟨-, he, -⟩ := hhandled.emitting hf
  have hnewest : sampleAt (g.taken r).run.hist (g.taken r).run.e = r := by
    simp [Scg.taken, sampleAt, he, ← hlen]
  refine ⟨(Scg.push_effect hc hok r).eq_emitStep hf, ?_⟩
  rw [Scg.emitStep_eq, hnewest, ← he]
  rfl

/-- The samples a frame lacks, pushed one after the other, complete it. -/
theorem Scg.pushAll_completes (rs : List Sample) {g : Scg} (hc : g.cfg.Legal) (hok : ScgOk g)
    (hf : g.run.fsm = .emitting) (hlack : g.run.pos + rs.length = g.run.start + g.cfg.frameLen) :
    (g.pushAll rs).2
        = (rs.zipIdx g.run.pos).filterMap (fun p => frameItem g.cfg g.run.start p.2 p.1)
      ∧ (g.pushAll rs).1.run.fsm = .searching
      ∧ (g.pushAll rs).1.run.n = g.run.start + g.cfg.frameLen
      ∧ (g.pushAll rs).1.run.pos = g.run.start + g.cfg.frameLen
      ∧ (g.pushAll rs).1.res = g.res := by
  induction rs generalizing g with
  | nil =>
    obtain ⟨-, hhandled⟩ := (scgOk_iff g).mp hok
    obtain ⟨-, -, hlt⟩ := hhandled.emitting hf
    exact absurd hlack (by simpa using hlt.ne)
  | cons r rs ih =>
    obtain ⟨-, hhandled⟩ := (scgOk_iff g).mp hok
    obtain ⟨-, he, -⟩ := hhandled.emitting hf
    obtain ⟨hpush, hitem⟩ := Scg.push_of_emitting hc hok hf r
    have hres : (g.push r).1.res = g.res := (congrArg (·.1.res) hpush).trans (Scg.emitStep_res _)
    rw [← hpush] at hitem
    rw [List.zipIdx_cons, List.filterMap_eq_flatMap_toList, List.flatMap_cons,
      ← List.filterMap_eq_flatMap_toList, ← hitem]
    rw [List.length_cons] at hlack
    by_cases hlast : g.run.e + 1 = g.run.start + g.cfg.frameLen
    · obtain rfl : rs = [] := List.length_eq_zero_iff.mp (by omega)
      have hend : (g.push r).1 = _ :=
        congrArg Prod.fst (hpush.trans (Scg.emitStep_of_last (g := g.taken r) hlast))
      exact ⟨rfl, congrArg (·.run.fsm) hend, (congrArg (·.run.n) hend).trans hlast,
        (Scg.push_pos g r).trans (by omega), hres⟩
    · have hon : (g.push r).1 = _ :=
        congrArg Prod.fst (hpush.trans (Scg.emitStep_of_ne (g := g.taken r) hlast))
      have hstart : (g.push r).1.run.start = g.run.start := congrArg (·.run.start) hon
      have hrest := ih (g := (g.push r).1) (by simpa using hc) (Scg.push_ok hc hok r)
        ((congrArg (·.run.fsm) hon).trans hf) (by simp only [Scg.push_pos, Scg.push_cfg, hstart]; omega)
      rw [Scg.push_pos, Scg.push_cfg, hstart] at hrest
      obtain ⟨hout, hfsm, hn, hpos, hres'⟩ := hrest
      exact ⟨congrArg _ hout, hfsm, hn, hpos, hres'.trans hres⟩

/-- Settles O60. -/
theorem frameCompletes : Obligations.FrameCompletes := by
  intro s rs hl hi hm hf hlack g
  obtain ⟨hout, hfsm, hn, hpos, hres⟩ := Scg.pushAll_completes rs (hl.scgLegal hm) (hi hm) hf hlack
  refine ⟨_, performAll_scgPushes rs hm, hfsm, hn, hpos.trans hn.symm, hres, congrArg (s.out ++ ·) ?_⟩
  rw [hout, List.zipIdx_eq_map_add, List.filterMap_map]
  refine List.filterMap_congr fun p _ => ?_
  simp only [Function.comp, frameItem, sampleData, packSample_eq]
  rfl

end Sys2Proof.Machine
end

section
/-! The proofs of the family 45_repack.md about one operation. R253's loop cuts a bit stream into groups in
the only way there is (`cutGroups_flatten_append`); what it emits and what it holds are read off that. -/

namespace Sys2Proof.Machine

/-! ### Cutting a bit stream (R251, R253) -/

/-- The groups of `gOut` bits cut from a bit stream, and the bits left over (R253's loop run to its end). -/
def regroup (gOut : Nat) (bits : List Bool) : List (List Bool) × List Bool :=
  cutGroups gOut bits.length bits

/-- Groups put end to end come apart as they were: a bit stream is cut in one way only. -/
theorem cutGroups_flatten_append {b : Nat} {groups : List (List Bool)} {rest : List Bool}
    (hgroups : ∀ l ∈ groups, l.length = b) (hrest : rest.length < b) {fuel : Nat}
    (hfuel : (groups.flatten ++ rest).length ≤ fuel) :
    cutGroups b fuel (groups.flatten ++ rest) = (groups, rest) := by
  induction groups generalizing fuel with
  | nil =>
    cases fuel with
    | zero => rfl
    | succ fuel => simp [cutGroups, hrest]
  | cons l groups ih =>
    obtain ⟨hl, hgroups⟩ := List.forall_mem_cons.mp hgroups
    simp only [List.flatten_cons, List.append_assoc, List.length_append] at hfuel ih ⊢
    cases fuel with
    | zero => omega
    | succ fuel =>
      have hcut : 0 < b ∧ b ≤ (l ++ (groups.flatten ++ rest)).length := by simp; omega
      rw [cutGroups, if_pos hcut, List.take_left' hl, List.drop_left' hl, ih hgroups (by omega)]

theorem regroup_flatten_append {b : Nat} {groups : List (List Bool)} {rest : List Bool}
    (hgroups : ∀ l ∈ groups, l.length = b) (hrest : rest.length < b) :
    regroup b (groups.flatten ++ rest) = (groups, rest) :=
  cutGroups_flatten_append hgroups hrest le_rfl

theorem regroup_flatten {b : Nat} (hb : 0 < b) {groups : List (List Bool)}
    (hgroups : ∀ l ∈ groups, l.length = b) : regroup b groups.flatten = (groups, []) := by
  simpa using regroup_flatten_append (rest := []) hgroups hb

section Regroup

variable {b : Nat} (hb : 0 < b) (bits : List Bool)
include hb

theorem regroup_spec :
    (regroup b bits).1.flatten ++ (regroup b bits).2 = bits
    ∧ (∀ l ∈ (regroup b bits).1, l.length = b) ∧ (regroup b bits).2.length < b :=
  cutGroups_spec b hb _ bits le_rfl

theorem regroup_flatten_length : (regroup b bits).1.flatten.length = (regroup b bits).1.length * b := by
  obtain ⟨-, hgroups, -⟩ := regroup_spec hb bits
  rw [List.length_flatten, List.map_congr_left hgroups, List.map_const', List.sum_const_nat]

/-- As many groups leave as the bits fill (R252). -/
theorem regroup_length : (regroup b bits).1.length = bits.length / b := by
  obtain ⟨hbits, -, hheld⟩ := regroup_spec hb bits
  have hlen := congrArg List.length hbits
  rw [List.length_append, regroup_flatten_length hb] at hlen
  exact ((Nat.div_eq_iff hb).mpr (by omega)).symm

/-- The groups hold the first bits in order, and what they leave is the rest. -/
theorem regroup_eq_take_drop :
    (regroup b bits).1.flatten = bits.take (bits.length / b * b)
    ∧ (regroup b bits).2 = bits.drop (bits.length / b * b) := by
  obtain ⟨hbits, -, -⟩ := regroup_spec hb bits
  have hlen : (regroup b bits).1.flatten.length = bits.length / b * b := by
    rw [regroup_flatten_length hb, regroup_length hb]
  have htake := List.take_left' (l₂ := (regroup b bits).2) hlen
  have hdrop := List.drop_left' (l₂ := (regroup b bits).2) hlen
  rw [hbits] at htake hdrop
  exact ⟨htake.symm, hdrop.symm⟩

/-- Bits that come later join what was left over (R253). -/
theorem regroup_append (more : List Bool) :
    regroup b (bits ++ more)
      = ((regroup b bits).1 ++ (regroup b ((regroup b bits).2 ++ more)).1,
        (regroup b ((regroup b bits).2 ++ more)).2) := by
  obtain ⟨hbits, hgroups, -⟩ := regroup_spec hb bits
  obtain ⟨hmore, hgroups', hheld⟩ := regroup_spec hb ((regroup b bits).2 ++ more)
  have hcut := regroup_flatten_append (List.forall_mem_append.mpr ⟨hgroups, hgroups'⟩) hheld
  rw [List.flatten_append, List.append_assoc, hmore, ← List.append_assoc, hbits] at hcut
  exact hcut

end Regroup

/-- Bit `i` of group `j` stands at `j * b + i` in the stream (R251). -/
theorem getD_flatten_append {b : Nat} {groups : List (List Bool)} (rest : List Bool)
    (hgroups : ∀ l ∈ groups, l.length = b) {j : Nat} (hj : j < groups.length) (i : Nat) :
    (groups.getD j []).getD i false
      = (decide (i < b) && (groups.flatten ++ rest).getD (j * b + i) false) := by
  induction groups generalizing j with
  | nil => cases hj
  | cons l groups ih =>
    obtain ⟨hl, hgroups⟩ := List.forall_mem_cons.mp hgroups
    rw [List.flatten_cons, List.append_assoc]
    cases j with
    | zero =>
      by_cases hi : i < b
      · simp [hi, List.getElem?_append, hl]
      · simp [hi, hl]
    | succ j =>
      have hidx : (j + 1) * b + i - l.length = j * b + i := by rw [hl, Nat.succ_mul]; omega
      rw [List.getD_cons_succ, ih hgroups (by simpa using hj),
        List.getD_append_right l _ _ _ (by rw [hl, Nat.succ_mul]; omega), hidx]

/-! ### Groups as bits and as DATA (R251, R81) -/

theorem groupData_nil : groupData [] = 0 := rfl

theorem groupData_toNat_lt (bits : List Bool) : (groupData bits).toNat < 2 ^ bits.length := by
  rw [groupData, itemData_eq, BitVec.toNat_setWidth]
  exact (Nat.mod_le _ _).trans_lt (BitVec.isLt _)

/-- The bits of a group's DATA are the group's. -/
theorem range_map_getLsbD_groupData {bits : List Bool} (h : bits.length ≤ 48) :
    (List.range bits.length).map (fun i => (groupData bits).getLsbD i) = bits := by
  apply List.ext_getElem
  · simp
  · intro i hi hi'
    simp [getLsbD_groupData bits i (by omega), hi']

/-- Bits of a repacker's output group (R253). -/
theorem getLsbD_regroup {b : Nat} (hb : 0 < b) (bits : List Bool) {j i : Nat} (hj : j < bits.length / b)
    (hi : i < 48) :
    (((regroup b bits).1.map groupData).getD j 0).getLsbD i
      = (decide (i < b) && bits.getD (j * b + i) false) := by
  obtain ⟨hbits, hgroups, -⟩ := regroup_spec hb bits
  rw [← groupData_nil, List.getD_map, getLsbD_groupData _ i hi,
    getD_flatten_append (regroup b bits).2 hgroups (by rwa [regroup_length hb]), hbits]

/-! ### The repacker's part of the state -/

/-- Put a repacker's new state and its output items into the state. -/
def State.putRpk (s : State) (k : RpkId) (r : Rpk × List OutItem) : State := (s.setRpk k r.1).emit r.2

@[simp] theorem putRpk_rpk_same (s : State) (k : RpkId) (r : Rpk × List OutItem) :
    (s.putRpk k r).rpk k = r.1 := setRpk_rpk_same s k r.1

theorem setRpk_putRpk (s : State) (k : RpkId) (x : Rpk) (r : Rpk × List OutItem) :
    (s.setRpk k x).putRpk k r = s.putRpk k r := by
  rw [State.putRpk, setRpk_setRpk, State.putRpk]

theorem putRpk_putRpk (s : State) (k : RpkId) (q r : Rpk × List OutItem) :
    (s.putRpk k q).putRpk k r = s.putRpk k (r.1, q.2 ++ r.2) := by
  simp [State.putRpk, State.emit, State.setRpk]

theorem exec_rpkItem_of_running (k : RpkId) {g : Group} (tag : Tag) {s : State}
    (hm : (s.rpk k).life.mode = .running) (hg : ¬ OverWide g (s.rpk k).gIn) :
    exec (rpkItem k g tag) s = .next (s.putRpk k ((s.rpk k).push (.repacked k) g tag)) := by
  have hw : tooWide g (s.rpk k).gIn = false := Bool.eq_false_iff.mpr (hg ∘ (tooWide_iff_overWide g _).mp)
  rw [exec_rpkItem, rpkPush, hw, framed_of_running (by exact hm)]
  rfl

/-! ### What RPKk_PUSH does to its repacker (R253) -/

/-- The groups a group completes, and the bits held then. -/
def Rpk.cut (g : Group) (x : Rpk) : List (List Bool) × List Bool :=
  regroup x.gOut.toNat (x.acc ++ groupBits g x.gIn.toNat)

theorem Rpk.count_of_last {x : Rpk} (h : x.rem = 1) : x.count = x.flush := by
  simp [Rpk.count, h]

theorem Rpk.count_of_not_last {x : Rpk} (h : x.rem ≠ 1) : x.count = { x with rem := remAfter x.rem } := by
  unfold Rpk.count remAfter
  split
  · next h0 => cases x; cases h0; rfl
  · rfl

section Push

variable (src : Stream) (g : Group) {x : Rpk}

/-- The packet's last group drops what is left over. -/
theorem Rpk.push_of_last (h : x.rem = 1) :
    x.push src g none = (x.flush, tagFirst src x.pend ((x.cut g).1.map groupData)) :=
  Prod.ext (Rpk.count_of_last (x := (x.take src g).1) h) rfl

/-- Any other group leaves it held. -/
theorem Rpk.push_of_not_last (h : x.rem ≠ 1) :
    x.push src g none
      = ({ x with
            acc := (x.cut g).2, rem := remAfter x.rem, pend := pendAfter x.pend ((x.cut g).1.map groupData) },
        tagFirst src x.pend ((x.cut g).1.map groupData)) :=
  Prod.ext (Rpk.count_of_not_last (x := (x.take src g).1) h) rfl

/-- A tag opens its packet; then the group is taken as one without a tag. -/
theorem Rpk.push_some (l : TagLen) (x : Rpk) :
    x.push src g (some l) = (x.openPacket (some l)).push src g none := rfl

end Push

/-- R252 and R255 with the modulus of TAGLEN as a number. -/
theorem Rpk.openPacket_some (l : TagLen) (x : Rpk) :
    x.openPacket (some l)
      = { x with
          acc := []
          rem := l
          pend := if (l.toNat * x.gIn.toNat / x.gOut.toNat) % 2 ^ 32 = 0 then none
                  else some (BitVec.ofNat 32 (l.toNat * x.gIn.toNat / x.gOut.toNat)) } := by
  have hzero : rpkConv x.gIn.toNat x.gOut.toNat l = 0
      ↔ (l.toNat * x.gIn.toNat / x.gOut.toNat) % 2 ^ 32 = 0 := by
    rw [← BitVec.toNat_inj]
    rfl
  simp only [Rpk.openPacket, hzero]
  rfl

/-- A tag is pending after an emission only where no item was there to carry it. -/
theorem pendAfter_eq_ite (pend : Tag) (items : List Data) :
    pendAfter pend items = if items.length ≠ 0 then none else pend := by
  cases items <;> rfl

/-- Settles O40: the packet's last group and any other, and a tag reduced to them. -/
theorem rpkPushRule : Obligations.RpkPushRule := by
  refine ⟨fun g tag htag => ?_, fun k g s hm hcheck hg => ?_⟩
  · rw [← itemData_eq]
    exact ⟨decodeEncodeAgree (.rpk0Push g tag) htag, decodeEncodeAgree (.rpk1Push g tag) htag,
      decodeEncodeAgree (.rpk2Push g tag) htag, decodeEncodeAgree (.rpk3Push g tag) htag⟩
  intro x a b bits m
  have hb : 0 < b := Rpk.gOut_pos_of_check hcheck
  have hlen : ((x.cut g).1.map groupData).length = m := by
    rw [List.length_map]
    exact regroup_length hb bits
  have hheld : (x.cut g).2 = bits.drop (m * b) := (regroup_eq_take_drop hb bits).2
  refine ⟨⟨(x.cut g).1.map groupData, hlen, fun j hj i hi => getLsbD_regroup hb bits hj hi, ?_⟩,
    fun l => ?_⟩
  · rw [exec_rpkItem_of_running k none hm hg, ← tagFirst_eq_firstTagged]
    by_cases hlast : x.rem = 1
    · rw [Rpk.push_of_last _ _ hlast]
      simp only [hlast, if_true, true_or]
      rfl
    · rw [Rpk.push_of_not_last _ _ hlast, pendAfter_eq_ite, hlen, hheld]
      simp only [hlast, if_false, false_or]
      rfl
  · rw [exec_rpkItem_of_running k (some l) hm hg, Rpk.push_some, Rpk.openPacket_some,
      exec_rpkItem_of_running k none (by simpa using hm) (by simpa using hg)]
    rw [setRpk_putRpk, setRpk_rpk_same]

/-- Settles O41. -/
theorem rpkFlushRule : Obligations.RpkFlushRule := by
  refine ⟨by decide, by decide, by decide, by decide, fun k s hm => ?_⟩
  rw [exec_rpkFlushOf, rpkFlush, framed_of_running (by exact hm)]
  rfl

end Sys2Proof.Machine
end

section
/-! Packets taken whole by one repacker, and sent on through a second (45_repack.md R256). -/

namespace Sys2Proof.Machine

/-! ### The groups of a packet -/

/-- What a repacker makes of groups that come without a tag. -/
def Rpk.pushAll (src : Stream) : List Group → Rpk → Rpk × List OutItem
  | [], x => (x, [])
  | g :: gs, x =>
    ((pushAll src gs (x.push src g none).1).1,
      (x.push src g none).2 ++ (pushAll src gs (x.push src g none).1).2)

/-- A RUNNING repacker performs them on its part of the state. -/
theorem performAll_rpkItems (k : RpkId) (gs : List Group) {s : State}
    (hm : (s.rpk k).life.mode = .running) (hgs : ∀ v ∈ gs, ¬ OverWide v (s.rpk k).gIn) :
    performAll (gs.map (fun v => rpkItem k v none)) s
      = some (s.putRpk k ((s.rpk k).pushAll (.repacked k) gs)) := by
  induction gs generalizing s with
  | nil => simp [Rpk.pushAll, State.putRpk, State.emit]
  | cons g gs ih =>
    obtain ⟨hg, hgs⟩ := List.forall_mem_cons.mp hgs
    rw [List.map_cons, performAll, exec_rpkItem_of_running k none hm hg]
    refine (ih (by simpa using hm) (by simpa using hgs)).trans ?_
    rw [putRpk_putRpk, putRpk_rpk_same]
    rfl

/-- One emission in two parts: the tag is on the first item of all (R253). -/
theorem tagFirst_append (src : Stream) (pend : Tag) (vs ws : List Data) :
    tagFirst src pend (vs ++ ws) = tagFirst src pend vs ++ tagFirst src (pendAfter pend vs) ws := by
  cases vs with
  | nil => rfl
  | cons v vs => simp [tagFirst_none]

/-- The bits a packet stands for (R251). -/
def packetBits (gIn : Nat) (gs : List Group) : List Bool := gs.flatMap (fun v => groupBits v gIn)

theorem packetBits_cons (gIn : Nat) (g : Group) (gs : List Group) :
    packetBits gIn (g :: gs) = groupBits g gIn ++ packetBits gIn gs := rfl

@[simp] theorem packetBits_length (gIn : Nat) (gs : List Group) :
    (packetBits gIn gs).length = gs.length * gIn := by
  simp [packetBits, List.length_flatMap]

/-- What is left of a packet leaves as one bit stream together with the bits held, and the last group drops
the residue (R256 items 3 and 6). -/
theorem Rpk.pushAll_packet (src : Stream) {gs : List Group} (hgs : gs ≠ []) {x : Rpk}
    (hpos : 0 < x.gOut.toNat) (hrem : x.rem.toNat = gs.length) :
    x.pushAll src gs
      = (x.flush, tagFirst src x.pend
          ((regroup x.gOut.toNat (x.acc ++ packetBits x.gIn.toNat gs)).1.map groupData)) := by
  induction gs generalizing x with
  | nil => exact absurd rfl hgs
  | cons g gs ih =>
    by_cases hlast : gs = []
    · subst hlast
      have h1 : x.rem = 1 := BitVec.eq_of_toNat_eq hrem
      simp [Rpk.pushAll, Rpk.push_of_last src g h1, packetBits, Rpk.cut]
    · have hlen : 0 < gs.length := List.length_pos_of_ne_nil hlast
      simp only [List.length_cons] at hrem
      have h1 : x.rem ≠ 1 := by bv_omega
      have hafter : (remAfter x.rem).toNat = gs.length := by
        unfold remAfter; split <;> bv_omega
      have hcut := regroup_append hpos (x.acc ++ groupBits g x.gIn.toNat) (packetBits x.gIn.toNat gs)
      rw [Rpk.pushAll, Rpk.push_of_not_last src g h1, ih hlast (by exact hpos) (by exact hafter),
        packetBits_cons, ← List.append_assoc, hcut, List.map_append, tagFirst_append]
      rfl

/-! ### A whole packet (R252, R256 items 3, 4 and 6) -/

/-- The items of a packet. -/
def packetItems (gIn gOut : Nat) (gs : List Group) : List Data :=
  (regroup gOut (packetBits gIn gs)).1.map groupData

/-- A packet of `gs` as the host presents it: its length on the first group. -/
def packetInstrs (k : RpkId) (g : Group) (gs : List Group) : List Instr :=
  rpkItem k g (some (BitVec.ofNat 32 (gs.length + 1))) :: gs.map (fun v => rpkItem k v none)

theorem performAll_packet (k : RpkId) (g : Group) (gs : List Group) {s : State}
    (hm : (s.rpk k).life.mode = .running) (hpos : 0 < (s.rpk k).gOut.toNat)
    (hgs : ∀ v ∈ g :: gs, ¬ OverWide v (s.rpk k).gIn) (hlen : gs.length + 1 < 2 ^ 32) :
    performAll (packetInstrs k g gs) s
      = some (s.putRpk k ((s.rpk k).flush, tagFirst (.repacked k)
          ((s.rpk k).openPacket (some (BitVec.ofNat 32 (gs.length + 1)))).pend
          (packetItems (s.rpk k).gIn.toNat (s.rpk k).gOut.toNat (g :: gs)))) := by
  set y := (s.rpk k).openPacket (some (BitVec.ofNat 32 (gs.length + 1))) with hy
  obtain ⟨hg, -⟩ := List.forall_mem_cons.mp hgs
  have htagged : performAll (packetInstrs k g gs) s
      = performAll ((g :: gs).map (fun v => rpkItem k v none)) (s.setRpk k y) := by
    rw [packetInstrs, List.map_cons, performAll, performAll, exec_rpkItem_of_running k _ hm hg,
      exec_rpkItem_of_running k none (by simpa [hy] using hm) (by simpa [hy] using hg), Rpk.push_some,
      setRpk_putRpk, setRpk_rpk_same]
  have hrem : y.rem.toNat = (g :: gs).length := by
    rw [hy, Rpk.openPacket_some, List.length_cons]
    exact Nat.mod_eq_of_lt hlen
  rw [htagged, performAll_rpkItems k (g :: gs) (by simpa [hy] using hm) (by simpa [hy] using hgs),
    setRpk_rpk_same, setRpk_putRpk,
    Rpk.pushAll_packet _ (List.cons_ne_nil g gs) (by simpa [hy] using hpos) hrem, hy, Rpk.openPacket_gIn, Rpk.openPacket_gOut]
  rfl

section PacketItems

variable {b : Nat} (hb : 0 < b) (a : Nat) (gs : List Group)
include hb

theorem packetItems_length : (packetItems a b gs).length = gs.length * a / b := by
  rw [packetItems, List.length_map, regroup_length hb, packetBits_length]

theorem packetItems_toNat_lt : ∀ v ∈ packetItems a b gs, v.toNat < 2 ^ b := by
  obtain ⟨-, hgroups, -⟩ := regroup_spec hb (packetBits a gs)
  intro v hv
  obtain ⟨l, hl, rfl⟩ := List.mem_map.mp hv
  exact hgroups l hl ▸ groupData_toNat_lt l

/-- The items' bits are the packet's first ones in order (R251). -/
theorem packetItems_bits (hb48 : b ≤ 48) :
    (packetItems a b gs).flatMap (fun v => (List.range b).map (fun i => v.getLsbD i))
      = (packetBits a gs).take (gs.length * a / b * b) := by
  obtain ⟨-, hgroups, -⟩ := regroup_spec hb (packetBits a gs)
  obtain ⟨htake, -⟩ := regroup_eq_take_drop hb (packetBits a gs)
  rw [packetBits_length] at htake
  rw [packetItems, List.flatMap_map, ← htake, ← List.flatMap_id]
  refine List.flatMap_congr fun l hl => ?_
  obtain rfl := hgroups l hl
  exact range_map_getLsbD_groupData hb48

end PacketItems

/-- Legal registers give groups of 1 to 8 bits (R114). -/
theorem Rpk.widths_of_check {x : Rpk} (h : x.check = .noError) :
    (0 < x.gIn.toNat ∧ x.gIn.toNat ≤ 8) ∧ (0 < x.gOut.toNat ∧ x.gOut.toNat ≤ 8) := by
  rw [Rpk.check_eq] at h
  split_ifs at h with hzero hrange
  omega

/-- Settles O42: the items of the packet's bits cut into groups. -/
theorem rpkPacketGivesItsBits : Obligations.RpkPacketGivesItsBits := by
  intro k s g gs hm hcheck hgs hlen x a b bits m
  obtain ⟨-, hb, hb8⟩ := Rpk.widths_of_check hcheck
  refine ⟨packetItems a b (g :: gs), packetItems_length hb a _, packetItems_bits hb a _ (by omega),
    packetItems_toNat_lt hb a _, (performAll_packet k g gs hm hb hgs hlen).trans ?_⟩
  rw [← tagFirst_eq_firstTagged, Rpk.openPacket_some, BitVec.toNat_ofNat, Nat.mod_eq_of_lt hlen]
  rfl

/-! ### The round trip (R256 item 5) -/

/-- A group within its width is its bits. -/
theorem groupData_groupBits {v : Group} {w : Word32} (h : ¬ OverWide v w) :
    groupData (groupBits v w.toNat) = v.setWidth 48 := by
  apply BitVec.eq_of_getLsbD_eq
  intro i hi
  rw [getLsbD_groupData _ i hi, BitVec.getLsbD_setWidth]
  by_cases hw : i < w.toNat
  · simp [groupBits, hw, hi]
  · have hbit : v.getLsbD i = false := by
      by_contra hbit
      rw [Bool.not_eq_false] at hbit
      exact h ⟨⟨i, BitVec.lt_of_getLsbD hbit⟩, by simpa using hw, hbit⟩
    simp [groupBits, hw, hbit]

/-- DATA of a group as the host presents it again. -/
theorem groupBits_setWidth {b : Nat} (hb : b ≤ 8) (v : Data) :
    groupBits (v.setWidth 8) b = (List.range b).map (fun i => v.getLsbD i) := by
  refine List.map_congr_left fun i hi => ?_
  have hi : i < b := List.mem_range.mp hi
  simp [show i < 8 by omega]

theorem not_overWide_setWidth {v : Data} {w : Word32} (h : v.toNat < 2 ^ w.toNat) :
    ¬ OverWide (v.setWidth 8) w := by
  rintro ⟨i, hi, hbit⟩
  rw [BitVec.getLsbD_setWidth, BitVec.getLsbD, Nat.testBit_lt_two_pow
    (h.trans_le (Nat.pow_le_pow_right two_pos hi)), Bool.and_false] at hbit
  cases hbit

section RoundTrip

variable {w : Word32} {b : Nat} {gs : List Group}

/-- An exact packet's items, presented as groups, hold all its bits. -/
theorem packetBits_packetItems (hb : 0 < b) (hb8 : b ≤ 8) {a : Nat} (hexact : b ∣ gs.length * a) :
    packetBits b ((packetItems a b gs).map (BitVec.setWidth 8)) = packetBits a gs := by
  have hall : (packetBits a gs).take (gs.length * a / b * b) = packetBits a gs := by
    rw [Nat.div_mul_cancel hexact]
    exact List.take_of_length_le (packetBits_length a gs).le
  rw [← hall, ← packetItems_bits hb a gs (by omega), packetBits, List.flatMap_map]
  exact List.flatMap_congr fun v _ => groupBits_setWidth hb8 v

/-- R256 item 5 on the items: cutting an exact packet's bits back gives its groups. -/
theorem packetItems_packetItems (hw : 0 < w.toNat) (hb : 0 < b) (hb8 : b ≤ 8)
    (hexact : b ∣ gs.length * w.toNat) (hgs : ∀ v ∈ gs, ¬ OverWide v w) :
    packetItems b w.toNat ((packetItems w.toNat b gs).map (BitVec.setWidth 8))
      = gs.map (fun v => v.setWidth 48) := by
  have hcut : regroup w.toNat (packetBits w.toNat gs) = (gs.map (groupBits · w.toNat), []) := by
    rw [packetBits, List.flatMap_def]
    exact regroup_flatten hw (by simp)
  rw [packetItems, packetBits_packetItems hb hb8 hexact, hcut, List.map_map]
  exact List.map_congr_left fun v hv => groupData_groupBits (hgs v hv)

end RoundTrip

/-- A tagged emission of groups within `G_IN`, presented to a repacker, is a packet. -/
theorem performAll_emission (k : RpkId) (src : Stream) {items : List Data} {s : State}
    (hm : (s.rpk k).life.mode = .running) (hpos : 0 < (s.rpk k).gOut.toNat) (hne : items ≠ [])
    (hwidth : ∀ v ∈ items, v.toNat < 2 ^ (s.rpk k).gIn.toNat) (hlen : items.length < 2 ^ 32) :
    performAll ((tagFirst src (some (BitVec.ofNat 32 items.length)) items).map
        (fun o => rpkItem k (o.data.setWidth 8) o.tag)) s
      = some (s.putRpk k ((s.rpk k).flush, tagFirst (.repacked k)
          ((s.rpk k).openPacket (some (BitVec.ofNat 32 items.length))).pend
          (packetItems (s.rpk k).gIn.toNat (s.rpk k).gOut.toNat (items.map (BitVec.setWidth 8))))) := by
  cases items with
  | nil => exact absurd rfl hne
  | cons v vs =>
    have hgroups : ∀ g ∈ (v :: vs).map (BitVec.setWidth 8), ¬ OverWide g (s.rpk k).gIn :=
      List.forall_mem_map.mpr fun w hw => not_overWide_setWidth (hwidth w hw)
    simpa [packetInstrs, tagFirst_none, Function.comp_def] using
      performAll_packet k (v.setWidth 8) (vs.map (BitVec.setWidth 8)) hm hpos hgroups (by simpa using hlen)

/-- A repacker's emission leaves life cycle and registers of all of them, its own included. -/
theorem putRpk_flush_rpk (s : State) (k k' : RpkId) (items : List OutItem) :
    ((s.putRpk k ((s.rpk k).flush, items)).rpk k').life = (s.rpk k').life
    ∧ ((s.putRpk k ((s.rpk k).flush, items)).rpk k').gIn = (s.rpk k').gIn
    ∧ ((s.putRpk k ((s.rpk k).flush, items)).rpk k').gOut = (s.rpk k').gOut := by
  by_cases h : k' = k
  · subst h
    rw [putRpk_rpk_same]
    exact ⟨rfl, rfl, rfl⟩
  · rw [State.putRpk, emit_rpk, setRpk_rpk_other _ _ _ _ h]
    exact ⟨rfl, rfl, rfl⟩

/-- The tag of a packet whose converted length fits TAGLEN and is not 0 (R252). -/
theorem Rpk.openPacket_pend {x : Rpk} {n m : Nat} (hn : n < 2 ^ 32)
    (hconv : n * x.gIn.toNat / x.gOut.toNat = m) (hm : 0 < m) (hm32 : m < 2 ^ 32) :
    (x.openPacket (some (BitVec.ofNat 32 n))).pend = some (BitVec.ofNat 32 m) := by
  have hne : m % 2 ^ 32 ≠ 0 := by rw [Nat.mod_eq_of_lt hm32]; omega
  rw [Rpk.openPacket_some, BitVec.toNat_ofNat, Nat.mod_eq_of_lt hn, hconv]
  exact if_neg hne

/-- Settles O43: the first repacker's output is a packet with all the bits of the input, and the second one
cuts it into the input's groups. -/
theorem rpkRoundTrip : Obligations.RpkRoundTrip := by
  intro k k' s g gs hm hcheck hm' _ hin hout hgs hlen hexact hfits
  obtain ⟨⟨ha, -⟩, hb, hb8⟩ := Rpk.widths_of_check hcheck
  set a := (s.rpk k).gIn.toNat with ha_def
  set b := (s.rpk k).gOut.toNat with hb_def
  set items := packetItems a b (g :: gs) with hitems
  have hcount : items.length = (gs.length + 1) * a / b := packetItems_length hb a (g :: gs)
  have hcount_pos : 0 < (gs.length + 1) * a / b := Nat.div_pos (Nat.le_of_dvd (by positivity) hexact) hb
  have hfirst := performAll_packet k g gs hm hb hgs hlen
  rw [Rpk.openPacket_pend hlen rfl hcount_pos hfits, ← ha_def, ← hb_def, ← hitems, ← hcount] at hfirst
  set outs := tagFirst (.repacked k) (some (BitVec.ofNat 32 items.length)) items with houts
  set t := s.putRpk k ((s.rpk k).flush, outs) with ht
  obtain ⟨hlife', hin', hout'⟩ := putRpk_flush_rpk s k k' outs
  have hin' : (t.rpk k').gIn.toNat = b := by rw [ht, hin', hin]
  have hout' : (t.rpk k').gOut.toNat = a := by rw [ht, hout', hout]
  have hconv : items.length * (t.rpk k').gIn.toNat / (t.rpk k').gOut.toNat = gs.length + 1 := by
    rw [hin', hout', hcount, Nat.div_mul_cancel hexact, Nat.mul_div_cancel _ ha]
  have hsecond := performAll_emission k' (.repacked k) (items := items) (s := t)
    (by rw [ht, hlife']; exact hm') (by rwa [hout']) (List.ne_nil_of_length_pos (by omega))
    (by rw [hin']; exact packetItems_toNat_lt hb a (g :: gs)) (by omega)
  rw [Rpk.openPacket_pend (by omega) hconv (by omega) hlen, hin', hout',
    packetItems_packetItems (gs := g :: gs) ha hb hb8 hexact hgs] at hsecond
  exact ⟨t, _, outs, hfirst, rfl, hsecond, by rw [← tagFirst_eq_firstTagged]; rfl⟩

end Sys2Proof.Machine
end

section
/-! The proofs of the family 60_exceptions.md: what a step does with each kind of input, the common frame
every data and flush operation stands in (`exec_framed`), and the operations that R272 makes illegal
(`IllegalOp`). -/

namespace Sys2Proof.Machine

/-! ### Steps that perform no operation (R289, R300, R96) -/

theorem step_of_idle {s : State} (hs : s.input = []) : step s = .next s := by
  simp only [step, fetch, hs]

theorem step_of_hwReset {s : State} {rest : List Stimulus} (hs : s.input = .hwReset :: rest) :
    step s = exec .reset { s with input := rest } := by
  simp only [step, fetch, hs]
  rfl

theorem step_of_invalid {s : State} {w : Word} {rest : List Stimulus} {e : DecodeError}
    (hs : s.input = .word w :: rest) (hd : decode w = .error e) :
    step s = .next (withIllegal { s with input := rest }) := by
  simp only [step, fetch, hs, hd]
  rfl

/-- The step function is total (R290). -/
theorem step_safe (s : State) : Safe s := by
  unfold Safe
  cases hs : s.input with
  | nil => exact ⟨s, step_of_idle hs⟩
  | cons x rest =>
    cases x with
    | hwReset =>
      rw [step_of_hwReset hs]
      exact exec_next _ _
    | word w =>
      cases hd : decode w with
      | error e => exact ⟨_, step_of_invalid hs hd⟩
      | ok i =>
        rw [step_of_word hs hd]
        exact exec_next _ _

/-- Settles O2. -/
theorem stepAlwaysAnswersNext : Obligations.StepAlwaysAnswersNext :=
  ⟨step_safe, fun _ => step_of_idle, fun _ _ => step_of_hwReset⟩

/-! ### The operations that are illegal in a state (R272) -/

/-- The causes of ILLEGAL that a word which decodes can have, as operations. -/
inductive IllegalOp (s : State) : Instr → Prop
  /-- COMMIT of a UNIT that is no unit. -/
  | commit (u : UnitNum) (hu : u = 0 ∨ 8 < u.toNat) : IllegalOp s (.commit u)
  /-- CFG_RD of an unmapped address. -/
  | read (a : Addr) (hw : a ∉ writableAddrs) (hr : a ∉ readOnlyAddrs) : IllegalOp s (.cfgRd a)
  /-- CFG_WR of an unmapped or read-only address. -/
  | write (a : Addr) (v : Word32) (hw : a ∉ writableAddrs) : IllegalOp s (.cfgWr a v)
  /-- An over-wide item for a RUNNING ILV (R97). -/
  | ilvWidth (d : Dir) (x : IlvItem) (tag : Tag) (hm : s.ilv.life.mode = .running)
      (hx : OverWide x s.ilv.w) : IllegalOp s (ilvItem d x tag)
  /-- An over-wide group for a RUNNING repacker (R97). -/
  | rpkWidth (k : RpkId) (g : Group) (tag : Tag) (hm : (s.rpk k).life.mode = .running)
      (hg : OverWide g (s.rpk k).gIn) : IllegalOp s (rpkItem k g tag)

/-- No register is both writable and read-only (R26). -/
theorem not_writable_of_readOnly : ∀ a ∈ readOnlyAddrs, a ∉ writableAddrs := by
  decide

theorem illegalCause_of_error {w : Word} {e : DecodeError} (hd : decode w = .error e) (s : State) :
    IllegalCause w s := by
  refine .inl fun hv => ?_
  obtain ⟨i, hi⟩ := (wordsThatDecode w).mpr hv
  simp [hd] at hi

/-- R272 for a word that decodes speaks of its operation alone. -/
theorem illegalCause_iff_of_ok {w : Word} {i : Instr} (hd : decode w = .ok i) (s : State) :
    IllegalCause w s ↔ IllegalOp s i := by
  have same {j : Instr} (h : decode w = .ok j) : i = j := Except.ok.inj (hd.symm.trans h)
  constructor
  · rintro (hv | ⟨u, h, hu⟩ | ⟨a, hw, hr, h | ⟨v, h⟩⟩ | ⟨a, v, hr, h⟩ | ⟨d, x, tag, h, hm, hx⟩
      | ⟨k, g, tag, h, hm, hg⟩)
    · exact absurd ((wordsThatDecode w).mp ⟨i, hd⟩) hv
    · exact same h ▸ .commit u hu
    · exact same h ▸ .read a hw hr
    · exact same h ▸ .write a v hw
    · exact same h ▸ .write a v (not_writable_of_readOnly a hr)
    · exact same h ▸ .ilvWidth d x tag hm hx
    · exact same h ▸ .rpkWidth k g tag hm hg
  · intro h
    cases h with
    | commit u hu => exact .inr (.inl ⟨u, hd, hu⟩)
    | read a hw hr => exact .inr (.inr (.inl ⟨a, hw, hr, .inl hd⟩))
    | write a v hw =>
      by_cases hr : a ∈ readOnlyAddrs
      · exact .inr (.inr (.inr (.inl ⟨a, v, hr, hd⟩)))
      · exact .inr (.inr (.inl ⟨a, hw, hr, .inr ⟨v, hd⟩⟩))
    | ilvWidth d x tag hm hx => exact .inr (.inr (.inr (.inr (.inl ⟨d, x, tag, hd, hm, hx⟩))))
    | rpkWidth k g tag hm hg => exact .inr (.inr (.inr (.inr (.inr ⟨k, g, tag, hd, hm, hg⟩))))

theorem exec_of_illegalOp {s : State} {i : Instr} (h : IllegalOp s i) :
    exec i s = .next (withIllegal s) := by
  obtain ⟨-, hunit, -⟩ := commitRule
  obtain ⟨hilv, hrpk⟩ := overWideItemDropped
  cases h with
  | commit u hu => exact hunit u s hu
  | read a hw hr => exact exec_cfgRd_unmapped hw hr s
  | write a v hw => exact exec_cfgWr_not_writable hw v s
  | ilvWidth d x tag hm hx => exact (hilv d x tag s hx).1 hm
  | rpkWidth k g tag hm hg => exact (hrpk k g tag s hg).1 hm

/-! ### Data and flush operations (R120, R273) -/

/-- Every data and flush operation is a body in the common frame of its unit. The body leaves the sticky
bits alone, and the frame's width check fails only for an operation that is illegal. -/
theorem exec_framed {i : Instr} {u : UnitId} {d : Dir} (h : dataPort i = some (u, d)) (s : State) :
    ∃ wide body, exec i s = .next (framed u wide body s) ∧ (body s).flags = s.flags
      ∧ ((s.life u).mode = .running → wide = true → IllegalOp s i) := by
  have width {x : BitVec 8} {w : Word32} (hx : tooWide x w = true) : OverWide x w :=
    (tooWide_iff_overWide x w).mp hx
  cases i with
  | cfgWr | cfgRd | commit | reset => cases h
  | ilvFwd x tag => cases h; exact ⟨_, _, rfl, rfl, fun hm hx => .ilvWidth .fwd x tag hm (width hx)⟩
  | ilvInv x tag => cases h; exact ⟨_, _, rfl, rfl, fun hm hx => .ilvWidth .inv x tag hm (width hx)⟩
  | rpk0Push g tag => cases h; exact ⟨_, _, rfl, rfl, fun hm hg => .rpkWidth .k0 g tag hm (width hg)⟩
  | rpk1Push g tag => cases h; exact ⟨_, _, rfl, rfl, fun hm hg => .rpkWidth .k1 g tag hm (width hg)⟩
  | rpk2Push g tag => cases h; exact ⟨_, _, rfl, rfl, fun hm hg => .rpkWidth .k2 g tag hm (width hg)⟩
  | rpk3Push g tag => cases h; exact ⟨_, _, rfl, rfl, fun hm hg => .rpkWidth .k3 g tag hm (width hg)⟩
  | _ => cases h; exact ⟨false, _, rfl, rfl, fun _ => Bool.noConfusion⟩

/-- Settles O19: the frame checks the mode before anything else, and an invalid word reaches no frame. -/
theorem dataRefusedWhenNotRunning : Obligations.DataRefusedWhenNotRunning := by
  refine ⟨fun i u d s hi hm => ?_, fun s w rest e => step_of_invalid⟩
  obtain ⟨wide, body, he, -, -⟩ := exec_framed hi s
  rw [he, framed_of_not_running hm]
  rfl

/-! ### Operations that leave the ILLEGAL bit alone (R272) -/

section Legal

variable {s : State}

theorem dataOp_keeps_illegal {i : Instr} {u : UnitId} {d : Dir} (hi : dataPort i = some (u, d))
    (h : ¬ IllegalOp s i) : ∃ t, exec i s = .next t ∧ t.flags.illegal = s.flags.illegal := by
  obtain ⟨wide, body, he, hbody, hwide⟩ := exec_framed hi s
  refine ⟨_, he, ?_⟩
  rcases framed_cases u wide body s with ⟨-, e⟩ | ⟨hm, hw, -⟩ | ⟨-, -, e⟩
  · rw [e, raise_notrun_flags_illegal]
  · exact absurd (hwide hm hw) h
  · rw [e, hbody]

theorem cfgRd_keeps_illegal {a : Addr} (h : ¬ IllegalOp s (.cfgRd a)) :
    ∃ t, exec (.cfgRd a) s = .next t ∧ t.flags.illegal = s.flags.illegal := by
  have ha : a ∈ writableAddrs ∨ a ∈ readOnlyAddrs := by
    by_contra hc
    obtain ⟨hw, hr⟩ := not_or.mp hc
    exact h (.read a hw hr)
  obtain ⟨r, rfl⟩ := exists_reg_of_mapped ha
  exact ⟨_, readsAs_addr s r, rfl⟩

theorem cfgWr_keeps_illegal {a : Addr} {v : Word32} (h : ¬ IllegalOp s (.cfgWr a v)) :
    ∃ t, exec (.cfgWr a v) s = .next t ∧ t.flags.illegal = s.flags.illegal := by
  obtain ⟨r, u, rfl, ho⟩ := exists_reg_of_writable (not_not.mp fun hw => h (.write a v hw))
  by_cases hm : (s.life u).mode = .unconfigured
  · obtain ⟨t, hw⟩ := exists_writeReg ho v s
    exact ⟨t, exec_cfgWr_unconfigured hw hm, by rw [(writeReg_writesRegisterOf hw).flags]⟩
  · exact ⟨_, exec_cfgWr_locked v ho hm, rfl⟩

/-- The numbers 1 to 8 name units (R23). -/
theorem exists_unit_of_number :
    ∀ n : UnitNum, ¬ (n = 0 ∨ 8 < n.toNat) → ∃ u ∈ UnitId.all, u.number = n := by
  decide

theorem commit_keeps_illegal {n : UnitNum} (h : ¬ IllegalOp s (.commit n)) :
    ∃ t, exec (.commit n) s = .next t ∧ t.flags.illegal = s.flags.illegal := by
  obtain ⟨u, -, rfl⟩ := exists_unit_of_number n fun hn => h (.commit n hn)
  refine ⟨_, exec_commit_number u s, ?_⟩
  by_cases hm : (s.life u).mode = .unconfigured
  · by_cases hc : s.check u = .noError
    · rw [commitUnit_passed hm hc, setLife_flags]
    · rw [commitUnit_failed hm hc, setLife_flags]
  · rw [commitUnit_locked hm]
    rfl

/-- An operation that is not illegal leaves the bit as it was, or is RESET, which clears it. -/
theorem legalOp_keeps_illegal {i : Instr} (h : ¬ IllegalOp s i) :
    ∃ t, exec i s = .next t
      ∧ (t.flags.illegal = s.flags.illegal ∨ (i = .reset ∧ t.flags.illegal = false)) := by
  by_cases hi : i = .reset
  · subst hi
    exact ⟨_, rfl, .inr ⟨rfl, rfl⟩⟩
  · obtain ⟨t, he, ht⟩ : ∃ t, exec i s = .next t ∧ t.flags.illegal = s.flags.illegal := by
      cases i with
      | cfgWr a v => exact cfgWr_keeps_illegal h
      | cfgRd a => exact cfgRd_keeps_illegal h
      | commit n => exact commit_keeps_illegal h
      | reset => exact absurd rfl hi
      | _ => exact dataOp_keeps_illegal rfl h
    exact ⟨t, he, .inl ht⟩

end Legal

/-- Settles O8: a word that does not decode has the first cause, and one that decodes has a cause exactly
where its operation is illegal. -/
theorem illegalHasFiveCauses : Obligations.IllegalHasFiveCauses := by
  intro s w rest hs
  cases hd : decode w with
  | error e => exact ⟨fun _ => step_of_invalid hs hd, fun h => absurd (illegalCause_of_error hd s) h⟩
  | ok i =>
    have hcause : IllegalCause w s ↔ IllegalOp { s with input := rest } i :=
      illegalCause_iff_of_ok hd { s with input := rest }
    rw [step_of_word hs hd, hcause]
    refine ⟨exec_of_illegalOp, fun h => ?_⟩
    obtain ⟨t, he, ht⟩ := legalOp_keeps_illegal h
    exact ⟨t, he, ht.imp_right fun ⟨hreset, hclear⟩ => ⟨congrArg _ hreset, hclear⟩⟩

end Sys2Proof.Machine
end

section
/-! The proofs of the family 70_reset_and_hazards.md: both follow from what `resetCore` leaves, whatever the
state before it. -/

namespace Sys2Proof.Machine

/-! ### What a reset event leaves (R300, R301) -/

theorem exec_reset (s : State) : exec .reset s = .next (resetCore s) := rfl

theorem resetCore_mode (s : State) (u : UnitId) : ((resetCore s).life u).mode = .unconfigured := by
  rw [resetCore_life]
  rfl

theorem resetCore_err (s : State) (u : UnitId) : ((resetCore s).life u).err = .noError := by
  rw [resetCore_life]
  rfl

theorem resetCore_ctx (s : State) (d : Dir) : (resetCore s).ilv.ctx d = .reset := by
  cases d <;> rfl

/-- The table of R301. -/
theorem resetValues_resetCore (s : State) : ResetValues (resetCore s) where
  flags := ⟨rfl, rfl, rfl⟩
  modes := resetCore_mode s
  errs := resetCore_err s
  ilvRegs := ⟨rfl, rfl, rfl⟩
  scgRegs := ⟨rfl, rfl, rfl, rfl, rfl, rfl⟩
  rpkRegs k := by
    rw [resetCore_rpk]
    exact ⟨rfl, rfl⟩
  results := ⟨rfl, rfl, rfl, rfl, rfl, rfl⟩
  contexts d := by
    rw [resetCore_ctx]
    exact ⟨rfl, rfl, rfl⟩
  gate := ⟨rfl, rfl, rfl, rfl⟩
  gateRest := ⟨rfl, rfl, rfl, rfl, rfl, rfl⟩
  repackers k := by
    rw [resetCore_rpk]
    exact ⟨rfl, rfl, rfl⟩

/-! ### The registers after a reset event (R26, R301) -/

/-- SYS_MODES reads 0 while every unit is UNCONFIGURED. -/
theorem modesWord_eq_zero {s : State} (h : ∀ u, (s.life u).mode = .unconfigured) : s.modesWord = 0 := by
  refine foldl_or_of_forall_zero _ _ _ fun u _ => ?_
  rw [h u]
  simp [Mode.code, place]

theorem reset_flags_word : State.reset.flags.word = 0 := by decide

theorem Life.reset_word : Life.reset.word = 0 := by decide

theorem reset_scg_statusWord : State.reset.scg.statusWord = 0 := by decide

theorem pairHi_zero : pairHi 0 = 0 := by decide

/-- Every register reads 0: the status registers because UNCONFIGURED, CFGERR 0 and SEARCHING are all coded
as 0, the others because they hold 0. -/
theorem resetCore_readReg (s : State) (r : Reg) : (resetCore s).readReg r = 0 := by
  cases r with
  | sysStatus => exact reset_flags_word
  | sysModes => exact modesWord_eq_zero (resetCore_mode s)
  | hamStatus | ilvStatus | qamStatus => exact Life.reset_word
  | scgStatus => exact reset_scg_statusWord
  | scPReHi | scPImHi | scRHi => exact pairHi_zero
  | rpkStatus k => exact (congrArg Life.word (resetCore_life s (.rpk k))).trans Life.reset_word
  | rpkGIn k => exact congrArg Rpk.gIn (resetCore_rpk s k)
  | rpkGOut k => exact congrArg Rpk.gOut (resetCore_rpk s k)
  | _ => rfl

/-! ### COMMIT after a reset event (R114) -/

/-- The sizes of ILV, SCG and the repackers are 0, which is the first thing their checks refuse. -/
theorem resetCore_check (s : State) {u : UnitId} (hham : u ≠ .ham) (hqam : u ≠ .qam) :
    (resetCore s).check u = .zeroSize := by
  obtain ⟨-, hilv, hscg, hrpk⟩ := commitChecksDecideCode
  cases u with
  | ham => exact absurd rfl hham
  | qam => exact absurd rfl hqam
  | ilv => exact (hilv _).1 (.inl rfl)
  | scg => exact (hscg _).1 (.inl rfl)
  | rpk k => exact (hrpk _ k).1 (.inl (by rw [resetCore_rpk]; rfl))

theorem exec_commit_resetCore (s : State) {u : UnitId} (hham : u ≠ .ham) (hqam : u ≠ .qam) :
    exec (.commit u.number) (resetCore s)
      = .next ((resetCore s).setLife u { mode := .failed, err := .zeroSize }) := by
  have hc := resetCore_check s hham hqam
  rw [exec_commit_number, commitUnit_failed (resetCore_mode s u) (by simp [hc]), hc]

/-- Settles O10. -/
theorem resetPutsEveryPiece : Obligations.ResetPutsEveryPiece := by
  refine ⟨by decide, fun s => ⟨_, exec_reset s, resetValues_resetCore s, resetCore_out s⟩,
    fun s t addr he haddr => ?_, fun s t u he hham hqam => ?_⟩ <;> cases he
  · obtain ⟨r, rfl⟩ := exists_reg_of_mapped haddr
    exact resetCore_readReg s r ▸ readsAs_addr (resetCore s) r
  · exact exec_commit_resetCore s hham hqam

/-! ### The invariants (R24, R29, R31, R34) -/

/-- The run states are constrained only while their unit is RUNNING, which no unit is after reset. -/
theorem resetCore_not_running (s : State) (u : UnitId) : ((resetCore s).life u).mode ≠ .running := by
  simp [resetCore_mode]

theorem ilvInv_resetCore (s : State) : IlvInv (resetCore s) :=
  fun hrun => absurd hrun (resetCore_not_running s .ilv)

theorem rpkInv_resetCore (s : State) : RpkInv (resetCore s) :=
  fun k hrun => absurd hrun (resetCore_not_running s (.rpk k))

theorem scgInv_resetCore (s : State) : ScgInv (resetCore s) :=
  fun hrun => absurd hrun (resetCore_not_running s .scg)

theorem resetCore_reset : resetCore .reset = .reset := rfl

/-- Settles O24: `State.reset` is what a reset event leaves of itself. -/
theorem invariantsHoldAtReset : Obligations.InvariantsHoldAtReset := by
  rw [Obligations.InvariantsHoldAtReset, ← resetCore_reset]
  exact ⟨lifeInv_resetCore _, ilvInv_resetCore _, rpkInv_resetCore _, scgInv_resetCore _⟩

end Sys2Proof.Machine
end
